-- ==== Sys2Proof/Word.lean ====
section
/-! DEFINITION. The two word types of the block: a byte (payload, data, ack-flag byte, CONFIG value) and a FIFO word
(spec/30_encoding.md R70, R71). -/

namespace Sys2Proof

/-- A byte: a payload, a data byte, an ack-flag byte, a CONFIG value. -/
abbrev Byte := BitVec 8

/-- A FIFO word: a command word (R70) or a response word (R71). -/
abbrev Word := BitVec 16

end Sys2Proof
end

