-- ==== Sys2Proof/Config.lean ====
section
/-! DEFINITION. The parameters of spec/00_scope.md R6, the constraints R6 puts on them, their defaults, and the free
values (the draws of R7). The parameters are a record that State carries, so that no rule bakes in a default. -/

namespace Sys2Proof

/-- The implementation parameters of R6. Offsets are byte offsets into the register window (20 R55). -/
structure Config where
  fifoDepth      : Nat
  busClockHz     : Nat
  maxRate        : Nat
  defaultRateHz  : Nat
  /-- Recorded, and no rule computes with it (70 R251). -/
  xferTimeoutMs  : Nat
  /-- Recorded, and no rule computes with it (70 R251). -/
  pollIntervalMs : Nat
  regSize        : Nat
  offConfig      : Nat
  offFreq        : Nat
  offTxBuf       : Nat
  offRxBuf       : Nat
  offTxCount     : Nat
  offRxCount     : Nat
  offBufSize     : Nat
  cfgReset       : Byte
  cfgEnable      : Byte
  opStart        : Byte
  opWaitAck      : Byte
  opWaitAckStop  : Byte
  opSendAck      : Byte
  opSendNackStop : Byte
  /-- The mask of the bit of the ack-flag byte that reports a NACK (30 R71). -/
  isNack         : Byte
  deriving DecidableEq, Repr

/-- The seven register offsets, in the order of 20 R55. -/
def Config.offsets (c : Config) : List Nat :=
  [c.offConfig, c.offFreq, c.offTxBuf, c.offRxBuf, c.offTxCount, c.offRxCount, c.offBufSize]

/-- The five opcode bytes of 30 R74. -/
def Config.opcodes (c : Config) : List Byte :=
  [c.opStart, c.opWaitAck, c.opWaitAckStop, c.opSendAck, c.opSendNackStop]

/-- The constraints of R6: the depth's bounds, the rates, distinct and naturally aligned offsets inside the window,
distinct CONFIG bytes, distinct opcode bytes, a one-bit NACK mask. -/
abbrev Config.WF (c : Config) : Prop :=
  (2 ≤ c.fifoDepth ∧ c.fifoDepth ≤ 255) ∧
  (8 * c.maxRate < c.busClockHz ∧ c.busClockHz ≤ 2 ^ 35) ∧
  (1 ≤ c.maxRate ∧ 0 < c.defaultRateHz ∧ c.defaultRateHz ≤ c.maxRate) ∧
  (0 < c.xferTimeoutMs ∧ 0 < c.pollIntervalMs ∧ c.pollIntervalMs < c.xferTimeoutMs) ∧
  c.offsets.Nodup ∧
  (c.offFreq % 4 = 0 ∧ c.offTxBuf % 2 = 0 ∧ c.offRxBuf % 2 = 0 ∧ c.offBufSize % 2 = 0) ∧
  (c.offConfig < c.regSize ∧ c.offFreq + 4 ≤ c.regSize ∧ c.offTxBuf + 2 ≤ c.regSize ∧ c.offRxBuf + 2 ≤ c.regSize ∧
    c.offTxCount < c.regSize ∧ c.offRxCount < c.regSize ∧ c.offBufSize + 2 ≤ c.regSize) ∧
  c.cfgReset ≠ c.cfgEnable ∧
  c.opcodes.Nodup ∧
  c.isNack ∈ [0x01#8, 0x02#8, 0x04#8, 0x08#8, 0x10#8, 0x20#8, 0x40#8, 0x80#8]

/-- DESIGN CHOICE (the spec's own defaults, R6, decisions D1 to D9; log 1). -/
def Config.standard : Config where
  fifoDepth      := 64
  busClockHz     := 125000000
  maxRate        := 1000000
  defaultRateHz  := 400000
  xferTimeoutMs  := 1000
  pollIntervalMs := 1
  regSize        := 0x20
  offConfig      := 0x00
  offFreq        := 0x04
  offTxBuf       := 0x08
  offRxBuf       := 0x0C
  offTxCount     := 0x10
  offRxCount     := 0x14
  offBufSize     := 0x18
  cfgReset       := 0x00#8
  cfgEnable      := 0x01#8
  opStart        := 0x80#8
  opWaitAck      := 0x00#8
  opWaitAckStop  := 0x40#8
  opSendAck      := 0x20#8
  opSendNackStop := 0x70#8
  isNack         := 0x01#8

/-! The free values. Their arguments are the identity of the controller (45 R185) and the number of the draw, so that no
two draws, and no two controllers (45 R191), are known to agree. -/

/-- Free value (log 8): the bits of the ack-flag byte other than `IS_NACK`, drawn per response word (30 R71). -/
opaque Config.freeFlags : Nat → Nat → Byte

/-- Free value (log 9): the `nack` bit of the response to SEND_NACK_STOP (41 R118). -/
opaque Config.freeNack : Nat → Nat → Bool

/-- Free value (log 10): what a read of an unspecified FREQ returns (20 R43). -/
opaque Config.freeFreq : Nat → Nat → BitVec 32

/-- Free value (log 11): which of two failing encoder checks names the reason (42 R130, 93 U18). -/
opaque Config.freeFirst : Nat → Nat → Bool

end Sys2Proof
end

