-- ==== Sys2Proof/Syntax.lean ====
section
/-! DEFINITION. The instructions: one constructor of `Instr` per row of spec/opcode_table.json, the nine requests as a
type of their own (the front end keeps one per requester, 10 R31), and the encoded forms of 30_encoding.md R70, R72, R75. -/

namespace Sys2Proof

/-- Every row of spec/opcode_table.json: five command words (30 R74), two CONFIG pseudo-commands (30 R72), nine
front-end requests (30 R75). -/
inductive Instr where
  /-- START, 41 R114. -/
  | start (payload : Byte)
  /-- WAIT_ACK, 41 R115. -/
  | waitAck (payload : Byte)
  /-- WAIT_ACK_STOP, 41 R116. -/
  | waitAckStop (payload : Byte)
  /-- SEND_ACK, 41 R117. -/
  | sendAck (payload : Byte)
  /-- SEND_NACK_STOP, 41 R118. -/
  | sendNackStop (payload : Byte)
  /-- CONFIG<-RESET, 40 R91. -/
  | configReset
  /-- CONFIG<-ENABLE, 40 R92. -/
  | configEnable
  /-- open(), 70 R235. -/
  | openReq
  /-- enable(), 40 R94. -/
  | enable
  /-- disable(), 40 R95. -/
  | disable
  /-- set_speed(freq_hz), 40 R96. -/
  | setSpeed (freqHz : Int)
  /-- get_speed(), 40 R98. -/
  | getSpeed
  /-- read(addr, n), 42 R132. -/
  | read (addr : Int) (n : Int)
  /-- write(addr, data), 42 R131. -/
  | write (addr : Int) (data : List Byte)
  /-- write_and_read(addr, data, rd_len), 42 R133. -/
  | writeAndRead (addr : Int) (data : List Byte) (rdLen : Int)
  /-- get_cache_size(), 43 R160. -/
  | getCacheSize
  deriving DecidableEq, Repr

/-- The five control opcodes of 30 R74. -/
inductive CwOp where
  | start | waitAck | waitAckStop | sendAck | sendNackStop
  deriving DecidableEq, Repr

/-- The command word with this opcode and payload, as an instruction. -/
def CwOp.instr : CwOp → Byte → Instr
  | .start, p => .start p
  | .waitAck, p => .waitAck p
  | .waitAckStop, p => .waitAckStop p
  | .sendAck, p => .sendAck p
  | .sendNackStop, p => .sendNackStop p

/-- The nine front-end requests (30 R75). -/
inductive Request where
  | openReq
  | enable
  | disable
  | setSpeed (freqHz : Int)
  | getSpeed
  | read (addr : Int) (n : Int)
  | write (addr : Int) (data : List Byte)
  | writeAndRead (addr : Int) (data : List Byte) (rdLen : Int)
  | getCacheSize
  deriving DecidableEq, Repr

/-- The request as an instruction. -/
def Request.instr : Request → Instr
  | .openReq => .openReq
  | .enable => .enable
  | .disable => .disable
  | .setSpeed f => .setSpeed f
  | .getSpeed => .getSpeed
  | .read a n => .read a n
  | .write a d => .write a d
  | .writeAndRead a d n => .writeAndRead a d n
  | .getCacheSize => .getCacheSize

/-- The request record of 30 R75, `(op, addr, data, n, freq_hz)`; `n` also carries `rd_len`. -/
structure ReqRecord where
  op     : BitVec 4
  addr   : Int
  data   : List Byte
  n      : Int
  freqHz : Int
  deriving DecidableEq, Repr

/-- An instruction as it reaches the block: a word of the TX FIFO (R70), a byte written to CONFIG (R72), or a request
record (R75). -/
inductive Encoded where
  | cw (w : Word)
  | cfg (v : Byte)
  | req (r : ReqRecord)
  deriving DecidableEq, Repr

end Sys2Proof
end

