-- ==== Sys2Proof/WellFormed.lean ====
section
/-! DEFINITION. Which encoded forms the spec gives a meaning (30_encoding.md R79). Every term of `Instr` is well formed:
its operand types carry the only syntactic condition the spec puts on an operand (42 R130: the elements of `data` are
bytes); an address, a length or a frequency out of range is a run-time error of the request (60 R201), not a malformed
instruction. What can be malformed is an encoding. -/

namespace Sys2Proof

/-- The fields of the record that the operation does not use are zero (30 R75: "with the fields each operation uses"). -/
def ReqRecord.unusedZero (r : ReqRecord) : Bool :=
  match r.op.toNat with
  | 3 => r.addr == 0 && r.data.isEmpty && r.n == 0
  | 5 => r.data.isEmpty && r.freqHz == 0
  | 6 => r.n == 0 && r.freqHz == 0
  | 7 => r.freqHz == 0
  | _ => r.addr == 0 && r.data.isEmpty && r.n == 0 && r.freqHz == 0

/-- The three checks of 30 R79 (opcode byte, CONFIG byte, `op`) and the record's unused fields. -/
def Encoded.wellFormed (c : Config) : Encoded → Bool
  | .cw w => c.opcodes.contains (w.extractLsb' 8 8)
  | .cfg v => v == c.cfgReset || v == c.cfgEnable
  | .req r => r.op ≤ 8#4 && r.unusedZero

end Sys2Proof
end

