-- ==== Sys2Proof/Decode.lean ====
section
/-! DEFINITION. Bytes of a word, the decoder of the three encoded forms (30_encoding.md R70, R72, R74, R75, R79), total and
rejecting by name, the encoder written from the same tables, and the host's `decodeTableWord`. -/

namespace Sys2Proof

/-- Bits 15:8 of a FIFO word: opcode (R70) or ack-flag byte (R71). -/
def hiByte (w : Word) : Byte := w.extractLsb' 8 8

/-- Bits 7:0 of a FIFO word: payload (R70) or data byte (R71). -/
def loByte (w : Word) : Byte := w.extractLsb' 0 8

/-- `{hi, lo}` (00 R7). -/
def joinBytes (hi lo : Byte) : Word := hi ++ lo

/-- The opcode byte of each opcode (R74). -/
def opByte (c : Config) : CwOp → Byte
  | .start => c.opStart
  | .waitAck => c.opWaitAck
  | .waitAckStop => c.opWaitAckStop
  | .sendAck => c.opSendAck
  | .sendNackStop => c.opSendNackStop

/-- The command word `{opcode, payload}` (R70). -/
def commandWord (c : Config) (op : CwOp) (payload : Byte) : Word := joinBytes (opByte c op) payload

/-- The opcode a byte selects, by the byte's whole value (R74). -/
def opOfByte (c : Config) (b : Byte) : Option CwOp :=
  if b = c.opStart then some .start
  else if b = c.opWaitAck then some .waitAck
  else if b = c.opWaitAckStop then some .waitAckStop
  else if b = c.opSendAck then some .sendAck
  else if b = c.opSendNackStop then some .sendNackStop
  else none

/-- The request a record stands for (R75); fields the operation does not use are not looked at. -/
def requestOf (r : ReqRecord) : Option Request :=
  match r.op.toNat with
  | 0 => some .openReq
  | 1 => some .enable
  | 2 => some .disable
  | 3 => some (.setSpeed r.freqHz)
  | 4 => some .getSpeed
  | 5 => some (.read r.addr r.n)
  | 6 => some (.write r.addr r.data)
  | 7 => some (.writeAndRead r.addr r.data r.n)
  | 8 => some .getCacheSize
  | _ => none

/-- The decoder's answer: an instruction, or the reserved encoding it met, by name (R79). -/
inductive Decoded where
  | ok (i : Instr)
  /-- An opcode byte that is none of the five. -/
  | reservedOpcode (cw : Word)
  /-- A CONFIG byte that is neither pseudo-command. -/
  | reservedConfig (v : Byte)
  /-- A request `op` of 9 to 15. -/
  | reservedOp (op : BitVec 4)
  deriving DecidableEq, Repr

/-- The instruction, if there is one. -/
def Decoded.toOption : Decoded → Option Instr
  | .ok i => some i
  | .reservedOpcode _ | .reservedConfig _ | .reservedOp _ => none

/-- The decoder of the three forms (R70, R72, R75). -/
def decode (c : Config) : Encoded → Decoded
  | .cw w =>
    match opOfByte c (hiByte w) with
    | some op => .ok (op.instr (loByte w))
    | none => .reservedOpcode w
  | .cfg v =>
    if v = c.cfgReset then .ok .configReset
    else if v = c.cfgEnable then .ok .configEnable
    else .reservedConfig v
  | .req r =>
    match requestOf r with
    | some q => .ok q.instr
    | none => .reservedOp r.op

/-- The record of a request (R75), unused fields zero. -/
def recordOf : Request → ReqRecord
  | .openReq => ⟨0, 0, [], 0, 0⟩
  | .enable => ⟨1, 0, [], 0, 0⟩
  | .disable => ⟨2, 0, [], 0, 0⟩
  | .setSpeed f => ⟨3, 0, [], 0, f⟩
  | .getSpeed => ⟨4, 0, [], 0, 0⟩
  | .read a n => ⟨5, a, [], n, 0⟩
  | .write a d => ⟨6, a, d, 0, 0⟩
  | .writeAndRead a d n => ⟨7, a, d, n, 0⟩
  | .getCacheSize => ⟨8, 0, [], 0, 0⟩

/-- The encoder (R70, R72, R75). -/
def encode (c : Config) : Instr → Encoded
  | .start p => .cw (commandWord c .start p)
  | .waitAck p => .cw (commandWord c .waitAck p)
  | .waitAckStop p => .cw (commandWord c .waitAckStop p)
  | .sendAck p => .cw (commandWord c .sendAck p)
  | .sendNackStop p => .cw (commandWord c .sendNackStop p)
  | .configReset => .cfg c.cfgReset
  | .configEnable => .cfg c.cfgEnable
  | .openReq => .req (recordOf .openReq)
  | .enable => .req (recordOf .enable)
  | .disable => .req (recordOf .disable)
  | .setSpeed f => .req (recordOf (.setSpeed f))
  | .getSpeed => .req (recordOf .getSpeed)
  | .read a n => .req (recordOf (.read a n))
  | .write a d => .req (recordOf (.write a d))
  | .writeAndRead a d n => .req (recordOf (.writeAndRead a d n))
  | .getCacheSize => .req (recordOf .getCacheSize)

/-- Where a word of spec/opcode_table.json goes. 16 bits: the TX FIFO. 4 bits: a request with zero operands. 8 bits:
CONFIG; but since the table gives the requests 4 bits, which fill one byte, the values 2 to 8, which CONFIG reserves, are
read as the requests of that `op` (DESIGN CHOICE, log 18). -/
def tableForm (nbits w : Nat) : Encoded :=
  if nbits = 16 then .cw (BitVec.ofNat 16 w)
  else if nbits = 8 ∧ (w ≤ 1 ∨ 9 ≤ w) then .cfg (BitVec.ofNat 8 w)
  else .req ⟨BitVec.ofNat 4 w, 0, [], 0, 0⟩

/-- The instruction the decoder reads from a word of the opcode table, under the table's own parameter values. -/
def decodeTableWord (nbits w : Nat) : Option Instr := (decode Config.standard (tableForm nbits w)).toOption

end Sys2Proof
end

