-- ==== Sys2Proof/Machine/Flags.lean ====
section
/-! DEFINITION. The ack-flag byte and the response word (spec/30_encoding.md R71, 10 R22): the block's only flag. -/

namespace Sys2Proof.Machine

/-- The ack-flag byte: the bit `IS_NACK` says whether the acknowledge bit was a NACK, the other bits are drawn (R71). -/
def flagByte (mask : Byte) (nack : Bool) (draw : Byte) : Byte :=
  (draw &&& ~~~mask) ||| (if nack then mask else 0#8)

/-- Whether a flag byte reports a NACK; only the bit `IS_NACK` is tested (44 R171). -/
def isNackFlag (mask flag : Byte) : Bool := (flag &&& mask) != 0#8

/-- The response word `{ackflag, data}` (R71). -/
def responseWord (mask : Byte) (nack : Bool) (draw data : Byte) : Word :=
  joinBytes (flagByte mask nack draw) data

end Sys2Proof.Machine
end

