-- ==== Sys2Proof/Machine/State.lean ====
section
/-! DEFINITION. The state of one controller (spec/10_state.md R11 to R33), its faults (60 R214) and refusals (60 R215), and
the state after power-on reset (10 R33). CORE, the handle and the per-request state are the spec's; `Env` and `Log` are the
model's own (log 2, 3, 8, 15). -/

namespace Sys2Proof.Machine

/-- FREQ and `div_active` (R14, R20): a 32-bit value, or the spec's own state `unspecified` (20 R43, R44). -/
inductive Latched where
  | unspecified
  | known (v : BitVec 32)
  deriving DecidableEq, Repr

/-- The bus events of 41 R110. In `tx` and `rx`, `a` is the acknowledge bit: `false` ACK, `true` NACK. -/
inductive BusEvent where
  /-- `S`. -/
  | start
  /-- `Sr`. -/
  | restart
  /-- `TX(b, a)`. -/
  | tx (b : Byte) (a : Bool)
  /-- `RX(b, a)`. -/
  | rx (b : Byte) (a : Bool)
  /-- `P`. -/
  | stop
  /-- `ABORT`. -/
  | abort
  deriving DecidableEq, Repr

/-- The access widths of 00 R7. -/
inductive Width where
  | w8 | w16 | w32
  deriving DecidableEq, Repr

/-- A value carried by a register access, with its width. -/
inductive RegVal where
  | b8 (v : BitVec 8)
  | b16 (v : BitVec 16)
  | b32 (v : BitVec 32)
  deriving DecidableEq, Repr

/-- The seven registers (R11). -/
inductive Reg where
  | config | freq | txBuf | rxBuf | txCount | rxCount | bufSize
  deriving DecidableEq, Repr

/-- A register access at a byte offset of the window (20 R40, R41). -/
inductive Access where
  /-- `RegRead(off, w)`. -/
  | read (off : Nat) (w : Width)
  /-- `RegWrite(off, w, v)`. -/
  | write (off : Nat) (v : RegVal)
  /-- `read_incrementing`. -/
  | readIncrementing (off : Nat) (w : Width) (count : Nat)
  /-- `write_incrementing`. -/
  | writeIncrementing (off : Nat) (vs : List RegVal)
  deriving DecidableEq, Repr

/-- Who makes a register access: the front end for a requester, or a RAW host (00 R3). -/
inductive Actor where
  | fe (r : Nat)
  | raw
  deriving DecidableEq, Repr

/-- A register access that was made, with the value it carried. -/
inductive RegEvent where
  | read (who : Actor) (r : Reg) (v : RegVal)
  | write (who : Actor) (r : Reg) (v : RegVal)
  deriving DecidableEq, Repr

/-- The reasons of a ContractViolation (60 R201). -/
inductive Reason where
  | addressOutOfRange | zeroLengthWrite | readLengthOutOfRange | transferTooLong | speedOutOfRange
  deriving DecidableEq, Repr

/-- Which FIFO a BusBusy error names (60 R202, R203). -/
inductive Side where
  | send | receive
  deriving DecidableEq, Repr

/-- The errors that end a request (60 R200). -/
inductive Error where
  | contractViolation (why : Reason)
  | busBusy (side : Side)
  | timeout
  | nack (addr : BitVec 7)
  deriving DecidableEq, Repr

/-- What a requester receives: nothing, a speed in Hz, a cache size, bytes (30 R75), or an error (60 R200). -/
inductive Answer where
  | done
  | speed (hz : Nat)
  | size (words : Nat)
  | bytes (bs : List Byte)
  | error (e : Error)
  deriving DecidableEq, Repr

/-- Which extraction the decoder makes (44 R172 to R174); `writeAndRead` carries the write length `L`. -/
inductive Shape where
  | write
  | read
  | writeAndRead (wrLen : Nat)
  deriving DecidableEq, Repr

/-- One step of the front end (00 R3: one register access, one lock operation, or one pure computation). -/
inductive Act where
  /-- `RegWrite`. -/
  | regWrite (off : Nat) (v : RegVal)
  /-- `RegRead`; the value is kept in the job's `val`. -/
  | regRead (off : Nat) (w : Width)
  /-- `lock.acquire()`, 45 R187. -/
  | acquire
  /-- `lock.release()`, 45 R187. -/
  | release
  /-- Step 1 of `_transfer`, 43 R146. -/
  | checkLength
  /-- The test of steps 2 and 3 of `_transfer` on the value just read, 43 R147, R148. -/
  | checkEmpty (side : Side)
  /-- The tests of one poll round on the value just read, 43 R150 to R153. -/
  | poll
  /-- Flatten the response word just read, 43 R155. -/
  | collect
  /-- The range check of `set_speed`, 40 R96. -/
  | checkSpeed (freqHz : Int)
  /-- `cache_size <- c`, 70 R235. -/
  | setCacheSize
  /-- The call `set_speed(rate_hz)` of `open()`: `rate_hz` is read by this step, 70 R235. -/
  | callSetSpeed
  /-- `rate_hz <- freq_hz`, 40 R96. -/
  | setRate (freqHz : Int)
  /-- `opened <- 1`, 70 R235. -/
  | setOpened
  /-- Hand this answer to the requester. -/
  | answer (a : Answer)
  /-- Answer with the frequency of the divider just read, 40 R98. -/
  | answerSpeed
  /-- Answer with `cache_size`, 43 R160. -/
  | answerCacheSize
  /-- The scan and the extraction, 44 R171 to R174. -/
  | decodeResponse (addr : BitVec 7) (shape : Shape)
  deriving DecidableEq, Repr

/-- The per-request state of the front end (R31): one record for a requester whose request is outstanding. -/
structure Job where
  /-- The requester (45 R186). -/
  rid  : Nat
  /-- The request itself. -/
  req  : Request
  /-- The command-word sequence; `W` is its length. -/
  cw   : List Word
  /-- The value last read from a register. -/
  val  : RegVal
  /-- The raw response bytes. -/
  resp : List Byte
  /-- The front end's steps still to take. -/
  todo : List Act
  deriving DecidableEq, Repr

/-- A move of one of the agents of 00 R3. -/
inductive Move where
  /-- ENG's fetch step, 41 R112. -/
  | fetch
  /-- ENG's complete step, 41 R113, with BUS's answers, 41 R111. -/
  | complete (ack : Bool) (data : Byte)
  /-- The front end takes the next step of requester `r`'s request; `passed` is TIME's verdict, 43 R153. -/
  | fe (r : Nat) (passed : Bool)
  /-- A RAW host makes a register access, 20 R41. -/
  | raw (a : Access)
  /-- Requester `r` submits a request, 45 R186. -/
  | submit (r : Nat) (q : ReqRecord)
  deriving DecidableEq, Repr

/-- The state of CORE (R20). -/
structure CoreState where
  en        : Bool
  freq      : Latched
  divActive : Latched
  txq       : List Word
  rxq       : List Word
  cur       : Option Word
  busOwned  : Bool
  /-- The bus trace (R23): a history that no rule reads. -/
  trace     : List BusEvent
  deriving DecidableEq, Repr

/-- The handle (R30). -/
structure Handle where
  opened    : Bool
  /-- "none, or an integer 0 to 65535". -/
  cacheSize : Option (BitVec 16)
  rateHz    : Int
  /-- `none` free, `some i` held by requester `i` (45 R187). -/
  lock      : Option Nat
  deriving DecidableEq, Repr

/-- The model's inputs (log 2, 3, 8): what the agents and the environment will do, as plain data. -/
structure Env where
  /-- The moves to come, in the order they will be made. -/
  agenda  : List Move
  /-- The requester the request being executed comes from. -/
  client  : Nat
  /-- BUS's acknowledge bit for the complete step being taken: `false` ACK, `true` NACK. -/
  busAck  : Bool
  /-- BUS's byte for the complete step being taken. -/
  busData : Byte
  /-- How many draws this controller has made: an argument of the free values. -/
  draws   : Nat
  deriving DecidableEq, Repr

/-- The model's histories (log 15); no rule reads them. -/
structure Log where
  accesses : List RegEvent
  answers  : List (Nat × Answer)
  deriving DecidableEq, Repr

/-- The state of one controller. -/
structure State where
  /-- The identity of the register window, which names the controller (45 R185). -/
  ident  : Nat
  cfg    : Config
  core   : CoreState
  handle : Handle
  jobs   : List Job
  env    : Env
  log    : Log
  deriving DecidableEq, Repr

/-- The model-level faults of 60 R214. Each is safe: the machine stops where the hardware would do something unknown. -/
inductive Fault where
  /-- A TX_BUF write with `en = 1` and the TX FIFO full (20 R45). Safe. -/
  | txOverflow
  /-- An RX_BUF read with the RX FIFO empty (20 R46). Safe. -/
  | rxUnderflow
  /-- A word completed with the RX FIFO full (41 R123). Safe. -/
  | rxOverflow
  /-- A word completed whose opcode byte is none of the five (41 R120). Safe. -/
  | illegalOpcode (cw : Word)
  /-- A word other than START completed with the bus not owned (41 R121). Safe. -/
  | protocolOrder (cw : Word)
  /-- A CONFIG write of a reserved value (40 R93). Safe. -/
  | reservedConfig (v : Byte)
  deriving DecidableEq, Repr

/-- The refusals of 60 R215, each naming the thing refused. Each is safe: the model says nothing where the hardware does
something. -/
inductive Refusal where
  /-- The required constructor for an instruction without a meaning; raised by none: every instruction has one. Safe. -/
  | notModelled (mnemonic : String)
  /-- An access at an offset that is no register's (20 R53). Safe. -/
  | noSuchRegister (off : Nat)
  /-- An access at a width that is not the register's (20 R52). Safe. -/
  | wrongWidth (r : Reg) (w : Width)
  /-- A read of CONFIG or of TX_BUF (20 R53). Safe. -/
  | readOfWriteOnly (r : Reg)
  /-- A write of RX_BUF, TX_COUNT, RX_COUNT or BUF_SIZE (20 R53). Safe. -/
  | writeOfReadOnly (r : Reg)
  /-- `read_incrementing` or `write_incrementing` (20 R40, R53). Safe. -/
  | incrementing (off : Nat)
  /-- A request with `op` 9 to 15 (30 R75). Safe. -/
  | reservedOp (op : BitVec 4)
  /-- A transfer request or `get_cache_size` on a handle that is not opened (70 R236). Safe. -/
  | notOpened (q : Request)
  /-- `_transfer` of an empty sequence (43 R146); no request builds one. Safe. -/
  | emptyTransfer
  deriving DecidableEq, Repr

/-- The state after power-on reset (R33) of the controller of this identity with these parameters (00 R6): the core as RESET
leaves it, FREQ and `div_active` unspecified, the handle as constructed, with `rate_hz` the DEFAULT_RATE_HZ of the parameters.
DESIGN CHOICE (log 16): the model's own inputs empty or zero. -/
def State.powerOn (ident : Nat) (cfg : Config) : State where
  ident  := ident
  cfg    := cfg
  core   := { en := false, freq := .unspecified, divActive := .unspecified, txq := [], rxq := [], cur := none,
              busOwned := false, trace := [] }
  handle := { opened := false, cacheSize := none, rateHz := cfg.defaultRateHz, lock := none }
  jobs   := []
  env    := { agenda := [], client := 0, busAck := false, busData := 0#8, draws := 0 }
  log    := { accesses := [], answers := [] }

/-- The state after power-on reset that the host starts from. DESIGN CHOICE (log 1, 16): identity 0, and the parameters at
the spec's defaults. -/
def State.reset : State := State.powerOn 0 Config.standard

end Sys2Proof.Machine
end

