-- ==== Sys2Proof/Machine/Operands.lean ====
section
/-! DEFINITION. Operand forms: address byte (spec/30_encoding.md R76), dummy payload (R77), divider and frequency (40 R97,
R98), values of register accesses (30 R73), range checks of operands (42 R130 to R133, 40 R96). -/

namespace Sys2Proof.Machine

/-- An address in range 0 to 0x7F (42 R130). -/
def addrInRange (addr : Int) : Bool := 0 ≤ addr && addr ≤ 0x7F

/-- The 7-bit target address of an address in range. -/
def addr7 (addr : Int) : BitVec 7 := BitVec.ofInt 7 addr

/-- `addr << 1` = `{addr[6:0], 0}` (R76). -/
def writeAddrByte (a : BitVec 7) : Byte := a ++ 0#1

/-- `(addr << 1) | READ_FLAG` = `{addr[6:0], 1}` (R76). -/
def readAddrByte (a : BitVec 7) : Byte := a ++ 1#1

/-- `DUMMY_DATA` (R77). -/
def dummyData : Byte := 0x00#8

/-- `0 < freq_hz <= MAX_RATE` (40 R96). -/
def speedInRange (c : Config) (freqHz : Int) : Bool := 0 < freqHz && freqHz ≤ c.maxRate

/-- `0 < n <= cache_size` (42 R132, R133). -/
def lengthInRange (n : Int) (cacheSize : BitVec 16) : Bool := 0 < n && n ≤ cacheSize.toNat

/-- `D = floor(freq_hz * 8 * 2^32 / BUS_CLOCK_HZ)`, in unbounded integers (40 R97, R99). -/
def dividerNat (c : Config) (freqHz : Nat) : Nat := freqHz * 8 * 2 ^ 32 / c.busClockHz

/-- The divider as the 32-bit value written to FREQ (40 R97). -/
def divider (c : Config) (freqHz : Int) : BitVec 32 := BitVec.ofNat 32 (dividerNat c freqHz.toNat)

/-- `floor(D * BUS_CLOCK_HZ / (8 * 2^32))` (40 R98). -/
def speedOf (c : Config) (d : Nat) : Nat := d * c.busClockHz / (8 * 2 ^ 32)

/-- The width of a value. -/
def regValWidth : RegVal → Width
  | .b8 _ => .w8
  | .b16 _ => .w16
  | .b32 _ => .w32

/-- The value as an unsigned number (zero-extended, 40 R99). -/
def regValNat : RegVal → Nat
  | .b8 v => v.toNat
  | .b16 v => v.toNat
  | .b32 v => v.toNat

/-- Bits 15:0 of a value. -/
def regValWord : RegVal → Word
  | .b8 v => v.setWidth 16
  | .b16 v => v
  | .b32 v => v.setWidth 16

/-- The width of each register (10 R11). -/
def regWidth : Reg → Width
  | .config => .w8
  | .freq => .w32
  | .txBuf => .w16
  | .rxBuf => .w16
  | .txCount => .w8
  | .rxCount => .w8
  | .bufSize => .w16

/-- The offset of each register (10 R11). -/
def regOffset (c : Config) : Reg → Nat
  | .config => c.offConfig
  | .freq => c.offFreq
  | .txBuf => c.offTxBuf
  | .rxBuf => c.offRxBuf
  | .txCount => c.offTxCount
  | .rxCount => c.offRxCount
  | .bufSize => c.offBufSize

/-- The register at an offset: one of the seven base offsets, inside the window (20 R53, R55). -/
def regAt (c : Config) (off : Nat) : Option Reg :=
  if c.regSize ≤ off then none
  else if off = c.offConfig then some .config
  else if off = c.offFreq then some .freq
  else if off = c.offTxBuf then some .txBuf
  else if off = c.offRxBuf then some .rxBuf
  else if off = c.offTxCount then some .txCount
  else if off = c.offRxCount then some .rxCount
  else if off = c.offBufSize then some .bufSize
  else none

end Sys2Proof.Machine
end

