-- ==== Sys2Proof/Machine/Ops.lean ====
section
/-! DEFINITION. The named operations: the register accesses of spec/20_memory.md R40 to R53 on CORE, the pseudo-commands of
40 R91 to R93, ENG's fetch and the completion of a word (41 R112, R113), the lock (45 R187), the jobs of the front end
(10 R31), handing an answer to a requester and raising an error (60 R200, R208). -/

namespace Sys2Proof.Machine

/-- The outcome of an operation: a value, a fault or a refusal. -/
abbrev Res (α : Type) := Host.Outcome α Fault Refusal

/-- Go on with the value, or stop where the first operation stopped. -/
def andThen {α β : Type} (x : Res α) (f : α → Res β) : Res β :=
  match x with
  | .next a => f a
  | .fault e => .fault e
  | .refused e => .refused e

/-! ### Updates of the state -/

def State.setCore (s : State) (c : CoreState) : State := { s with core := c }

def State.setHandle (s : State) (h : Handle) : State := { s with handle := h }

def State.setLock (s : State) (l : Option Nat) : State := { s with handle := { s.handle with lock := l } }

def State.setJobs (s : State) (js : List Job) : State := { s with jobs := js }

def State.setAgenda (s : State) (ms : List Move) : State := { s with env := { s.env with agenda := ms } }

def State.setClient (s : State) (r : Nat) : State := { s with env := { s.env with client := r } }

/-- BUS's answers for the complete step about to be taken (41 R111). -/
def State.setBus (s : State) (ack : Bool) (data : Byte) : State :=
  { s with env := { s.env with busAck := ack, busData := data } }

/-- One draw more has been made. -/
def State.drawn (s : State) : State := { s with env := { s.env with draws := s.env.draws + 1 } }

def State.logAccess (s : State) (e : RegEvent) : State := { s with log := { s.log with accesses := s.log.accesses ++ [e] } }

def State.logAnswer (s : State) (r : Nat) (a : Answer) : State :=
  { s with log := { s.log with answers := s.log.answers ++ [(r, a)] } }

/-! ### CORE: the pseudo-commands and the register ports -/

/-- CONFIG<-RESET (40 R91). -/
def coreReset (c : CoreState) : CoreState :=
  { c with
    en := false, txq := [], rxq := [], cur := none, busOwned := false,
    trace := c.trace ++ (if c.cur.isSome || c.busOwned then [.abort] else []) }

/-- CONFIG<-ENABLE (40 R92). -/
def coreEnable (c : CoreState) : CoreState := { c with en := true }

/-- A CONFIG write (20 R42, 40 R91 to R93). -/
def coreConfig (cfg : Config) (v : Byte) (c : CoreState) : Res CoreState :=
  if v = cfg.cfgReset then .next (coreReset c)
  else if v = cfg.cfgEnable then .next (coreEnable c)
  else .fault (.reservedConfig v)

/-- A FREQ write (20 R44): latched only while the core is disabled. -/
def coreWriteFreq (v : BitVec 32) (c : CoreState) : CoreState :=
  if c.en then { c with freq := .unspecified, divActive := .unspecified }
  else { c with freq := .known v, divActive := .known v }

/-- A TX_BUF write (20 R45). -/
def corePushTx (cfg : Config) (w : Word) (c : CoreState) : Res CoreState :=
  if c.en = false then .next c
  else if c.txq.length = cfg.fifoDepth then .fault .txOverflow
  else .next { c with txq := c.txq ++ [w] }

/-- An RX_BUF read (20 R46). -/
def corePopRx (c : CoreState) : Res (RegVal × CoreState) :=
  match c.rxq with
  | [] => .fault .rxUnderflow
  | w :: ws => .next (.b16 w, { c with rxq := ws })

/-- A FREQ read (20 R43); `draw` is the value an unspecified FREQ shows. -/
def coreReadFreq (draw : BitVec 32) (c : CoreState) : RegVal :=
  match c.freq with
  | .known v => .b32 v
  | .unspecified => .b32 draw

/-- A read of a register at its own width (20 R43, R46 to R49, R53). -/
def coreRead (cfg : Config) (draw : BitVec 32) (r : Reg) (c : CoreState) : Res (RegVal × CoreState) :=
  match r with
  | .config => .refused (.readOfWriteOnly .config)
  | .freq => .next (coreReadFreq draw c, c)
  | .txBuf => .refused (.readOfWriteOnly .txBuf)
  | .rxBuf => corePopRx c
  | .txCount => .next (.b8 (BitVec.ofNat 8 c.txq.length), c)
  | .rxCount => .next (.b8 (BitVec.ofNat 8 c.rxq.length), c)
  | .bufSize => .next (.b16 (BitVec.ofNat 16 cfg.fifoDepth), c)

/-- The refusal of a write to a register that is not written (20 R53). DESIGN CHOICE (log 29): a wrong width names the
refusal before the direction does, as in `regRead`. -/
def refuseWrite (r : Reg) (v : RegVal) : Res CoreState :=
  if regValWidth v = regWidth r then .refused (.writeOfReadOnly r) else .refused (.wrongWidth r (regValWidth v))

/-- A write of a register (20 R42, R44, R45, R52, R53). -/
def coreWrite (cfg : Config) (r : Reg) (v : RegVal) (c : CoreState) : Res CoreState :=
  match r with
  | .config =>
    match v with
    | .b8 b => coreConfig cfg b c
    | .b16 _ => .refused (.wrongWidth .config .w16)
    | .b32 _ => .refused (.wrongWidth .config .w32)
  | .freq =>
    match v with
    | .b32 d => .next (coreWriteFreq d c)
    | .b8 _ => .refused (.wrongWidth .freq .w8)
    | .b16 _ => .refused (.wrongWidth .freq .w16)
  | .txBuf =>
    match v with
    | .b16 w => corePushTx cfg w c
    | .b8 _ => .refused (.wrongWidth .txBuf .w8)
    | .b32 _ => .refused (.wrongWidth .txBuf .w32)
  | .rxBuf => refuseWrite .rxBuf v
  | .txCount => refuseWrite .txCount v
  | .rxCount => refuseWrite .rxCount v
  | .bufSize => refuseWrite .bufSize v

/-- `RegRead(off, w)` (20 R41): one atomic step. DESIGN CHOICE (log 29): of an access with a wrong width and a wrong direction
(a read of CONFIG or TX_BUF) the width names the refusal. -/
def regRead (who : Actor) (off : Nat) (w : Width) (s : State) : Res (RegVal × State) :=
  match regAt s.cfg off with
  | none => .refused (.noSuchRegister off)
  | some r =>
    if regWidth r = w then
      andThen (coreRead s.cfg (Config.freeFreq s.ident s.env.draws) r s.core) fun x =>
        .next (x.1, ((s.setCore x.2).drawn).logAccess (.read who r x.1))
    else .refused (.wrongWidth r w)

/-- `RegWrite(off, w, v)` (20 R41): one atomic step. -/
def regWrite (who : Actor) (off : Nat) (v : RegVal) (s : State) : Res State :=
  match regAt s.cfg off with
  | none => .refused (.noSuchRegister off)
  | some r =>
    andThen (coreWrite s.cfg r v s.core) fun c => .next ((s.setCore c).logAccess (.write who r v))

/-- A register access by a RAW host (00 R3, 20 R41, R53). -/
def rawAccess (a : Access) (s : State) : Res State :=
  match a with
  | .read off w => andThen (regRead .raw off w s) fun x => .next x.2
  | .write off v => regWrite .raw off v s
  | .readIncrementing off _ _ => .refused (.incrementing off)
  | .writeIncrementing off _ => .refused (.incrementing off)

/-- `read_fixed(off, w, count)`: successive reads of one offset (20 R40); other agents' moves may fall between (R50). -/
def readFixed (off : Nat) (w : Width) (count : Nat) : List Access := List.replicate count (.read off w)

/-- `write_fixed(off, w, values)`: successive writes of one offset, in list order (20 R40). -/
def writeFixed (off : Nat) (vs : List RegVal) : List Access := vs.map (.write off)

/-! ### ENG -/

/-- ENG's fetch step (41 R112). A step that is not enabled is not taken. -/
def engFetch (s : State) : State :=
  if s.core.en && s.core.cur.isNone then
    match s.core.txq with
    | [] => s
    | w :: ws => s.setCore { s.core with cur := some w, txq := ws }
  else s

/-- The four yes-or-no properties of an opcode (30 R74). -/
structure ByteForm where
  startBefore : Bool
  receive     : Bool
  masterNack  : Bool
  stopAfter   : Bool
  deriving DecidableEq, Repr

/-- The bus events of one word (41 R114 to R118). -/
def wordEvents (f : ByteForm) (owned : Bool) (payload : Byte) (ack : Bool) (data : Byte) : List BusEvent :=
  (if f.startBefore then [if owned then .restart else .start] else []) ++
  [if f.receive then .rx data f.masterNack else .tx payload ack] ++
  (if f.stopAfter then [.stop] else [])

/-- The data byte of the response: the byte received, or the echo of the payload (41 R114, R117). -/
def wordData (f : ByteForm) (payload data : Byte) : Byte := if f.receive then data else payload

/-- The state after a word has completed (41 R113, last branch), with the response's `nack` bit. -/
def wordDone (f : ByteForm) (payload : Byte) (nack : Bool) (s : State) : State :=
  (s.setCore { s.core with
    trace := s.core.trace ++ wordEvents f s.core.busOwned payload s.env.busAck s.env.busData
    rxq := s.core.rxq ++
      [responseWord s.cfg.isNack nack (Config.freeFlags s.ident s.env.draws) (wordData f payload s.env.busData)]
    busOwned := !f.stopAfter
    cur := none }).drawn

/-- ENG's complete step on the word `w` in flight (41 R113); the opcode has been decoded. A step that is not enabled is not
taken (log 5, 7). -/
def completeWord (w : Word) (f : ByteForm) (payload : Byte) (nack : Bool) (s : State) : Res State :=
  if s.core.en = true ∧ s.core.cur = some w then
    if f.startBefore = false ∧ s.core.busOwned = false then .fault (.protocolOrder w)
    else if s.core.rxq.length = s.cfg.fifoDepth then .fault .rxOverflow
    else .next (wordDone f payload nack s)
  else .next s

/-! ### The front end: jobs, lock, answers, errors -/

/-- The outstanding request of requester `r`, if there is one (45 R186). -/
def findJob (r : Nat) (js : List Job) : Option Job := js.find? fun j => j.rid == r

/-- The outstanding requests of the others. -/
def dropJob (r : Nat) (js : List Job) : List Job := js.filter fun j => j.rid != r

/-- Whether requester `r` has a request outstanding. -/
def State.hasJob (s : State) (r : Nat) : Bool := (findJob r s.jobs).isSome

/-- Keep this as the requester's job. -/
def State.putJob (s : State) (j : Job) : State := s.setJobs (j :: dropJob j.rid s.jobs)

/-- Hand the answer to the requester; the per-request state is discarded (10 R31, 60 R200). -/
def deliver (r : Nat) (a : Answer) (s : State) : State := (s.setJobs (dropJob r s.jobs)).logAnswer r a

/-- `lock.acquire()` by the job's requester (45 R187): while the lock is held the requester waits. `j` is the job after
the step. -/
def acquireLock (j : Job) (s : State) : State :=
  match s.handle.lock with
  | none => (s.setLock (some j.rid)).putJob j
  | some _ => s

/-- `lock.release()` by the job's requester, who must hold it (45 R187). -/
def releaseLock (j : Job) (s : State) : State :=
  if s.handle.lock = some j.rid then (s.setLock none).putJob j else s

/-- The two CONFIG writes of `enable()` (40 R94). -/
def enableScript (c : Config) : List Act :=
  [.regWrite c.offConfig (.b8 c.cfgReset), .regWrite c.offConfig (.b8 c.cfgEnable)]

/-- Whether an error makes a recovery reset (60 R200, the table's column). -/
def Error.recovers : Error → Bool
  | .contractViolation _ => false
  | .busBusy _ => true
  | .timeout => true
  | .nack _ => false

/-- RAISING AN ERROR (60 R200, R208), the block's synchronous exception: what is left of the request is the recovery
`enable()` if the error makes one, the release of the lock if it is held, and the error itself. -/
def raiseScript (c : Config) (e : Error) (locked : Bool) : List Act :=
  (if e.recovers then enableScript c else []) ++ (if locked then [.release] else []) ++ [.answer (.error e)]

/-- The numeric code of an error (60 R200), for tables only. -/
def Error.code : Error → Nat
  | .contractViolation _ => 1
  | .busBusy .send => 2
  | .busBusy .receive => 3
  | .timeout => 4
  | .nack _ => 5

end Sys2Proof.Machine
end

