-- ==== Sys2Proof/Machine/ConfigCommands.lean ====
section
/-! DEFINITION. The meanings of the two CONFIG pseudo-commands (spec/40_config_and_clock.md R90 to R92): a RAW host's write
of CFG_RESET or CFG_ENABLE to CONFIG. The front end's own writes go through `regWrite`, which does the same to CORE. -/

namespace Sys2Proof.Machine

/-- CONFIG<-RESET (R91). -/
def execConfigReset (s : State) : Res State :=
  .next ((s.setCore (coreReset s.core)).logAccess (.write .raw .config (.b8 s.cfg.cfgReset)))

/-- CONFIG<-ENABLE (R92). -/
def execConfigEnable (s : State) : Res State :=
  .next ((s.setCore (coreEnable s.core)).logAccess (.write .raw .config (.b8 s.cfg.cfgEnable)))

end Sys2Proof.Machine
end

