-- ==== Sys2Proof/Machine/Encoder.lean ====
section
/-! DEFINITION. ENC, the command encoder (spec/42_command_encoder.md R131 to R133, R135): pure functions from a request to
its command words. -/

namespace Sys2Proof.Machine

/-- The data words of `write`: every byte but the last with WAIT_ACK, the last with WAIT_ACK_STOP (R131). -/
def writeTail (c : Config) : List Byte → List Word
  | [] => []
  | [b] => [commandWord c .waitAckStop b]
  | b :: b' :: bs => commandWord c .waitAck b :: writeTail c (b' :: bs)

/-- The receive words: `n - 1` times SEND_ACK, then SEND_NACK_STOP (R132). -/
def readTail (c : Config) (n : Nat) : List Word :=
  List.replicate (n - 1) (commandWord c .sendAck dummyData) ++ [commandWord c .sendNackStop dummyData]

/-- The words of `write(addr, data)` (R131). -/
def writeWords (c : Config) (a : BitVec 7) (data : List Byte) : List Word :=
  commandWord c .start (writeAddrByte a) :: writeTail c data

/-- The words of `read(addr, n)` (R132). -/
def readWords (c : Config) (a : BitVec 7) (n : Nat) : List Word :=
  commandWord c .start (readAddrByte a) :: readTail c n

/-- The words of `write_and_read(addr, wr_data, rd_len)` (R133). -/
def writeAndReadWords (c : Config) (a : BitVec 7) (data : List Byte) (rdLen : Nat) : List Word :=
  commandWord c .start (writeAddrByte a) :: data.map (commandWord c .waitAck) ++ readWords c a rdLen

end Sys2Proof.Machine
end

