-- ==== Sys2Proof/Machine/Responses.lean ====
section
/-! DEFINITION. The read-back's flattening (spec/43_transfer_engine.md R155) and DEC, the response decoder
(44_response_decoder.md R170 to R174): pure functions of the raw response bytes. -/

namespace Sys2Proof.Machine

/-- A response word flattened, "low byte first, then high byte" (43 R155). -/
def flatten (w : Word) : List Byte := [loByte w, hiByte w]

/-- Pair `k` is `(resp[2k], resp[2k+1])`: data byte, ack-flag byte (R170). -/
def pairsOf : List Byte → List (Byte × Byte)
  | [] => []
  | [_] => []
  | d :: f :: rest => (d, f) :: pairsOf rest

/-- Whether the scan of pairs `0` to `W - 2` meets a NACK (R171). -/
def scanFindsNack (mask : Byte) (resp : List Byte) (W : Nat) : Bool :=
  ((pairsOf resp).take (W - 1)).any fun p => isNackFlag mask p.2

/-- The data bytes of pairs `0` to `W - 1`. -/
def dataBytes (resp : List Byte) (W : Nat) : List Byte := ((pairsOf resp).take W).map Prod.fst

/-- `[resp[2k] for k = 1 .. W-1]` (R172). -/
def extractRead (resp : List Byte) (W : Nat) : List Byte := (dataBytes resp W).drop 1

/-- `response[::2][len(wr_data)+2:]` (R173). -/
def extractWrRd (resp : List Byte) (W L : Nat) : List Byte := (dataBytes resp W).drop (L + 2)

/-- The result of a request whose scan met no NACK (R172 to R174). -/
def extraction (shape : Shape) (resp : List Byte) (W : Nat) : Answer :=
  match shape with
  | .write => .done
  | .read => .bytes (extractRead resp W)
  | .writeAndRead L => .bytes (extractWrRd resp W L)

/-- DEC: the scan, then the extraction (R170). -/
def decodedAnswer (mask : Byte) (addr : BitVec 7) (shape : Shape) (resp : List Byte) (W : Nat) : Answer :=
  if scanFindsNack mask resp W then .error (.nack addr) else extraction shape resp W

end Sys2Proof.Machine
end

