-- ==== Sys2Proof/Machine/FrontEnd.lean ====
section
/-! DEFINITION. The front end: its scripts, each the list of steps the rule of a request gives in order, and its step
(spec/00_scope.md R3): one register access, one lock operation or one pure computation of one requester's request. The
steps of `_transfer` are 43_transfer_engine.md R145 to R156. -/

namespace Sys2Proof.Machine

/-! ### Scripts -/

/-- `disable()` (40 R95). -/
def disableScript (c : Config) : List Act := [.regWrite c.offConfig (.b8 c.cfgReset)]

/-- `set_speed(freq_hz)` (40 R96). -/
def setSpeedScript (c : Config) (freqHz : Int) : List Act :=
  [.checkSpeed freqHz] ++ disableScript c ++ [.regWrite c.offFreq (.b32 (divider c freqHz))] ++ enableScript c ++
    [.setRate freqHz]

/-- `open()` (70 R235). Its call of `set_speed` is one step, which the steps of `set_speed` follow. -/
def openScript (c : Config) : List Act :=
  [.regRead c.offBufSize .w16, .setCacheSize, .callSetSpeed, .setOpened, .answer .done]

/-- `get_speed()` (40 R98). -/
def getSpeedScript (c : Config) : List Act := [.regRead c.offFreq .w32, .answerSpeed]

/-- Step 4 of `_transfer`, the load (43 R149). -/
def loadScript (c : Config) (cw : List Word) : List Act := cw.map fun w => .regWrite c.offTxBuf (.b16 w)

/-- One round of the poll loop (43 R150). -/
def pollScript (c : Config) : List Act := [.regRead c.offRxCount .w8, .poll]

/-- Step 6 of `_transfer`, the read-back of `W` words (43 R155). -/
def readBackScript (c : Config) : Nat → List Act
  | 0 => []
  | W + 1 => .regRead c.offRxBuf .w16 :: .collect :: readBackScript c W

/-- `_transfer(cw)` (43 R145), then DEC (44 R170). -/
def transferScript (c : Config) (cw : List Word) (addr : BitVec 7) (shape : Shape) : List Act :=
  [.acquire, .checkLength, .regRead c.offTxCount .w8, .checkEmpty .send, .regRead c.offRxCount .w8,
    .checkEmpty .receive] ++
  loadScript c cw ++ pollScript c ++ readBackScript c cw.length ++ [.release, .decodeResponse addr shape]

/-! ### The step -/

/-- Take the step `a` of the request `j`, whose `todo` is what follows `a`. -/
def runAct (a : Act) (j : Job) (passed : Bool) (s : State) : Res State :=
  match a with
  | .regWrite off v => andThen (regWrite (.fe j.rid) off v s) fun t => .next (t.putJob j)
  | .regRead off w => andThen (regRead (.fe j.rid) off w s) fun x => .next (x.2.putJob { j with val := x.1 })
  | .acquire => .next (acquireLock j s)
  | .release => .next (releaseLock j s)
  | .checkLength =>
    match s.handle.cacheSize with
    | none => .refused (.notOpened j.req)
    | some n =>
      if j.cw = [] then .refused .emptyTransfer
      else if n.toNat < j.cw.length then
        .next (s.putJob { j with todo := raiseScript s.cfg (.contractViolation .transferTooLong) true })
      else .next (s.putJob j)
  | .checkEmpty side =>
    if regValNat j.val = 0 then .next (s.putJob j)
    else .next (s.putJob { j with todo := raiseScript s.cfg (.busBusy side) true })
  | .poll =>
    if regValNat j.val = j.cw.length then .next (s.putJob j)
    else if passed then .next (s.putJob { j with todo := raiseScript s.cfg .timeout true })
    else .next (s.putJob { j with todo := pollScript s.cfg ++ j.todo })
  | .collect => .next (s.putJob { j with resp := j.resp ++ flatten (regValWord j.val) })
  | .checkSpeed f =>
    if speedInRange s.cfg f then .next (s.putJob j)
    else .next (s.putJob { j with todo := raiseScript s.cfg (.contractViolation .speedOutOfRange) false })
  | .setCacheSize => .next ((s.setHandle { s.handle with cacheSize := some (regValWord j.val) }).putJob j)
  | .callSetSpeed => .next (s.putJob { j with todo := setSpeedScript s.cfg s.handle.rateHz ++ j.todo })
  | .setRate f => .next ((s.setHandle { s.handle with rateHz := f }).putJob j)
  | .setOpened => .next ((s.setHandle { s.handle with opened := true }).putJob j)
  | .answer x => .next (deliver j.rid x s)
  | .answerSpeed => .next (deliver j.rid (.speed (speedOf s.cfg (regValNat j.val))) s)
  | .answerCacheSize =>
    match s.handle.cacheSize with
    | none => .refused (.notOpened j.req)
    | some n => .next (deliver j.rid (.size n.toNat) s)
  | .decodeResponse addr shape =>
    .next (deliver j.rid (decodedAnswer s.cfg.isNack addr shape j.resp j.cw.length) s)

/-- The front end's step for requester `r`, with TIME's verdict `passed` (43 R153). With no request outstanding, or none of
its steps left, there is no step to take. -/
def feStep (r : Nat) (passed : Bool) (s : State) : Res State :=
  match findJob r s.jobs with
  | none => .next s
  | some j =>
    match j.todo with
    | [] => .next s
    | a :: rest => runAct a { j with todo := rest } passed s

end Sys2Proof.Machine
end

