-- ==== Sys2Proof/Machine/Plans.lean ====
section
/-! DEFINITION. What each request makes of the front end: its checks before any hardware access (spec/42_command_encoder.md
R130 to R133, 70 R236), its command words, and its script. -/

namespace Sys2Proof.Machine

/-- The command words and the script of a request. -/
structure Plan where
  cw   : List Word
  todo : List Act
  deriving DecidableEq, Repr

/-- The reason of a ContractViolation when of two checks the first, the second, both or none fail: which of two names the
reason is left open (42 R130, 93 U18; free value, log 11). -/
def failingReason (firstFails secondFails : Bool) (first second : Reason) (pickFirst : Bool) : Option Reason :=
  match firstFails, secondFails with
  | false, false => none
  | true, false => some first
  | false, true => some second
  | true, true => some (if pickFirst then first else second)

/-- The plan of a transfer: an error of the encoder's checks, raised without lock or hardware (60 R207), or `_transfer`. -/
def transferPlan (c : Config) (bad : Option Reason) (cw : List Word) (addr : Int) (shape : Shape) : Plan :=
  match bad with
  | some why => { cw := [], todo := raiseScript c (.contractViolation why) false }
  | none => { cw := cw, todo := transferScript c cw (addr7 addr) shape }

/-- `open()` (70 R235). -/
def planOpen (s : State) : Res Plan := .next { cw := [], todo := openScript s.cfg }

/-- `enable()` (40 R94). -/
def planEnable (s : State) : Res Plan := .next { cw := [], todo := enableScript s.cfg ++ [.answer .done] }

/-- `disable()` (40 R95). -/
def planDisable (s : State) : Res Plan := .next { cw := [], todo := disableScript s.cfg ++ [.answer .done] }

/-- `set_speed(freq_hz)` (40 R96). -/
def planSetSpeed (freqHz : Int) (s : State) : Res Plan :=
  .next { cw := [], todo := setSpeedScript s.cfg freqHz ++ [.answer .done] }

/-- `get_speed()` (40 R98). -/
def planGetSpeed (s : State) : Res Plan := .next { cw := [], todo := getSpeedScript s.cfg }

/-- `cache_size` of an opened handle; before `open()` the request is refused (70 R236). -/
def openedCacheSize (q : Request) (s : State) : Res (BitVec 16) :=
  if s.handle.opened then
    match s.handle.cacheSize with
    | some n => .next n
    | none => .refused (.notOpened q)
  else .refused (.notOpened q)

/-- `read(addr, n)` (42 R132). -/
def planRead (addr n : Int) (s : State) : Res Plan :=
  andThen (openedCacheSize (.read addr n) s) fun size =>
    .next (transferPlan s.cfg
      (failingReason (!addrInRange addr) (!lengthInRange n size) .addressOutOfRange .readLengthOutOfRange
        (Config.freeFirst s.ident s.env.draws))
      (readWords s.cfg (addr7 addr) n.toNat) addr .read)

/-- `write(addr, data)` (42 R131). -/
def planWrite (addr : Int) (data : List Byte) (s : State) : Res Plan :=
  andThen (openedCacheSize (.write addr data) s) fun _ =>
    .next (transferPlan s.cfg
      (failingReason (!addrInRange addr) data.isEmpty .addressOutOfRange .zeroLengthWrite
        (Config.freeFirst s.ident s.env.draws))
      (writeWords s.cfg (addr7 addr) data) addr .write)

/-- `write_and_read(addr, data, rd_len)` (42 R133). -/
def planWriteAndRead (addr : Int) (data : List Byte) (rdLen : Int) (s : State) : Res Plan :=
  andThen (openedCacheSize (.writeAndRead addr data rdLen) s) fun size =>
    .next (transferPlan s.cfg
      (failingReason (!addrInRange addr) (!lengthInRange rdLen size) .addressOutOfRange .readLengthOutOfRange
        (Config.freeFirst s.ident s.env.draws))
      (writeAndReadWords s.cfg (addr7 addr) data rdLen.toNat) addr (.writeAndRead data.length))

/-- `get_cache_size()` (43 R160): no register access, no lock. -/
def planGetCacheSize (s : State) : Res Plan :=
  andThen (openedCacheSize .getCacheSize s) fun _ => .next { cw := [], todo := [.answerCacheSize] }

/-- The plan of a request. -/
def planOf (q : Request) (s : State) : Res Plan :=
  match q with
  | .openReq => planOpen s
  | .enable => planEnable s
  | .disable => planDisable s
  | .setSpeed f => planSetSpeed f s
  | .getSpeed => planGetSpeed s
  | .read a n => planRead a n s
  | .write a d => planWrite a d s
  | .writeAndRead a d n => planWriteAndRead a d n s
  | .getCacheSize => planGetCacheSize s

/-- The request `q` of requester `r` begins with this plan: its per-request state is made (10 R31). -/
def launch (r : Nat) (q : Request) (p : Plan) (s : State) : State :=
  (s.putJob { rid := r, req := q, cw := p.cw, val := .b8 0#8, resp := [], todo := p.todo }).drawn

/-- Requester `r` submits the request `q` (45 R186); while its earlier request is outstanding it cannot, and no step is
taken. -/
def beginRequest (r : Nat) (q : Request) (s : State) : Res State :=
  if s.hasJob r then .next s else andThen (planOf q s) fun p => .next (launch r q p s)

end Sys2Proof.Machine
end

