-- ==== Sys2Proof/Machine/Words.lean ====
section
/-! DEFINITION. The meanings of the five command words (spec/41_command_words.md R114 to R118): ENG's complete step on that
word, which must be the word in flight (R113). -/

namespace Sys2Proof.Machine

/-- START (R114): START or repeated START, the byte sent, the acknowledge bit sampled, the bus kept. -/
def execStart (payload : Byte) (s : State) : Res State :=
  completeWord (commandWord s.cfg .start payload)
    { startBefore := true, receive := false, masterNack := false, stopAfter := false } payload s.env.busAck s

/-- WAIT_ACK (R115): the byte sent, the acknowledge bit sampled, the bus kept. -/
def execWaitAck (payload : Byte) (s : State) : Res State :=
  completeWord (commandWord s.cfg .waitAck payload)
    { startBefore := false, receive := false, masterNack := false, stopAfter := false } payload s.env.busAck s

/-- WAIT_ACK_STOP (R116): the byte sent, the acknowledge bit sampled, STOP, the bus released. -/
def execWaitAckStop (payload : Byte) (s : State) : Res State :=
  completeWord (commandWord s.cfg .waitAckStop payload)
    { startBefore := false, receive := false, masterNack := false, stopAfter := true } payload s.env.busAck s

/-- SEND_ACK (R117): a byte received and ACKed; the response's `nack` bit is 0; the payload is ignored. -/
def execSendAck (payload : Byte) (s : State) : Res State :=
  completeWord (commandWord s.cfg .sendAck payload)
    { startBefore := false, receive := true, masterNack := false, stopAfter := false } payload false s

/-- SEND_NACK_STOP (R118): a byte received and NACKed, STOP, the bus released; the response's `nack` bit is a free value
(log 9); the payload is ignored. -/
def execSendNackStop (payload : Byte) (s : State) : Res State :=
  completeWord (commandWord s.cfg .sendNackStop payload)
    { startBefore := false, receive := true, masterNack := true, stopAfter := true } payload
    (Config.freeNack s.ident s.env.draws) s

/-- The meaning of the word with this opcode. -/
def execWord (op : CwOp) (payload : Byte) (s : State) : Res State :=
  match op with
  | .start => execStart payload s
  | .waitAck => execWaitAck payload s
  | .waitAckStop => execWaitAckStop payload s
  | .sendAck => execSendAck payload s
  | .sendNackStop => execSendNackStop payload s

/-- ENG's complete step (R113): the word in flight is decoded and run; a reserved opcode faults (R120). A step that is not
enabled is not taken. -/
def engComplete (s : State) : Res State :=
  if s.core.en then
    match s.core.cur with
    | none => .next s
    | some w =>
      match opOfByte s.cfg (hiByte w) with
      | some op => execWord op (loByte w) s
      | none => .fault (.illegalOpcode w)
  else .next s

end Sys2Proof.Machine
end

