-- ==== Sys2Proof/Machine/Moves.lean ====
section
/-! DEFINITION. One atomic move of any agent (spec/00_scope.md R3, 20 R56), and the run of one request to its end among the
moves of the others. -/

namespace Sys2Proof.Machine

/-- One atomic move. A move that is not enabled is no step: the state stays (log 5). -/
def move (m : Move) (s : State) : Res State :=
  match m with
  | .fetch => .next (engFetch s)
  | .complete ack data => engComplete (s.setBus ack data)
  | .fe r passed => feStep r passed s
  | .raw a => rawAccess a s
  | .submit r q =>
    match requestOf q with
    | some req => beginRequest r req s
    | none => .refused (.reservedOp q.op)

/-- Requester `r`'s request goes on while no other agent moves, for at most `fuel` steps; TIME answers "passed" at the
first unsuccessful poll (43 R153; log 4). -/
def runAlone (r : Nat) : Nat → State → Res State
  | 0, s => .next s
  | fuel + 1, s =>
    if s.hasJob r then andThen (feStep r true s) (runAlone r fuel) else .next s

/-- The steps a step stands for: itself, and for the call of `set_speed` the six of `set_speed`. -/
@[simp] def Act.steps : Act → Nat
  | .callSetSpeed => 7
  | .regWrite _ _ => 1
  | .regRead _ _ => 1
  | .acquire => 1
  | .release => 1
  | .checkLength => 1
  | .checkEmpty _ => 1
  | .poll => 1
  | .collect => 1
  | .checkSpeed _ => 1
  | .setCacheSize => 1
  | .setRate _ => 1
  | .setOpened => 1
  | .answer _ => 1
  | .answerSpeed => 1
  | .answerCacheSize => 1
  | .decodeResponse _ _ => 1

/-- The steps of a script. -/
def scriptSteps : List Act → Nat
  | [] => 0
  | a :: rest => scriptSteps rest + a.steps

/-- Steps enough for the outstanding request of `r` to end alone: what is left of its script, or of its script up to a
check and then the longest error script (that it is enough is `runAlone_enough` of Laws/Requests.lean). -/
def aloneFuel (r : Nat) (s : State) : Nat :=
  match findJob r s.jobs with
  | none => 0
  | some j => scriptSteps j.todo + 4

/-- Whether a request has a step to take: it waits when the lock it is to take is held (45 R187), and a release is the
holder's (log 24). -/
def Job.canMove (lock : Option Nat) (j : Job) : Bool :=
  match j.todo with
  | [] => false
  | .acquire :: _ => lock.isNone
  | .release :: _ => lock == some j.rid
  | .regWrite _ _ :: _ => true
  | .regRead _ _ :: _ => true
  | .checkLength :: _ => true
  | .checkEmpty _ :: _ => true
  | .poll :: _ => true
  | .collect :: _ => true
  | .checkSpeed _ :: _ => true
  | .setCacheSize :: _ => true
  | .callSetSpeed :: _ => true
  | .setRate _ :: _ => true
  | .setOpened :: _ => true
  | .answer _ :: _ => true
  | .answerSpeed :: _ => true
  | .answerCacheSize :: _ => true
  | .decodeResponse _ _ :: _ => true

/-- The step of a controller whose agenda is exhausted: an outstanding request that can move takes its next step, with
TIME's verdict "passed", so that every transfer that holds the lock ends (43 R154). DESIGN CHOICE (log 4, 28): the order,
and that whoever waits for the lock gets it in the end; 45 R189 leaves open whether a waiter ever gets it and promises no
freedom from starvation. With no request outstanding nothing happens (10 R33). -/
def settle (s : State) : Res State :=
  match s.jobs.find? (Job.canMove s.handle.lock) with
  | none => .next s
  | some j => feStep j.rid true s

/-- Requester `r`'s request runs to its end: the moves of the agenda are made in order until the request is answered; when
none is left the request goes on alone. What is left of the agenda stays to be made (log 6). -/
def drive (r : Nat) : List Move → State → Res State
  | [], s => runAlone r (aloneFuel r s) s
  | m :: ms, s => if s.hasJob r then andThen (move m s) (drive r ms) else .next (s.setAgenda (m :: ms))

/-- The request `q` of the current client, with this plan, from its submission to its answer. -/
def runRequest (q : Request) (p : Res Plan) (s : State) : Res State :=
  if s.hasJob s.env.client then .next s
  else andThen p fun plan => drive s.env.client s.env.agenda ((launch s.env.client q plan s).setAgenda [])

end Sys2Proof.Machine
end

