-- ==== Sys2Proof/Machine/Requests.lean ====
section
/-! DEFINITION. The meanings of the nine front-end requests (spec/30_encoding.md R75): the whole request, from its submission
by the current client to its answer, with the moves the agenda puts between its steps (20 R50; log 6). -/

namespace Sys2Proof.Machine

/-- `open()` (70 R235). -/
def execOpen (s : State) : Res State := runRequest .openReq (planOpen s) s

/-- `enable()` (40 R94). -/
def execEnable (s : State) : Res State := runRequest .enable (planEnable s) s

/-- `disable()` (40 R95). -/
def execDisable (s : State) : Res State := runRequest .disable (planDisable s) s

/-- `set_speed(freq_hz)` (40 R96). -/
def execSetSpeed (freqHz : Int) (s : State) : Res State := runRequest (.setSpeed freqHz) (planSetSpeed freqHz s) s

/-- `get_speed()` (40 R98). -/
def execGetSpeed (s : State) : Res State := runRequest .getSpeed (planGetSpeed s) s

/-- `read(addr, n)` (42 R132). -/
def execRead (addr n : Int) (s : State) : Res State := runRequest (.read addr n) (planRead addr n s) s

/-- `write(addr, data)` (42 R131). -/
def execWrite (addr : Int) (data : List Byte) (s : State) : Res State :=
  runRequest (.write addr data) (planWrite addr data s) s

/-- `write_and_read(addr, data, rd_len)` (42 R133). -/
def execWriteAndRead (addr : Int) (data : List Byte) (rdLen : Int) (s : State) : Res State :=
  runRequest (.writeAndRead addr data rdLen) (planWriteAndRead addr data rdLen s) s

/-- `get_cache_size()` (43 R160). -/
def execGetCacheSize (s : State) : Res State := runRequest .getCacheSize (planGetCacheSize s) s

end Sys2Proof.Machine
end

