-- ==== Sys2Proof/Machine/Dispatch.lean ====
section
/-! DEFINITION. The execution of one instruction: one arm per constructor of `Instr`. -/

namespace Sys2Proof.Machine

def exec (i : Instr) (s : State) : Host.Outcome State Fault Refusal :=
  match i with
  | .start payload => Sys2Proof.Machine.execStart payload s
  | .waitAck payload => Sys2Proof.Machine.execWaitAck payload s
  | .waitAckStop payload => Sys2Proof.Machine.execWaitAckStop payload s
  | .sendAck payload => Sys2Proof.Machine.execSendAck payload s
  | .sendNackStop payload => Sys2Proof.Machine.execSendNackStop payload s
  | .configReset => Sys2Proof.Machine.execConfigReset s
  | .configEnable => Sys2Proof.Machine.execConfigEnable s
  | .openReq => Sys2Proof.Machine.execOpen s
  | .enable => Sys2Proof.Machine.execEnable s
  | .disable => Sys2Proof.Machine.execDisable s
  | .setSpeed freqHz => Sys2Proof.Machine.execSetSpeed freqHz s
  | .getSpeed => Sys2Proof.Machine.execGetSpeed s
  | .read addr n => Sys2Proof.Machine.execRead addr n s
  | .write addr data => Sys2Proof.Machine.execWrite addr data s
  | .writeAndRead addr data rdLen => Sys2Proof.Machine.execWriteAndRead addr data rdLen s
  | .getCacheSize => Sys2Proof.Machine.execGetCacheSize s

end Sys2Proof.Machine
end

