-- ==== Sys2Proof/Machine/Fetch.lean ====
section
/-! DEFINITION. What the next step of the machine is: the next move of the agenda, and where that move executes an
instruction, the instruction decoded. A command word is executed when ENG completes it (spec/41_command_words.md R113), a
pseudo-command when it is written to CONFIG (20 R42), a request when it is submitted (45 R186). -/

namespace Sys2Proof.Machine

/-- What the next step is: an instruction to execute in a state, or an outcome. -/
inductive Fetched where
  | instr (i : Instr) (s : State)
  | other (r : Res State)

/-- A reserved encoding, by the name of its fault or refusal (30 R79). -/
def decodedStep (d : Decoded) (s : State) : Fetched :=
  match d with
  | .ok i => .instr i s
  | .reservedOpcode w => .other (.fault (.illegalOpcode w))
  | .reservedConfig v => .other (.fault (.reservedConfig v))
  | .reservedOp op => .other (.refused (.reservedOp op))

/-- ENG's complete step as the execution of the word in flight (41 R113). -/
def fetchWordInFlight (s : State) : Fetched :=
  if s.core.en then
    match s.core.cur with
    | none => .other (.next s)
    | some w => decodedStep (decode s.cfg (.cw w)) s
  else .other (.next s)

/-- A RAW access: a byte written to CONFIG is executed as a pseudo-command (20 R42). -/
def fetchRaw (a : Access) (s : State) : Fetched :=
  match a with
  | .write off (.b8 v) =>
    if regAt s.cfg off = some .config then decodedStep (decode s.cfg (.cfg v)) s else .other (rawAccess a s)
  | .write _ (.b16 _) => .other (rawAccess a s)
  | .write _ (.b32 _) => .other (rawAccess a s)
  | .read _ _ => .other (rawAccess a s)
  | .readIncrementing _ _ _ => .other (rawAccess a s)
  | .writeIncrementing _ _ => .other (rawAccess a s)

/-- The next step. With no move left the outstanding requests go on (43 R154; log 28), and with none outstanding nothing happens
(10 R33: nothing runs until a host acts). -/
def fetchNext (s : State) : Fetched :=
  match s.env.agenda with
  | [] => .other (settle s)
  | m :: ms =>
    match m with
    | .fetch => .other (move .fetch (s.setAgenda ms))
    | .complete ack data => fetchWordInFlight ((s.setAgenda ms).setBus ack data)
    | .fe r passed => .other (move (.fe r passed) (s.setAgenda ms))
    | .raw a => fetchRaw a (s.setAgenda ms)
    | .submit r q => decodedStep (decode s.cfg (.req q)) ((s.setAgenda ms).setClient r)

/-- The move that brings an encoded instruction to the block. -/
def moveFor (s : State) : Encoded → Move
  | .cw _ => .complete s.env.busAck s.env.busData
  | .cfg v => .raw (.write s.cfg.offConfig (.b8 v))
  | .req r => .submit s.env.client r

/-- The state in which the very next step executes this encoded instruction: the move that brings it stands first in the
agenda, and a command word is in flight on an enabled core (log 17). -/
def placeEncoded (e : Encoded) (s : State) : State :=
  match e with
  | .cw w => (s.setAgenda (moveFor s e :: s.env.agenda)).setCore { s.core with en := true, cur := some w }
  | .cfg _ => s.setAgenda (moveFor s e :: s.env.agenda)
  | .req _ => s.setAgenda (moveFor s e :: s.env.agenda)

end Sys2Proof.Machine
end

