-- ==== Sys2Proof/Machine/Step.lean ====
section
/-! DEFINITION. The step of the machine: the next move of the agenda (log 2), executing an instruction where the move brings
one; and the host's placing of a table word where the step fetches it. -/

namespace Sys2Proof.Machine

/-- One step. -/
def step (s : State) : Host.Outcome State Fault Refusal :=
  match fetchNext s with
  | .instr i t => exec i t
  | .other r => r

/-- The state in which the next step executes the opcode table's word `w` (log 17, 18). -/
def State.withFetchWord (s : State) (nbits w : Nat) : State := placeEncoded (tableForm nbits w) s

end Sys2Proof.Machine
end

