-- ==== Sys2Proof/Machine/Platform.lean ====
section
/-! DEFINITION. Several controllers (spec/45_handle_arbiter.md R185, R191): one state, hence one handle and one lock, for
each identity of a register window. The registry's dictionary is out of the spec's scope (00 R5); what it guarantees, one
handle per identity, holds here by construction. -/

namespace Sys2Proof.Machine

/-- The controllers of a system. One that is listed has the parameters of its own state. -/
structure Platform where
  /-- The parameters (00 R6) of the controllers not listed. -/
  cfg  : Config
  /-- The controllers that have been used, each under the identity of its register window. -/
  used : List (Nat × State)
  deriving DecidableEq, Repr

/-- The controller of this identity; one that has not been used is in its power-on state. -/
def controllerAt (k : Nat) (p : Platform) : State :=
  match p.used.find? fun x => x.1 == k with
  | some x => { x.2 with ident := k }
  | none => State.powerOn k p.cfg

/-- The controller of this identity is in this state, the others as they were. -/
def setController (k : Nat) (s : State) (p : Platform) : Platform :=
  { p with used := (k, s) :: p.used.filter fun x => x.1 != k }

/-- One step of the controller of this identity. -/
def platformStep (k : Nat) (p : Platform) : Res Platform :=
  andThen (step (controllerAt k p)) fun t => .next (setController k t p)

end Sys2Proof.Machine
end

