-- ==== Sys2Proof/Safety.lean ====
section
/-! DEFINITION. The terms claims use: the marks of a run (spec/10_state.md R32, 60 R214, R215), the invariants of CORE
(10 R21) and of the lock (45 R187 to R190), the premises "no other agent moves", "the controller is idle", "the request
keeps its contract", and the schedule of a transfer that BUS and TIME let finish. -/

namespace Sys2Proof.Machine

/-! ### Marks -/

/-- A run with its marks, which stand beside the state (R32). -/
structure Marked where
  state   : State
  faulted : Option Fault
  refused : Option Refusal
  deriving DecidableEq, Repr

/-- The marks are clear after power-on reset (R33), of any controller with any parameters. -/
def Marked.powerOn (ident : Nat) (cfg : Config) : Marked :=
  { state := State.powerOn ident cfg, faulted := none, refused := none }

/-- The run that begins at State.reset. -/
def Marked.reset : Marked := Marked.powerOn 0 Config.standard

/-- No fault and no refusal recorded. -/
def Marked.clear (m : Marked) : Bool := m.faulted.isNone && m.refused.isNone

/-- One step of a run: a fault or a refusal is recorded and the state left as it was; a marked run takes no step. -/
def Marked.advance (m : Marked) : Marked :=
  if m.clear then
    match step m.state with
    | .next s => { m with state := s }
    | .fault f => { m with faulted := some f }
    | .refused r => { m with refused := some r }
  else m

/-- This many steps of the machine. -/
def runSteps : Nat → State → Res State
  | 0, s => .next s
  | n + 1, s => andThen (step s) (runSteps n)

/-! ### Invariants -/

/-- Items 1 and 2 of R21. -/
abbrev coreInv (c : Config) (k : CoreState) : Prop :=
  k.txq.length ≤ c.fifoDepth ∧ k.rxq.length ≤ c.fifoDepth ∧
  (k.en = false → k.txq = [] ∧ k.rxq = [] ∧ k.cur = none ∧ k.busOwned = false)

/-- What a step of the front end has to do with the lock. -/
inductive LockRole where
  /-- Takes the lock. -/
  | takes
  /-- Gives the lock back. -/
  | gives
  /-- Part of `_transfer` between the two: the accesses of the FIFO ports and counts, and the tests on them. -/
  | needs
  /-- Outside `_transfer` only. -/
  | outside
  /-- Ends the request, outside `_transfer` only. -/
  | ends
  /-- Anywhere: the CONFIG and FREQ writes of `enable()` and its like. -/
  | free
  deriving DecidableEq, Repr

/-- The registers only `_transfer` reaches for a requester (43 R147 to R155). -/
def transferReg : Reg → Bool
  | .config => false
  | .freq => false
  | .txBuf => true
  | .rxBuf => true
  | .txCount => true
  | .rxCount => true
  | .bufSize => false

/-- Whether the register at this offset is one of them. -/
def transferOffset (c : Config) (off : Nat) : Bool :=
  match regAt c off with
  | none => false
  | some r => transferReg r

/-- The role of each step. -/
def lockRole (c : Config) : Act → LockRole
  | .regWrite off _ => if transferOffset c off then .needs else .free
  | .regRead off _ => if transferOffset c off then .needs else .free
  | .acquire => .takes
  | .release => .gives
  | .checkLength => .needs
  | .checkEmpty _ => .needs
  | .poll => .needs
  | .collect => .needs
  | .checkSpeed _ => .outside
  | .setCacheSize => .free
  | .callSetSpeed => .outside
  | .setRate _ => .free
  | .setOpened => .free
  | .answer _ => .ends
  | .answerSpeed => .ends
  | .answerCacheSize => .ends
  | .decodeResponse _ _ => .ends

/-- A script that is followed from outside (`false`) or inside (`true`) the lock's region: what needs the lock stands
inside, the lock is given back once, and the request ends, outside. -/
def lockScript (c : Config) : Bool → List Act → Bool
  | _, [] => false
  | inside, a :: rest =>
    match lockRole c a with
    | .takes => !inside && lockScript c true rest
    | .gives => inside && lockScript c false rest
    | .needs => inside && lockScript c true rest
    | .outside => !inside && lockScript c false rest
    | .ends => !inside
    | .free => lockScript c inside rest

/-- The lock's invariant (R187, R189, R190): at most one job a requester, every job outside the lock's region or its holder
inside it, and the holder, if any, inside it. -/
abbrev lockInv (s : State) : Prop :=
  (s.jobs.map Job.rid).Nodup ∧
  (∀ j ∈ s.jobs,
    lockScript s.cfg false j.todo = true ∨ (lockScript s.cfg true j.todo = true ∧ s.handle.lock = some j.rid)) ∧
  (∀ r ∈ s.handle.lock, ∃ j ∈ s.jobs, j.rid = r ∧ lockScript s.cfg true j.todo = true)

/-! ### Premises -/

/-- The current client has no request outstanding (R186), and no move of another agent falls into its next one. -/
abbrev quiet (s : State) : Prop := s.env.agenda = [] ∧ s.hasJob s.env.client = false

/-- Enabled, FIFOs empty, nothing in flight, bus released: the state between transfers (43 R158). -/
abbrev coreIdle (k : CoreState) : Prop :=
  k.en = true ∧ k.txq = [] ∧ k.rxq = [] ∧ k.cur = none ∧ k.busOwned = false

/-- The three requests that transfer (45 R188). -/
def isTransfer : Request → Bool
  | .openReq => false
  | .enable => false
  | .disable => false
  | .setSpeed _ => false
  | .getSpeed => false
  | .read _ _ => true
  | .write _ _ => true
  | .writeAndRead _ _ _ => true
  | .getCacheSize => false

/-- The command words of a transfer request (42 R131 to R133). -/
def requestWords (c : Config) : Request → List Word
  | .openReq => []
  | .enable => []
  | .disable => []
  | .setSpeed _ => []
  | .getSpeed => []
  | .read a n => readWords c (addr7 a) n.toNat
  | .write a d => writeWords c (addr7 a) d
  | .writeAndRead a d n => writeAndReadWords c (addr7 a) d n.toNat
  | .getCacheSize => []

/-- A transfer request that passes the encoder's checks with this `cache_size` (42 R130 to R133). -/
def inContract (size : BitVec 16) : Request → Bool
  | .openReq => false
  | .enable => false
  | .disable => false
  | .setSpeed _ => false
  | .getSpeed => false
  | .read a n => addrInRange a && lengthInRange n size
  | .write a d => addrInRange a && !d.isEmpty
  | .writeAndRead a _ n => addrInRange a && lengthInRange n size
  | .getCacheSize => false

/-- An opened handle with a `cache_size`, and a transfer request that keeps its contract. -/
abbrev accepted (s : State) (q : Request) : Prop :=
  s.handle.opened = true ∧ ∃ n ∈ s.handle.cacheSize, inContract n q = true

/-- ... whose words also fit (43 R146), with a `cache_size` that is the FIFO depth (10 R30). -/
abbrev acceptedAndFits (s : State) (q : Request) : Prop :=
  s.handle.opened = true ∧ s.handle.cacheSize = some (BitVec.ofNat 16 s.cfg.fifoDepth) ∧
  inContract (BitVec.ofNat 16 s.cfg.fifoDepth) q = true ∧ (requestWords s.cfg q).length ≤ s.cfg.fifoDepth

/-- The moves with which the client's front end reaches the end of the load of `W` words: acquire, four steps of checks
with two reads, and the `W` writes (43 R145 to R149). -/
def loadMoves (r W : Nat) : List Move := List.replicate (6 + W) (.fe r false)

/-- ENG fetches and completes one word for each answer of BUS. -/
def engineMoves : List (Bool × Byte) → List Move
  | [] => []
  | (ack, data) :: rest => .fetch :: .complete ack data :: engineMoves rest

/-- A move of ENG, or of requester `r`'s own front end (with either verdict of TIME). -/
def Move.ownOrEngine (r : Nat) : Move → Bool
  | .fetch => true
  | .complete _ _ => true
  | .fe r' _ => r' == r
  | .raw _ => false
  | .submit _ _ => false

/-- The state after the current client's request has been answered: CORE, handle, number of draws, the accesses made and the
answer as given, everything else as before. -/
def State.answered (s : State) (k : CoreState) (h : Handle) (draws : Nat) (es : List RegEvent) (a : Answer) : State :=
  { s with
    core := k, handle := h, env := { s.env with draws := draws },
    log := { accesses := s.log.accesses ++ es, answers := s.log.answers ++ [(s.env.client, a)] } }

/-- The CORE state that `enable()`, and so a recovery, leaves (40 R94): enabled and emptied, FREQ and `div_active` kept,
`ABORT` in the trace if a word was in flight or the bus owned. -/
def recovered (k : CoreState) : CoreState :=
  { en := true, freq := k.freq, divActive := k.divActive, txq := [], rxq := [], cur := none, busOwned := false,
    trace := if k.cur.isSome || k.busOwned then k.trace ++ [.abort] else k.trace }

/-- The state after a word has completed (41 R113): these events in the trace, this response word pushed, the bus owned or
not, nothing in flight, one draw made, everything else as before. -/
def State.completed (s : State) (events : List BusEvent) (rw : Word) (owned : Bool) : State :=
  { s with
    core := { s.core with
      trace := s.core.trace ++ events, rxq := s.core.rxq ++ [rw], busOwned := owned, cur := none }
    env := { s.env with draws := s.env.draws + 1 } }

/-- The state after a RAW access: CORE as given, this access made, everything else but the count of draws as before. -/
def State.accessed (s : State) (k : CoreState) (draws : Nat) (e : RegEvent) : State :=
  { s with
    core := k, env := { s.env with draws := draws }, log := { s.log with accesses := s.log.accesses ++ [e] } }

/-- The events of the received bytes: ACKed by the master, the last one NACKed (42 R132). -/
def receiveEvents : List Byte → List BusEvent
  | [] => []
  | [b] => [.rx b true]
  | b :: b' :: bs => .rx b false :: receiveEvents (b' :: bs)

/-- Whether this reason holds of the request (60 R201, the first three rows). -/
def reasonHolds (size : BitVec 16) (q : Request) (why : Reason) : Bool :=
  match q with
  | .openReq => false
  | .enable => false
  | .disable => false
  | .setSpeed _ => false
  | .getSpeed => false
  | .read a n => (why == .addressOutOfRange && !addrInRange a) || (why == .readLengthOutOfRange && !lengthInRange n size)
  | .write a d => (why == .addressOutOfRange && !addrInRange a) || (why == .zeroLengthWrite && d.isEmpty)
  | .writeAndRead a _ n =>
    (why == .addressOutOfRange && !addrInRange a) || (why == .readLengthOutOfRange && !lengthInRange n size)
  | .getCacheSize => false

/-- Which register an access reached. -/
def eventReg : RegEvent → Reg
  | .read _ r _ => r
  | .write _ r _ => r

/-- How many words CORE holds: queued, in flight, and answered but not yet read (10 R21 item 3). -/
def wordsHeld (k : CoreState) : Nat := k.txq.length + (if k.cur.isSome then 1 else 0) + k.rxq.length

/-- How many reads of RX_BUF there are among the accesses. -/
def rxReads (es : List RegEvent) : Nat :=
  (es.filter fun e => match e with
    | .read _ r _ => r == .rxBuf
    | .write _ _ _ => false).length

/-- Whether CONFIG was written among the accesses. -/
def configWritten (es : List RegEvent) : Bool :=
  es.any fun e => match e with
    | .read _ _ _ => false
    | .write _ r _ => r == .config

/-- The command words among the accesses: the values written to TX_BUF, in order. -/
def txWrites : List RegEvent → List RegVal
  | [] => []
  | .write _ .txBuf v :: es => v :: txWrites es
  | .write _ .config _ :: es => txWrites es
  | .write _ .freq _ :: es => txWrites es
  | .write _ .rxBuf _ :: es => txWrites es
  | .write _ .txCount _ :: es => txWrites es
  | .write _ .rxCount _ :: es => txWrites es
  | .write _ .bufSize _ :: es => txWrites es
  | .read _ _ _ :: es => txWrites es

end Sys2Proof.Machine
end

