-- ==== Sys2Proof/Certificates/Slice0/Obligations.lean ====
section
/-! DEFINITION. The statements for the provers, each from the numbered rules of spec/. -/

open Sys2Proof Sys2Proof.Machine

/-! ### Encodings -/

/-- 30 R70, R72, R74, R75 and 95 V1 to V5: words written out from the encodings decode to the instructions they stand for. -/
def Obligations.SpecWordsDecode : Prop :=
  decode Config.standard (.cw 0x80A1#16) = .ok (.start 0xA1#8) ∧
  decode Config.standard (.cw 0x0001#16) = .ok (.waitAck 0x01#8) ∧
  decode Config.standard (.cw 0x40FF#16) = .ok (.waitAckStop 0xFF#8) ∧
  decode Config.standard (.cw 0x2000#16) = .ok (.sendAck 0x00#8) ∧
  decode Config.standard (.cw 0x7000#16) = .ok (.sendNackStop 0x00#8) ∧
  decode Config.standard (.cfg 0x00#8) = .ok .configReset ∧
  decode Config.standard (.cfg 0x01#8) = .ok .configEnable ∧
  decode Config.standard (.req ⟨6#4, 0x50, [1#8, 2#8], 0, 0⟩) = .ok (.write 0x50 [1#8, 2#8])

/-- 30 R70, R72, R75: decoding the encoding of any instruction gives it back, with every operand. -/
def Obligations.DecodeOfEncode : Prop :=
  ∀ (c : Config) (i : Instr), c.WF → decode c (encode c i) = .ok i

/-- 30 R70, R72, R75: each encoded form the spec gives a meaning is the encoding of what it decodes to. -/
def Obligations.EncodeOfDecode : Prop :=
  ∀ (c : Config) (e : Encoded) (i : Instr), e.wellFormed c = true → decode c e = .ok i → encode c i = e

/-- 30 R79: exactly the reserved encodings are rejected, each by its own name. -/
def Obligations.ReservedEncodingsRejected : Prop :=
  ∀ c : Config,
    (∀ w : Word, decode c (.cw w) = .reservedOpcode w ↔ hiByte w ∉ c.opcodes) ∧
    (∀ v : Byte, decode c (.cfg v) = .reservedConfig v ↔ v ≠ c.cfgReset ∧ v ≠ c.cfgEnable) ∧
    (∀ r : ReqRecord, decode c (.req r) = .reservedOp r.op ↔ 9 ≤ r.op.toNat)

/-! ### A step runs the decoded instruction -/

/-- A step runs what it decodes: the word in flight at ENG's complete step, the byte a RAW host writes to CONFIG, the
request a requester submits. The step adds only the move's own inputs: the rest of the agenda, BUS's answers, the client. -/
def Obligations.StepRunsDecodedInstruction : Prop :=
  ∀ (s : State) (ms : List Move) (i : Instr),
    (∀ ack data w, s.env.agenda = .complete ack data :: ms → s.core.en = true → s.core.cur = some w →
      decode s.cfg (.cw w) = .ok i → step s = exec i ((s.setAgenda ms).setBus ack data)) ∧
    (∀ off v, s.env.agenda = .raw (.write off (.b8 v)) :: ms → regAt s.cfg off = some .config →
      decode s.cfg (.cfg v) = .ok i → step s = exec i (s.setAgenda ms)) ∧
    (∀ r q, s.env.agenda = .submit r q :: ms →
      decode s.cfg (.req q) = .ok i → step s = exec i ((s.setAgenda ms).setClient r))

/-- The other steps: ENG's fetch, the front end's steps and the RAW accesses are the moves themselves; with no move left an
outstanding request that can move takes its next step, and with none nothing happens (the model's choice, log 2, 28). -/
def Obligations.StepMakesTheOtherMoves : Prop :=
  ∀ (s : State) (ms : List Move),
    (∀ j, s.env.agenda = [] → s.jobs.find? (Job.canMove s.handle.lock) = some j → step s = feStep j.rid true s) ∧
    (s.env.agenda = [] → (∀ j ∈ s.jobs, j.canMove s.handle.lock = false) → step s = .next s) ∧
    (s.env.agenda = .fetch :: ms → step s = .next (engFetch (s.setAgenda ms))) ∧
    (∀ r passed, s.env.agenda = .fe r passed :: ms → step s = feStep r passed (s.setAgenda ms)) ∧
    (∀ off w, s.env.agenda = .raw (.read off w) :: ms → step s = rawAccess (.read off w) (s.setAgenda ms)) ∧
    (∀ off v, s.env.agenda = .raw (.write off v) :: ms → regAt s.cfg off ≠ some .config →
      step s = rawAccess (.write off v) (s.setAgenda ms))

/-- 41 R120, 40 R93, 60 R215: a step that meets a reserved encoding stops under its name. -/
def Obligations.StepStopsOnReservedEncodings : Prop :=
  ∀ (s : State) (ms : List Move),
    (∀ ack data w, s.env.agenda = .complete ack data :: ms → s.core.en = true → s.core.cur = some w →
      hiByte w ∉ s.cfg.opcodes → step s = .fault (.illegalOpcode w)) ∧
    (∀ off v, s.env.agenda = .raw (.write off (.b8 v)) :: ms → regAt s.cfg off = some .config →
      v ≠ s.cfg.cfgReset → v ≠ s.cfg.cfgEnable → step s = .fault (.reservedConfig v)) ∧
    (∀ r q, s.env.agenda = .submit r q :: ms → 9 ≤ q.op.toNat → step s = .refused (.reservedOp q.op))

/-- ENG's complete step, wherever it falls between the steps of a request, is the execution of the decoded word. -/
def Obligations.EngineRunsTheSameMeaning : Prop :=
  ∀ (s : State) (w : Word) (i : Instr),
    s.core.en = true → s.core.cur = some w → decode s.cfg (.cw w) = .ok i → engComplete s = exec i s

/-- 20 R42: a RAW host's write of a CONFIG byte, wherever it falls between the steps of a request, is the execution of the
decoded pseudo-command. -/
def Obligations.RawConfigWriteRunsTheSameMeaning : Prop :=
  ∀ (s : State) (off : Nat) (v : Byte) (i : Instr),
    regAt s.cfg off = some .config → decode s.cfg (.cfg v) = .ok i → rawAccess (.write off (.b8 v)) s = exec i s

/-! ### The command words -/

/-- 41 R114: START. -/
def Obligations.StartResult : Prop :=
  ∀ (s : State) (pl : Byte), s.cfg.WF → s.core.en = true → s.core.cur = some (commandWord s.cfg .start pl) →
    s.core.rxq.length ≠ s.cfg.fifoDepth →
    ∃ rw : Word, loByte rw = pl ∧ isNackFlag s.cfg.isNack (hiByte rw) = s.env.busAck ∧
      exec (.start pl) s =
        .next (s.completed [if s.core.busOwned then .restart else .start, .tx pl s.env.busAck] rw true)

/-- 41 R115: WAIT_ACK. -/
def Obligations.WaitAckResult : Prop :=
  ∀ (s : State) (pl : Byte), s.cfg.WF → s.core.en = true → s.core.cur = some (commandWord s.cfg .waitAck pl) →
    s.core.busOwned = true → s.core.rxq.length ≠ s.cfg.fifoDepth →
    ∃ rw : Word, loByte rw = pl ∧ isNackFlag s.cfg.isNack (hiByte rw) = s.env.busAck ∧
      exec (.waitAck pl) s = .next (s.completed [.tx pl s.env.busAck] rw true)

/-- 41 R116: WAIT_ACK_STOP. -/
def Obligations.WaitAckStopResult : Prop :=
  ∀ (s : State) (pl : Byte), s.cfg.WF → s.core.en = true → s.core.cur = some (commandWord s.cfg .waitAckStop pl) →
    s.core.busOwned = true → s.core.rxq.length ≠ s.cfg.fifoDepth →
    ∃ rw : Word, loByte rw = pl ∧ isNackFlag s.cfg.isNack (hiByte rw) = s.env.busAck ∧
      exec (.waitAckStop pl) s = .next (s.completed [.tx pl s.env.busAck, .stop] rw false)

/-- 41 R117: SEND_ACK; the payload is ignored. -/
def Obligations.SendAckResult : Prop :=
  ∀ (s : State) (pl : Byte), s.cfg.WF → s.core.en = true → s.core.cur = some (commandWord s.cfg .sendAck pl) →
    s.core.busOwned = true → s.core.rxq.length ≠ s.cfg.fifoDepth →
    ∃ rw : Word, loByte rw = s.env.busData ∧ isNackFlag s.cfg.isNack (hiByte rw) = false ∧
      exec (.sendAck pl) s = .next (s.completed [.rx s.env.busData false] rw true)

/-- 41 R118: SEND_NACK_STOP; the payload is ignored and the response's flags are left open. -/
def Obligations.SendNackStopResult : Prop :=
  ∀ (s : State) (pl : Byte), s.core.en = true → s.core.cur = some (commandWord s.cfg .sendNackStop pl) →
    s.core.busOwned = true → s.core.rxq.length ≠ s.cfg.fifoDepth →
    ∃ rw : Word, loByte rw = s.env.busData ∧
      exec (.sendNackStop pl) s = .next (s.completed [.rx s.env.busData true, .stop] rw false)

/-- 41 R121: a word other than START that completes with the bus not owned. -/
def Obligations.WordOutOfFrameFaults : Prop :=
  ∀ (s : State) (op : CwOp) (pl : Byte), op ≠ .start → s.core.en = true →
    s.core.cur = some (commandWord s.cfg op pl) → s.core.busOwned = false →
    exec (op.instr pl) s = .fault (.protocolOrder (commandWord s.cfg op pl))

/-- 41 R123: any word that completes, in frame, with the RX FIFO full. -/
def Obligations.RxFifoFullFaults : Prop :=
  ∀ (s : State) (op : CwOp) (pl : Byte), s.core.en = true → s.core.cur = some (commandWord s.cfg op pl) →
    (op = .start ∨ s.core.busOwned = true) → s.core.rxq.length = s.cfg.fifoDepth →
    exec (op.instr pl) s = .fault .rxOverflow

/-- 41 R113 and the model's choice (log 7): a word that is not in flight on an enabled core is not completed. -/
def Obligations.WordNotInFlightWaits : Prop :=
  ∀ (s : State) (op : CwOp) (pl : Byte),
    s.core.en = false ∨ s.core.cur ≠ some (commandWord s.cfg op pl) → exec (op.instr pl) s = .next s

/-- 41 R112: ENG's fetch. -/
def Obligations.FetchTakesTheOldestWord : Prop :=
  ∀ (s : State),
    (∀ w ws, s.core.en = true → s.core.cur = none → s.core.txq = w :: ws →
      move .fetch s = .next { s with core := { s.core with cur := some w, txq := ws } }) ∧
    (s.core.en = false ∨ s.core.cur ≠ none ∨ s.core.txq = [] → move .fetch s = .next s)

/-! ### CONFIG -/

/-- 40 R91: CONFIG<-RESET. -/
def Obligations.ConfigResetResult : Prop :=
  ∀ s : State, exec .configReset s =
    .next (s.accessed
      { s.core with
        en := false, txq := [], rxq := [], cur := none, busOwned := false
        trace := if s.core.cur.isSome || s.core.busOwned then s.core.trace ++ [.abort] else s.core.trace }
      s.env.draws (.write .raw .config (.b8 s.cfg.cfgReset)))

/-- 40 R92: CONFIG<-ENABLE. -/
def Obligations.ConfigEnableResult : Prop :=
  ∀ s : State, exec .configEnable s =
    .next (s.accessed { s.core with en := true } s.env.draws (.write .raw .config (.b8 s.cfg.cfgEnable)))

/-! ### Register accesses -/

/-- 20 R43, R47 to R49: the reads that change no CORE state, and what they return. -/
def Obligations.ReadsThatChangeNothing : Prop :=
  ∀ s : State, s.cfg.WF → coreInv s.cfg s.core →
    (∃ n : BitVec 8, n.toNat = s.core.txq.length ∧
      move (.raw (.read s.cfg.offTxCount .w8)) s =
        .next (s.accessed s.core (s.env.draws + 1) (.read .raw .txCount (.b8 n)))) ∧
    (∃ n : BitVec 8, n.toNat = s.core.rxq.length ∧
      move (.raw (.read s.cfg.offRxCount .w8)) s =
        .next (s.accessed s.core (s.env.draws + 1) (.read .raw .rxCount (.b8 n)))) ∧
    (∃ n : BitVec 16, n.toNat = s.cfg.fifoDepth ∧
      move (.raw (.read s.cfg.offBufSize .w16)) s =
        .next (s.accessed s.core (s.env.draws + 1) (.read .raw .bufSize (.b16 n)))) ∧
    (∃ v : BitVec 32, (∀ d, s.core.freq = .known d → v = d) ∧
      move (.raw (.read s.cfg.offFreq .w32)) s =
        .next (s.accessed s.core (s.env.draws + 1) (.read .raw .freq (.b32 v))))

/-- 20 R44: a FREQ write. -/
def Obligations.FreqWriteLatches : Prop :=
  ∀ (s : State) (v : BitVec 32), s.cfg.WF →
    (s.core.en = false → move (.raw (.write s.cfg.offFreq (.b32 v))) s =
      .next (s.accessed { s.core with freq := .known v, divActive := .known v } s.env.draws
        (.write .raw .freq (.b32 v)))) ∧
    (s.core.en = true → move (.raw (.write s.cfg.offFreq (.b32 v))) s =
      .next (s.accessed { s.core with freq := .unspecified, divActive := .unspecified } s.env.draws
        (.write .raw .freq (.b32 v))))

/-- 20 R45: a TX_BUF write: discarded while disabled, a fault when the FIFO is full, pushed as written otherwise. -/
def Obligations.TxBufWritePushes : Prop :=
  ∀ (s : State) (w : Word), s.cfg.WF →
    (s.core.en = false → move (.raw (.write s.cfg.offTxBuf (.b16 w))) s =
      .next (s.accessed s.core s.env.draws (.write .raw .txBuf (.b16 w)))) ∧
    (s.core.en = true → s.core.txq.length = s.cfg.fifoDepth →
      move (.raw (.write s.cfg.offTxBuf (.b16 w))) s = .fault .txOverflow) ∧
    (s.core.en = true → s.core.txq.length ≠ s.cfg.fifoDepth →
      move (.raw (.write s.cfg.offTxBuf (.b16 w))) s =
        .next (s.accessed { s.core with txq := s.core.txq ++ [w] } s.env.draws (.write .raw .txBuf (.b16 w))))

/-- 20 R46: an RX_BUF read takes the head, and faults on an empty FIFO. -/
def Obligations.RxBufReadPops : Prop :=
  ∀ s : State, s.cfg.WF →
    (s.core.rxq = [] → move (.raw (.read s.cfg.offRxBuf .w16)) s = .fault .rxUnderflow) ∧
    (∀ w ws, s.core.rxq = w :: ws → move (.raw (.read s.cfg.offRxBuf .w16)) s =
      .next (s.accessed { s.core with rxq := ws } (s.env.draws + 1) (.read .raw .rxBuf (.b16 w))))

/-- 20 R52, R53: every access outside the rows of 20 R54 is refused. -/
def Obligations.OtherAccessesRefused : Prop :=
  ∀ s : State, s.cfg.WF →
    (∀ off w, (∀ r ∈ [Reg.freq, .rxBuf, .txCount, .rxCount, .bufSize], ¬(off = regOffset s.cfg r ∧ w = regWidth r)) →
      ∃ why, move (.raw (.read off w)) s = .refused why) ∧
    (∀ off v, (∀ r ∈ [Reg.config, .freq, .txBuf], ¬(off = regOffset s.cfg r ∧ regValWidth v = regWidth r)) →
      ∃ why, move (.raw (.write off v)) s = .refused why) ∧
    (∀ off w n, move (.raw (.readIncrementing off w n)) s = .refused (.incrementing off)) ∧
    (∀ off vs, move (.raw (.writeIncrementing off vs)) s = .refused (.incrementing off))

/-! ### Requests without a transfer -/

/-- 40 R94: `enable()`. -/
def Obligations.EnableResult : Prop :=
  ∀ s : State, s.cfg.WF → quiet s →
    exec .enable s = .next (s.answered (recovered s.core) s.handle (s.env.draws + 1)
      [.write (.fe s.env.client) .config (.b8 s.cfg.cfgReset), .write (.fe s.env.client) .config (.b8 s.cfg.cfgEnable)]
      .done)

/-- 40 R95: `disable()`. -/
def Obligations.DisableResult : Prop :=
  ∀ s : State, s.cfg.WF → quiet s →
    exec .disable s = .next (s.answered { recovered s.core with en := false } s.handle (s.env.draws + 1)
      [.write (.fe s.env.client) .config (.b8 s.cfg.cfgReset)] .done)

/-- 40 R101: `enable()` twice leaves the CORE that `enable()` once leaves, and so does `disable()`; neither returns a value
or raises an error. -/
def Obligations.EnableAndDisableIdempotent : Prop :=
  ∀ (s : State) (i : Instr), s.cfg.WF → quiet s → (i = .enable ∨ i = .disable) →
    ∃ t u, exec i s = .next t ∧ exec i t = .next u ∧ u.core = t.core ∧ u.handle = t.handle ∧
      u.log.answers = s.log.answers ++ [(s.env.client, .done), (s.env.client, .done)]

/-- 40 R96, R97: `set_speed(freq_hz)` in range. -/
def Obligations.SetSpeedResult : Prop :=
  ∀ (s : State) (f : Nat), s.cfg.WF → quiet s → 0 < f → f ≤ s.cfg.maxRate →
    ∃ d : BitVec 32, d.toNat = f * 8 * 2 ^ 32 / s.cfg.busClockHz ∧
      exec (.setSpeed f) s = .next (s.answered
        { recovered s.core with freq := .known d, divActive := .known d } { s.handle with rateHz := f }
        (s.env.draws + 1)
        [.write (.fe s.env.client) .config (.b8 s.cfg.cfgReset), .write (.fe s.env.client) .freq (.b32 d),
         .write (.fe s.env.client) .config (.b8 s.cfg.cfgReset), .write (.fe s.env.client) .config (.b8 s.cfg.cfgEnable)]
        .done)

/-- 40 R96, 60 R201: `set_speed(freq_hz)` out of range touches nothing. -/
def Obligations.SetSpeedOutOfRangeRaises : Prop :=
  ∀ (s : State) (f : Int), quiet s → (f ≤ 0 ∨ s.cfg.maxRate < f) →
    exec (.setSpeed f) s = .next (s.answered s.core s.handle (s.env.draws + 1) []
      (.error (.contractViolation .speedOutOfRange)))

/-- 40 R98: `get_speed()`; with FREQ unspecified it answers a speed computed from whatever the register shows. -/
def Obligations.GetSpeedResult : Prop :=
  ∀ s : State, s.cfg.WF → quiet s →
    ∃ v : BitVec 32, (∀ d, s.core.freq = .known d → v = d) ∧
      exec .getSpeed s = .next (s.answered s.core s.handle (s.env.draws + 2)
        [.read (.fe s.env.client) .freq (.b32 v)] (.speed (v.toNat * s.cfg.busClockHz / (8 * 2 ^ 32))))

/-- 40 R100: the round trip of `set_speed` then `get_speed`. -/
def Obligations.SpeedRoundTrip : Prop :=
  ∀ (s : State) (f : Nat), s.cfg.WF → quiet s → 0 < f → f ≤ s.cfg.maxRate →
    ∃ t u g, exec (.setSpeed f) s = .next t ∧ exec .getSpeed t = .next u ∧
      u.log.answers = s.log.answers ++ [(s.env.client, .done), (s.env.client, .speed g)] ∧
      f - 1 ≤ g ∧ g ≤ f ∧ (g = f ↔ s.cfg.busClockHz ∣ f * 2 ^ 35) ∧ (s.cfg = Config.standard → g = f - 1)

/-- 70 R235: `open()` with a configured rate in range; and 00 R6: the first `open()` after power-on reset, whatever the
parameters, programs the divider of their DEFAULT_RATE_HZ. -/
def Obligations.OpenResult : Prop :=
  (∀ (k : Nat) (c : Config), c.WF →
    ∃ t, exec .openReq (State.powerOn k c) = .next t ∧ t.handle.opened = true ∧ t.handle.rateHz = c.defaultRateHz ∧
      ∃ d : BitVec 32, d.toNat = c.defaultRateHz * 8 * 2 ^ 32 / c.busClockHz ∧
        t.core.freq = .known d ∧ t.core.divActive = .known d) ∧
  ∀ (s : State) (f : Nat), s.cfg.WF → quiet s → s.handle.rateHz = f → 0 < f → f ≤ s.cfg.maxRate →
    ∃ (n : BitVec 16) (d : BitVec 32), n.toNat = s.cfg.fifoDepth ∧ d.toNat = f * 8 * 2 ^ 32 / s.cfg.busClockHz ∧
      exec .openReq s = .next (s.answered
        { recovered s.core with freq := .known d, divActive := .known d }
        { s.handle with opened := true, cacheSize := some n } (s.env.draws + 2)
        [.read (.fe s.env.client) .bufSize (.b16 n),
         .write (.fe s.env.client) .config (.b8 s.cfg.cfgReset), .write (.fe s.env.client) .freq (.b32 d),
         .write (.fe s.env.client) .config (.b8 s.cfg.cfgReset), .write (.fe s.env.client) .config (.b8 s.cfg.cfgEnable)]
        .done)

/-- 70 R235: `open()` with a configured rate out of range raises before any CONFIG write, after the BUF_SIZE read. -/
def Obligations.OpenOutOfRangeRaises : Prop :=
  ∀ s : State, s.cfg.WF → quiet s → (s.handle.rateHz ≤ 0 ∨ s.cfg.maxRate < s.handle.rateHz) →
    ∃ n : BitVec 16, n.toNat = s.cfg.fifoDepth ∧
      exec .openReq s = .next (s.answered s.core { s.handle with cacheSize := some n } (s.env.draws + 2)
        [.read (.fe s.env.client) .bufSize (.b16 n)] (.error (.contractViolation .speedOutOfRange)))

/-- 43 R160: `get_cache_size()`. -/
def Obligations.GetCacheSizeResult : Prop :=
  ∀ (s : State) (n : BitVec 16), quiet s → s.handle.opened = true → s.handle.cacheSize = some n →
    exec .getCacheSize s = .next (s.answered s.core s.handle (s.env.draws + 1) [] (.size n.toNat))

/-- 70 R236: before `open()` the transfer requests and `get_cache_size` are refused. -/
def Obligations.BeforeOpenRefused : Prop :=
  ∀ (s : State) (q : Request), s.handle.opened = false → s.hasJob s.env.client = false →
    (isTransfer q = true ∨ q = .getCacheSize) → exec q.instr s = .refused (.notOpened q)

/-! ### Transfers -/

/-- 42 R131, 43 R149, 44 R171: `write(addr, data)` from an idle controller, when ENG completes every word before TIME's
deadline: the words sent, the bus events, the CORE left, the result. -/
def Obligations.WriteResult : Prop :=
  ∀ (s : State) (addr : Int) (data : List Byte) (bus : List (Bool × Byte)),
    s.cfg.WF → coreIdle s.core → s.handle.lock = none → s.hasJob s.env.client = false →
    acceptedAndFits s (.write addr data) → bus.length = data.length + 1 →
    s.env.agenda = loadMoves s.env.client (data.length + 1) ++ engineMoves bus →
    ∃ t es, exec (.write addr data) s = .next t ∧
      t.core = { s.core with
        trace := s.core.trace ++
          (.start :: List.zipWith BusEvent.tx (writeAddrByte (addr7 addr) :: data) (bus.map Prod.fst) ++ [.stop]) } ∧
      t.handle = s.handle ∧ t.jobs = s.jobs ∧ t.cfg = s.cfg ∧ t.env.agenda = [] ∧
      t.log.accesses = s.log.accesses ++ es ∧ configWritten es = false ∧
      txWrites es = (writeWords s.cfg (addr7 addr) data).map .b16 ∧
      t.log.answers = s.log.answers ++
        [(s.env.client, if (bus.take data.length).any Prod.fst then .error (.nack (addr7 addr)) else .done)]

/-- 42 R132, 44 R172: `read(addr, n)`, under the same premises; `a0` is the acknowledge bit of the address byte and
`got` what BUS delivers. -/
def Obligations.ReadResult : Prop :=
  ∀ (s : State) (addr n : Int) (a0 : Bool) (d0 : Byte) (got : List (Bool × Byte)),
    s.cfg.WF → coreIdle s.core → s.handle.lock = none → s.hasJob s.env.client = false →
    acceptedAndFits s (.read addr n) → (got.length : Int) = n →
    s.env.agenda = loadMoves s.env.client (got.length + 1) ++ engineMoves ((a0, d0) :: got) →
    ∃ t es, exec (.read addr n) s = .next t ∧
      t.core = { s.core with
        trace := s.core.trace ++
          ([.start, .tx (readAddrByte (addr7 addr)) a0] ++ receiveEvents (got.map Prod.snd) ++ [.stop]) } ∧
      t.handle = s.handle ∧ t.jobs = s.jobs ∧ t.cfg = s.cfg ∧ t.env.agenda = [] ∧
      t.log.accesses = s.log.accesses ++ es ∧ configWritten es = false ∧
      txWrites es = (readWords s.cfg (addr7 addr) got.length).map .b16 ∧
      t.log.answers = s.log.answers ++
        [(s.env.client, if a0 then .error (.nack (addr7 addr)) else .bytes (got.map Prod.snd))]

/-- 42 R133, 44 R173: `write_and_read(addr, data, rd_len)`, under the same premises; `out` are BUS's answers to the write
phase, `a1` the acknowledge bit of the read address byte, `got` what BUS delivers. -/
def Obligations.WriteAndReadResult : Prop :=
  ∀ (s : State) (addr n : Int) (data : List Byte) (out : List (Bool × Byte)) (a1 : Bool) (d1 : Byte)
    (got : List (Bool × Byte)),
    s.cfg.WF → coreIdle s.core → s.handle.lock = none → s.hasJob s.env.client = false →
    acceptedAndFits s (.writeAndRead addr data n) → out.length = data.length + 1 → (got.length : Int) = n →
    s.env.agenda = loadMoves s.env.client (data.length + got.length + 2) ++ engineMoves (out ++ (a1, d1) :: got) →
    ∃ t es, exec (.writeAndRead addr data n) s = .next t ∧
      t.core = { s.core with
        trace := s.core.trace ++
          (.start :: List.zipWith BusEvent.tx (writeAddrByte (addr7 addr) :: data) (out.map Prod.fst) ++
            [.restart, .tx (readAddrByte (addr7 addr)) a1] ++ receiveEvents (got.map Prod.snd) ++ [.stop]) } ∧
      t.handle = s.handle ∧ t.jobs = s.jobs ∧ t.cfg = s.cfg ∧ t.env.agenda = [] ∧
      t.log.accesses = s.log.accesses ++ es ∧ configWritten es = false ∧
      txWrites es = (writeAndReadWords s.cfg (addr7 addr) data got.length).map .b16 ∧
      t.log.answers = s.log.answers ++
        [(s.env.client, if out.any Prod.fst || a1 then .error (.nack (addr7 addr)) else .bytes (got.map Prod.snd))]

/-- 43 R154, R158, R159, 60 R214: a transfer from an idle controller, under any schedule of ENG's and its own steps, any
answers of BUS and any verdicts of TIME, neither faults nor hangs: it ends with one answer and an idle controller. What
follows the given moves is the model's choice (log 4, 6). -/
def Obligations.EveryTransferEndsIdle : Prop :=
  ∀ (s : State) (q : Request),
    s.cfg.WF → coreIdle s.core → s.handle.lock = none → s.hasJob s.env.client = false → acceptedAndFits s q →
    (∀ m ∈ s.env.agenda, m.ownOrEngine s.env.client = true) →
    ∃ t a, exec q.instr s = .next t ∧ t.log.answers = s.log.answers ++ [(s.env.client, a)] ∧
      coreIdle t.core ∧ t.core.freq = s.core.freq ∧ t.core.divActive = s.core.divActive ∧
      t.handle = s.handle ∧ t.jobs = s.jobs ∧ t.cfg = s.cfg ∧
      (∀ e, a = .error e → e = .timeout ∨ ∃ b, e = .nack b)

/-- 42 R130 to R133, 60 R201, R207: a request outside its contract raises a reason that holds of it, and touches nothing. -/
def Obligations.ContractViolationTouchesNothing : Prop :=
  ∀ (s : State) (q : Request) (n : BitVec 16), quiet s → s.handle.opened = true → s.handle.cacheSize = some n →
    isTransfer q = true → inContract n q = false →
    ∃ why, reasonHolds n q why = true ∧
      exec q.instr s = .next (s.answered s.core s.handle (s.env.draws + 1) [] (.error (.contractViolation why)))

/-- 43 R146: a transfer of more words than `cache_size` raises with the lock held, releases it and touches no register. -/
def Obligations.TransferTooLongRaises : Prop :=
  ∀ (s : State) (q : Request) (n : BitVec 16), quiet s → s.handle.opened = true → s.handle.cacheSize = some n →
    inContract n q = true → s.handle.lock = none → n.toNat < (requestWords s.cfg q).length →
    exec q.instr s =
      .next (s.answered s.core s.handle (s.env.draws + 1) [] (.error (.contractViolation .transferTooLong)))

/-- 43 R147: residue in the TX FIFO: recovery, then BusBusy(send); none of the request's words is written. -/
def Obligations.BusBusySendRaises : Prop :=
  ∀ (s : State) (q : Request), s.cfg.WF → quiet s → acceptedAndFits s q → s.handle.lock = none →
    coreInv s.cfg s.core → s.core.txq ≠ [] →
    ∃ k : BitVec 8, k.toNat = s.core.txq.length ∧
      exec q.instr s = .next (s.answered (recovered s.core) s.handle (s.env.draws + 2)
        [.read (.fe s.env.client) .txCount (.b8 k),
         .write (.fe s.env.client) .config (.b8 s.cfg.cfgReset), .write (.fe s.env.client) .config (.b8 s.cfg.cfgEnable)]
        (.error (.busBusy .send)))

/-- 43 R148: residue in the RX FIFO only: recovery, then BusBusy(receive). -/
def Obligations.BusBusyReceiveRaises : Prop :=
  ∀ (s : State) (q : Request), s.cfg.WF → quiet s → acceptedAndFits s q → s.handle.lock = none →
    coreInv s.cfg s.core → s.core.txq = [] → s.core.rxq ≠ [] →
    ∃ k : BitVec 8, k.toNat = s.core.rxq.length ∧
      exec q.instr s = .next (s.answered (recovered s.core) s.handle (s.env.draws + 3)
        [.read (.fe s.env.client) .txCount (.b8 0#8), .read (.fe s.env.client) .rxCount (.b8 k),
         .write (.fe s.env.client) .config (.b8 s.cfg.cfgReset), .write (.fe s.env.client) .config (.b8 s.cfg.cfgEnable)]
        (.error (.busBusy .receive)))

/-- 43 R150, R151, R153: one round of the poll loop, in any request at the test of the count `r` just read: `r = W` goes on
to what follows the loop, `r ≠ W` before the deadline puts another round (a read of RX_COUNT and its test) in front of it
and raises nothing, `r ≠ W` after the deadline goes over to the recovery, the release of the lock and Timeout. And R153,
R159, 60 R204: when no response comes before TIME's deadline the transfer loads its words, polls, recovers and raises
Timeout; so it does on a disabled core, which discards the words and is left enabled (70 R248). That TIME says so at the
first poll when no other agent moves is the model's choice (log 4). -/
def Obligations.NoResponseTimesOut : Prop :=
  (∀ (s : State) (r : Nat) (passed : Bool) (j : Job) (rest : List Act),
    findJob r s.jobs = some j → j.todo = .poll :: rest →
    (regValNat j.val = j.cw.length →
      move (.fe r passed) s = .next { s with jobs := { j with todo := rest } :: dropJob r s.jobs }) ∧
    (regValNat j.val ≠ j.cw.length → passed = false →
      move (.fe r passed) s = .next { s with
        jobs := { j with todo := .regRead s.cfg.offRxCount .w8 :: .poll :: rest } :: dropJob r s.jobs }) ∧
    (regValNat j.val ≠ j.cw.length → passed = true →
      move (.fe r passed) s = .next { s with
        jobs := { j with todo := [.regWrite s.cfg.offConfig (.b8 s.cfg.cfgReset),
          .regWrite s.cfg.offConfig (.b8 s.cfg.cfgEnable), .release, .answer (.error .timeout)] } :: dropJob r s.jobs })) ∧
  (∀ (s : State) (q : Request), s.cfg.WF → quiet s → acceptedAndFits s q → s.handle.lock = none →
    s.core.txq = [] → s.core.rxq = [] →
    exec q.instr s = .next (s.answered (recovered s.core) s.handle (s.env.draws + 4)
      ([.read (.fe s.env.client) .txCount (.b8 0#8), .read (.fe s.env.client) .rxCount (.b8 0#8)] ++
        (requestWords s.cfg q).map (fun w => .write (.fe s.env.client) .txBuf (.b16 w)) ++
        [.read (.fe s.env.client) .rxCount (.b8 0#8),
         .write (.fe s.env.client) .config (.b8 s.cfg.cfgReset), .write (.fe s.env.client) .config (.b8 s.cfg.cfgEnable)])
      (.error .timeout)))

/-! ### The lock -/

/-- 45 R187, R188: while another holds the lock a transfer waits, and nothing of the controller changes; the other requests
do not wait (their results above put no condition on the lock). And every transfer that holds the lock ends (43 R154, 45
R189): when the agenda is exhausted the steps that follow answer every outstanding request, each exactly once, and leave the
lock free, unless one of them stops the run. That exec leaves the request outstanding (log 6), that the requests then go on
by steps of their own, and that so every waiter gets the lock (log 28) is the model's choice: 45 R189 promises no freedom
from starvation. -/
def Obligations.TransferWaitsForTheLock : Prop :=
  (∀ (s : State) (q : Request) (r : Nat), quiet s → accepted s q → s.handle.lock = some r →
    ∃ j : Job, j.rid = s.env.client ∧ j.req = q ∧ j.cw = requestWords s.cfg q ∧ j.todo.head? = some .acquire ∧
      exec q.instr s =
        .next { s with jobs := j :: s.jobs, env := { s.env with draws := s.env.draws + 1 } }) ∧
  (∀ s : State, s.cfg.WF → lockInv s → s.env.agenda = [] →
    ∃ n, (∃ f, runSteps n s = .fault f) ∨ (∃ f, runSteps n s = .refused f) ∨
      ∃ t as, runSteps n s = .next t ∧ t.jobs = [] ∧ t.handle.lock = none ∧
        t.log.answers = s.log.answers ++ as ∧ (as.map Prod.fst).Perm (s.jobs.map Job.rid))

/-- 45 R187: `acquire` takes a free lock for whichever requester makes the step, and is not enabled on a held one; `release`
by the holder frees it. Each changes nothing but the lock and the requester's place in its own request. -/
def Obligations.LockIsTakenFreeAndGivenBack : Prop :=
  ∀ (s : State) (r : Nat) (passed : Bool) (j : Job) (rest : List Act), findJob r s.jobs = some j →
    (j.todo = .acquire :: rest → s.handle.lock = none →
      move (.fe r passed) s = .next { s with
        handle := { s.handle with lock := some r }, jobs := { j with todo := rest } :: dropJob r s.jobs }) ∧
    (j.todo = .acquire :: rest → s.handle.lock ≠ none → move (.fe r passed) s = .next s) ∧
    (j.todo = .release :: rest → s.handle.lock = some r →
      move (.fe r passed) s = .next { s with
        handle := { s.handle with lock := none }, jobs := { j with todo := rest } :: dropJob r s.jobs })

/-- 45 R187, R189: every step keeps the lock's invariant: who holds the lock is inside its transfer, and whoever is inside
a transfer holds it. -/
def Obligations.StepKeepsLockInv : Prop :=
  ∀ s t : State, s.cfg.WF → lockInv s → step s = .next t → lockInv t

/-- 45 R190: a FIFO port or a count is reached for a requester only while that requester holds the lock. -/
def Obligations.TransferAccessNeedsTheLock : Prop :=
  ∀ (s t : State) (r : Nat) (passed : Bool) (e : RegEvent), lockInv s → move (.fe r passed) s = .next t →
    t.log.accesses = s.log.accesses ++ [e] → transferReg (eventReg e) = true → s.handle.lock = some r

/-! ### Invariants of every step -/

/-- 10 R21 items 1 and 2: every step keeps the invariant of CORE. -/
def Obligations.StepKeepsCoreInv : Prop :=
  ∀ s t : State, coreInv s.cfg s.core → step s = .next t → coreInv t.cfg t.core

/-- The invariants hold after power-on reset, of any controller with any parameters; so they do at State.reset, whose
parameters, the defaults (the model's choice, log 1), meet R6. -/
def Obligations.ResetMeetsTheInvariants : Prop :=
  (∀ (k : Nat) (c : Config), coreInv c (State.powerOn k c).core ∧ lockInv (State.powerOn k c)) ∧
  State.reset.cfg.WF ∧ coreInv State.reset.cfg State.reset.core ∧ lockInv State.reset

/-- 10 R21 item 3: a move that writes no CONFIG adds one word to CORE for each TX_BUF write it makes on an enabled core,
takes one for each RX_BUF read, and neither loses nor makes another: each word round-trips one response. -/
def Obligations.WordsAreConserved : Prop :=
  ∀ (m : Move) (s t : State), move m s = .next t →
    ∃ es, t.log.accesses = s.log.accesses ++ es ∧
      (configWritten es = false →
        wordsHeld t.core + rxReads es = wordsHeld s.core + (if s.core.en then (txWrites es).length else 0))

/-- The parameters never change (log 1), nor the identity of the controller (45 R185), and the histories only grow (10 R23:
the trace is a history; the records of accesses and answers are the model's, log 15). -/
def Obligations.ParametersFixedHistoriesGrow : Prop :=
  ∀ s t : State, step s = .next t →
    t.cfg = s.cfg ∧ t.ident = s.ident ∧ s.core.trace <+: t.core.trace ∧ s.log.accesses <+: t.log.accesses ∧
      s.log.answers <+: t.log.answers

/-- 10 R32, 60 R214, R215: a step of an unmarked run that faults or is refused records the fault or the refusal and leaves
the state as it was, any other step records nothing; a recorded fault or refusal is never cleared. That a marked run takes
no later step is the model's choice (log 19). -/
def Obligations.MarksAreNeverCleared : Prop :=
  (∀ (m : Marked) (n : Nat), m.clear = false → Marked.advance^[n] m = m) ∧
  (∀ s : State,
    (∀ f, step s = .fault f →
      Marked.advance { state := s, faulted := none, refused := none } = { state := s, faulted := some f, refused := none }) ∧
    (∀ w, step s = .refused w →
      Marked.advance { state := s, faulted := none, refused := none } = { state := s, faulted := none, refused := some w }) ∧
    (∀ t, step s = .next t →
      Marked.advance { state := s, faulted := none, refused := none } = { state := t, faulted := none, refused := none }))

/-- 10 R33: the values the spec gives after power-on reset to CORE, the handle and the marks, whatever the parameters (00 R6).
That no request is outstanding is the model's choice (log 16): R33 has no row for it; so are the identity and the parameters
of State.reset (log 1, 16). -/
def Obligations.ResetValues : Prop :=
  (∀ (k : Nat) (c : Config),
    (State.powerOn k c).cfg = c ∧
    (State.powerOn k c).core = { en := false, freq := .unspecified, divActive := .unspecified, txq := [], rxq := [],
                                 cur := none, busOwned := false, trace := [] } ∧
    (State.powerOn k c).handle = { opened := false, cacheSize := none, rateHz := c.defaultRateHz, lock := none } ∧
    (State.powerOn k c).jobs = [] ∧
    (Marked.powerOn k c).state = State.powerOn k c ∧
    (Marked.powerOn k c).faulted = none ∧ (Marked.powerOn k c).refused = none) ∧
  State.reset = State.powerOn 0 Config.standard

/-- 45 R191: a step of one controller is a step of its own state alone, and leaves every other as it was. 45 R185: each is
identified by the identity of its register window; that State carries that identity, that no step changes it and that the
unspecified values are drawn by it is the model's choice (log 8, 20). -/
def Obligations.ControllersShareNothing : Prop :=
  ∀ (p p' : Platform) (k k' : Nat), platformStep k p = .next p' →
    step (controllerAt k p) = .next (controllerAt k p') ∧ (k' ≠ k → controllerAt k' p' = controllerAt k' p) ∧
    (controllerAt k p').ident = k ∧ (controllerAt k' p').ident = k'

/-! ### Encoder, decoder, divider -/

/-- 30 R70, R76, R77, 42 R131 to R134: a word is opcode byte and payload byte; the address byte is the address shifted left
with READ_FLAG in bit 0; the words of the three requests, one by one, and how many they are. -/
def Obligations.EncoderBuildsTheSequences : Prop :=
  (∀ a : BitVec 7, (writeAddrByte a).toNat = 2 * a.toNat ∧ (readAddrByte a).toNat = 2 * a.toNat + 1) ∧
  (∀ addr : Int, 0 ≤ addr → addr ≤ 0x7F → ((addr7 addr).toNat : Int) = addr) ∧
  (∀ (c : Config) (op : CwOp) (pl : Byte), (commandWord c op pl).toNat = 256 * (opByte c op).toNat + pl.toNat) ∧
  ∀ (c : Config) (a : BitVec 7) (data : List Byte) (n : Nat), 0 < n →
    (data ≠ [] →
      (writeWords c a data).length = data.length + 1 ∧
      (writeWords c a data)[0]? = some (commandWord c .start (writeAddrByte a)) ∧
      (∀ i (h : i < data.length), (writeWords c a data)[i + 1]? =
        some (commandWord c (if i + 1 = data.length then .waitAckStop else .waitAck) data[i]))) ∧
    ((readWords c a n).length = n + 1 ∧
      (readWords c a n)[0]? = some (commandWord c .start (readAddrByte a)) ∧
      (∀ i < n, (readWords c a n)[i + 1]? =
        some (commandWord c (if i + 1 = n then .sendNackStop else .sendAck) 0#8))) ∧
    ((writeAndReadWords c a data n).length = data.length + n + 2 ∧
      (writeAndReadWords c a data n)[0]? = some (commandWord c .start (writeAddrByte a)) ∧
      (∀ i (h : i < data.length), (writeAndReadWords c a data n)[i + 1]? = some (commandWord c .waitAck data[i])) ∧
      (∀ i, (writeAndReadWords c a data n)[data.length + 1 + i]? = (readWords c a n)[i]?))

/-- 44 R171: the decoder raises NackError of the request's address exactly when a flag of pairs 0 to W-2 has the bit. -/
def Obligations.ScanCoversAllButTheLastPair : Prop :=
  ∀ (mask : Byte) (addr : BitVec 7) (shape : Shape) (resp : List Byte) (W : Nat), resp.length = 2 * W →
    (decodedAnswer mask addr shape resp W = .error (.nack addr) ↔
      ∃ k, k + 1 < W ∧ ∃ f, resp[2 * k + 1]? = some f ∧ f &&& mask ≠ 0#8)

/-- 44 R172 to R174: what the extractions keep when the scan met no NACK: for `read` the data bytes from pair 1, for
`write_and_read` those from pair L+2, for `write` nothing. -/
def Obligations.ExtractionsKeepTheDataBytes : Prop :=
  ∀ (mask : Byte) (addr : BitVec 7) (resp : List Byte) (W L : Nat), resp.length = 2 * W →
    scanFindsNack mask resp W = false →
    (∃ bs, decodedAnswer mask addr .read resp W = .bytes bs ∧ bs.length = W - 1 ∧
      ∀ i, i + 1 < W → bs[i]? = resp[2 * (i + 1)]?) ∧
    (∃ bs, decodedAnswer mask addr (.writeAndRead L) resp W = .bytes bs ∧ bs.length = W - (L + 2) ∧
      ∀ i, i + L + 2 < W → bs[i]? = resp[2 * (i + L + 2)]?) ∧
    decodedAnswer mask addr .write resp W = .done

/-- 40 R97: the divider of a legal frequency fits 32 bits and is not 0. -/
def Obligations.DividerFitsTheRegister : Prop :=
  ∀ (c : Config) (f : Nat), c.WF → 0 < f → f ≤ c.maxRate →
    (divider c f).toNat = f * 8 * 2 ^ 32 / c.busClockHz ∧ (divider c f).toNat ≠ 0
end

