-- ==== Sys2Proof/Laws/State.lean ====
section
/-! SUPPORT. One lemma for each field of the state and each named update of it, so that no proof unfolds a record update. -/

namespace Sys2Proof.Machine

variable (s : State)

/-! `setCore` -/

@[simp] theorem State.setCore_ident (k : CoreState) : (s.setCore k).ident = s.ident := rfl
@[simp] theorem State.setCore_cfg (k : CoreState) : (s.setCore k).cfg = s.cfg := (rfl)
@[simp] theorem State.setCore_core (k : CoreState) : (s.setCore k).core = k := rfl
@[simp] theorem State.setCore_handle (k : CoreState) : (s.setCore k).handle = s.handle := rfl
@[simp] theorem State.setCore_jobs (k : CoreState) : (s.setCore k).jobs = s.jobs := rfl
@[simp] theorem State.setCore_env (k : CoreState) : (s.setCore k).env = s.env := rfl
@[simp] theorem State.setCore_log (k : CoreState) : (s.setCore k).log = s.log := rfl

/-! `setHandle` -/

@[simp] theorem State.setHandle_ident (h : Handle) : (s.setHandle h).ident = s.ident := rfl
@[simp] theorem State.setHandle_cfg (h : Handle) : (s.setHandle h).cfg = s.cfg := (rfl)
@[simp] theorem State.setHandle_core (h : Handle) : (s.setHandle h).core = s.core := rfl
@[simp] theorem State.setHandle_handle (h : Handle) : (s.setHandle h).handle = h := rfl
@[simp] theorem State.setHandle_jobs (h : Handle) : (s.setHandle h).jobs = s.jobs := rfl
@[simp] theorem State.setHandle_env (h : Handle) : (s.setHandle h).env = s.env := rfl
@[simp] theorem State.setHandle_log (h : Handle) : (s.setHandle h).log = s.log := rfl

/-! `setLock` -/

@[simp] theorem State.setLock_ident (l : Option Nat) : (s.setLock l).ident = s.ident := rfl
@[simp] theorem State.setLock_cfg (l : Option Nat) : (s.setLock l).cfg = s.cfg := (rfl)
@[simp] theorem State.setLock_core (l : Option Nat) : (s.setLock l).core = s.core := rfl
@[simp] theorem State.setLock_handle (l : Option Nat) : (s.setLock l).handle = { s.handle with lock := l } := rfl
@[simp] theorem State.setLock_jobs (l : Option Nat) : (s.setLock l).jobs = s.jobs := rfl
@[simp] theorem State.setLock_env (l : Option Nat) : (s.setLock l).env = s.env := rfl
@[simp] theorem State.setLock_log (l : Option Nat) : (s.setLock l).log = s.log := rfl

/-! `setJobs` -/

@[simp] theorem State.setJobs_ident (js : List Job) : (s.setJobs js).ident = s.ident := rfl
@[simp] theorem State.setJobs_cfg (js : List Job) : (s.setJobs js).cfg = s.cfg := (rfl)
@[simp] theorem State.setJobs_core (js : List Job) : (s.setJobs js).core = s.core := rfl
@[simp] theorem State.setJobs_handle (js : List Job) : (s.setJobs js).handle = s.handle := rfl
@[simp] theorem State.setJobs_jobs (js : List Job) : (s.setJobs js).jobs = js := rfl
@[simp] theorem State.setJobs_env (js : List Job) : (s.setJobs js).env = s.env := rfl
@[simp] theorem State.setJobs_log (js : List Job) : (s.setJobs js).log = s.log := rfl

/-! `setAgenda` -/

@[simp] theorem State.setAgenda_ident (ms : List Move) : (s.setAgenda ms).ident = s.ident := rfl
@[simp] theorem State.setAgenda_cfg (ms : List Move) : (s.setAgenda ms).cfg = s.cfg := (rfl)
@[simp] theorem State.setAgenda_core (ms : List Move) : (s.setAgenda ms).core = s.core := rfl
@[simp] theorem State.setAgenda_handle (ms : List Move) : (s.setAgenda ms).handle = s.handle := rfl
@[simp] theorem State.setAgenda_jobs (ms : List Move) : (s.setAgenda ms).jobs = s.jobs := rfl
@[simp] theorem State.setAgenda_env (ms : List Move) : (s.setAgenda ms).env = { s.env with agenda := ms } := rfl
@[simp] theorem State.setAgenda_log (ms : List Move) : (s.setAgenda ms).log = s.log := rfl

/-! `setClient` -/

@[simp] theorem State.setClient_ident (r : Nat) : (s.setClient r).ident = s.ident := rfl
@[simp] theorem State.setClient_cfg (r : Nat) : (s.setClient r).cfg = s.cfg := (rfl)
@[simp] theorem State.setClient_core (r : Nat) : (s.setClient r).core = s.core := rfl
@[simp] theorem State.setClient_handle (r : Nat) : (s.setClient r).handle = s.handle := rfl
@[simp] theorem State.setClient_jobs (r : Nat) : (s.setClient r).jobs = s.jobs := rfl
@[simp] theorem State.setClient_env (r : Nat) : (s.setClient r).env = { s.env with client := r } := rfl
@[simp] theorem State.setClient_log (r : Nat) : (s.setClient r).log = s.log := rfl

/-! `setBus` -/

@[simp] theorem State.setBus_ident (ack : Bool) (data : Byte) : (s.setBus ack data).ident = s.ident := rfl
@[simp] theorem State.setBus_cfg (ack : Bool) (data : Byte) : (s.setBus ack data).cfg = s.cfg := (rfl)
@[simp] theorem State.setBus_core (ack : Bool) (data : Byte) : (s.setBus ack data).core = s.core := rfl
@[simp] theorem State.setBus_handle (ack : Bool) (data : Byte) : (s.setBus ack data).handle = s.handle := rfl
@[simp] theorem State.setBus_jobs (ack : Bool) (data : Byte) : (s.setBus ack data).jobs = s.jobs := rfl
@[simp] theorem State.setBus_env (ack : Bool) (data : Byte) : (s.setBus ack data).env = { s.env with busAck := ack, busData := data } := rfl
@[simp] theorem State.setBus_log (ack : Bool) (data : Byte) : (s.setBus ack data).log = s.log := rfl

/-! `drawn` -/

@[simp] theorem State.drawn_ident : s.drawn.ident = s.ident := rfl
@[simp] theorem State.drawn_cfg : s.drawn.cfg = s.cfg := (rfl)
@[simp] theorem State.drawn_core : s.drawn.core = s.core := rfl
@[simp] theorem State.drawn_handle : s.drawn.handle = s.handle := rfl
@[simp] theorem State.drawn_jobs : s.drawn.jobs = s.jobs := rfl
@[simp] theorem State.drawn_env : s.drawn.env = { s.env with draws := s.env.draws + 1 } := rfl
@[simp] theorem State.drawn_log : s.drawn.log = s.log := rfl

/-! `logAccess` -/

@[simp] theorem State.logAccess_ident (e : RegEvent) : (s.logAccess e).ident = s.ident := rfl
@[simp] theorem State.logAccess_cfg (e : RegEvent) : (s.logAccess e).cfg = s.cfg := (rfl)
@[simp] theorem State.logAccess_core (e : RegEvent) : (s.logAccess e).core = s.core := rfl
@[simp] theorem State.logAccess_handle (e : RegEvent) : (s.logAccess e).handle = s.handle := rfl
@[simp] theorem State.logAccess_jobs (e : RegEvent) : (s.logAccess e).jobs = s.jobs := rfl
@[simp] theorem State.logAccess_env (e : RegEvent) : (s.logAccess e).env = s.env := rfl
@[simp] theorem State.logAccess_log (e : RegEvent) : (s.logAccess e).log = { s.log with accesses := s.log.accesses ++ [e] } := rfl

/-! `logAnswer` -/

@[simp] theorem State.logAnswer_ident (r : Nat) (a : Answer) : (s.logAnswer r a).ident = s.ident := rfl
@[simp] theorem State.logAnswer_cfg (r : Nat) (a : Answer) : (s.logAnswer r a).cfg = s.cfg := (rfl)
@[simp] theorem State.logAnswer_core (r : Nat) (a : Answer) : (s.logAnswer r a).core = s.core := rfl
@[simp] theorem State.logAnswer_handle (r : Nat) (a : Answer) : (s.logAnswer r a).handle = s.handle := rfl
@[simp] theorem State.logAnswer_jobs (r : Nat) (a : Answer) : (s.logAnswer r a).jobs = s.jobs := rfl
@[simp] theorem State.logAnswer_env (r : Nat) (a : Answer) : (s.logAnswer r a).env = s.env := rfl
@[simp] theorem State.logAnswer_log (r : Nat) (a : Answer) : (s.logAnswer r a).log = { s.log with answers := s.log.answers ++ [(r, a)] } := rfl

/-! `putJob` -/

@[simp] theorem State.putJob_ident (j : Job) : (s.putJob j).ident = s.ident := rfl
@[simp] theorem State.putJob_cfg (j : Job) : (s.putJob j).cfg = s.cfg := (rfl)
@[simp] theorem State.putJob_core (j : Job) : (s.putJob j).core = s.core := rfl
@[simp] theorem State.putJob_handle (j : Job) : (s.putJob j).handle = s.handle := rfl
@[simp] theorem State.putJob_jobs (j : Job) : (s.putJob j).jobs = j :: dropJob j.rid s.jobs := rfl
@[simp] theorem State.putJob_env (j : Job) : (s.putJob j).env = s.env := rfl
@[simp] theorem State.putJob_log (j : Job) : (s.putJob j).log = s.log := rfl

/-! `deliver` -/

@[simp] theorem deliver_ident (r : Nat) (a : Answer) : (deliver r a s).ident = s.ident := rfl
@[simp] theorem deliver_cfg (r : Nat) (a : Answer) : (deliver r a s).cfg = s.cfg := (rfl)
@[simp] theorem deliver_core (r : Nat) (a : Answer) : (deliver r a s).core = s.core := rfl
@[simp] theorem deliver_handle (r : Nat) (a : Answer) : (deliver r a s).handle = s.handle := rfl
@[simp] theorem deliver_env (r : Nat) (a : Answer) : (deliver r a s).env = s.env := rfl
@[simp] theorem deliver_jobs (r : Nat) (a : Answer) : (deliver r a s).jobs = dropJob r s.jobs := rfl
@[simp] theorem deliver_log (r : Nat) (a : Answer) :
    (deliver r a s).log = { s.log with answers := s.log.answers ++ [(r, a)] } := rfl

/-! `powerOn` -/

@[simp] theorem State.powerOn_ident (k : Nat) (c : Config) : (State.powerOn k c).ident = k := rfl
@[simp] theorem State.powerOn_cfg (k : Nat) (c : Config) : (State.powerOn k c).cfg = c := rfl
@[simp] theorem State.powerOn_rateHz (k : Nat) (c : Config) : (State.powerOn k c).handle.rateHz = c.defaultRateHz := rfl
@[simp] theorem State.powerOn_jobs (k : Nat) (c : Config) : (State.powerOn k c).jobs = [] := rfl

/-- No request is outstanding after power-on reset and no move is to come. -/
theorem State.powerOn_quiet (k : Nat) (c : Config) : quiet (State.powerOn k c) := ⟨rfl, rfl⟩

/-! `hasJob` looks at the jobs alone -/

theorem State.hasJob_congr (s t : State) (r : Nat) (h : s.jobs = t.jobs) : s.hasJob r = t.hasJob r := by
  simp [State.hasJob, h]

end Sys2Proof.Machine
end

