-- ==== Sys2Proof/Laws/Ops.lean ====
section
/-! SUPPORT. What each shared operation can do: one lemma per operation and register, which later proofs cite. -/

namespace Sys2Proof.Machine

/-! ### Outcomes -/

@[simp] theorem andThen_next {α β : Type} (a : α) (f : α → Res β) : andThen (.next a) f = f a := rfl

@[simp] theorem andThen_fault {α β : Type} (e : Fault) (f : α → Res β) : andThen (.fault e) f = .fault e := rfl

@[simp] theorem andThen_refused {α β : Type} (e : Refusal) (f : α → Res β) : andThen (.refused e) f = .refused e := rfl

/-- The inversion of `andThen`. -/
theorem andThen_eq_next {α β : Type} {x : Res α} {f : α → Res β} {b : β} :
    andThen x f = .next b ↔ ∃ a, x = .next a ∧ f a = .next b := by
  cases x <;> simp [andThen]

/-! ### Jobs -/

@[simp] theorem findJob_cons_self (j : Job) (js : List Job) : findJob j.rid (j :: js) = some j := by
  simp [findJob]

theorem findJob_rid {r : Nat} {js : List Job} {j : Job} (h : findJob r js = some j) : j.rid = r := by
  simpa using List.find?_some h

theorem findJob_mem {r : Nat} {js : List Job} {j : Job} (h : findJob r js = some j) : j ∈ js :=
  List.mem_of_find?_eq_some h

theorem findJob_none {r : Nat} {js : List Job} : findJob r js = none ↔ ∀ j ∈ js, j.rid ≠ r := by
  simp [findJob]

theorem mem_dropJob {r : Nat} {js : List Job} {j : Job} : j ∈ dropJob r js ↔ j ∈ js ∧ j.rid ≠ r := by
  simp [dropJob]

@[simp] theorem dropJob_cons_self (j : Job) (js : List Job) : dropJob j.rid (j :: js) = dropJob j.rid js := by
  simp [dropJob]

@[simp] theorem dropJob_cons_of_eq {r : Nat} {j : Job} (h : j.rid = r) (js : List Job) :
    dropJob r (j :: js) = dropJob r js := by
  simp [dropJob, h]

@[simp] theorem dropJob_dropJob (r : Nat) (js : List Job) : dropJob r (dropJob r js) = dropJob r js := by
  simp [dropJob, List.filter_filter]

@[simp] theorem findJob_dropJob (r : Nat) (js : List Job) : findJob r (dropJob r js) = none := by
  simp [findJob_none, mem_dropJob]

/-- Dropping the job of a requester that has none changes nothing. -/
theorem dropJob_eq_self {s : State} {r : Nat} (h : s.hasJob r = false) : dropJob r s.jobs = s.jobs := by
  have h' : ∀ j ∈ s.jobs, j.rid ≠ r := by
    have : findJob r s.jobs = none := by simpa [State.hasJob] using h
    exact findJob_none.mp this
  simpa [dropJob, List.filter_eq_self] using h'

@[simp] theorem State.hasJob_putJob (s : State) (j : Job) : (s.putJob j).hasJob j.rid = true := by
  simp [State.hasJob]

/-- The first step of a job just kept is the head of its script. -/
theorem feStep_putJob (s : State) (j : Job) (a : Act) (rest : List Act) (p : Bool) (h : j.todo = a :: rest) :
    feStep j.rid p (s.putJob j) = runAct a { j with todo := rest } p (s.putJob j) := by
  simp [feStep, h]

/-! Keeping a job is done last: it commutes with every other update, and the last job kept is the one kept. -/

@[simp] theorem State.putJob_putJob (s : State) (j j' : Job) (h : j.rid = j'.rid) : (s.putJob j).putJob j' = s.putJob j' := by
  simp [State.putJob, State.setJobs, ← h]

@[simp] theorem State.putJob_setCore (s : State) (j : Job) (k : CoreState) : (s.putJob j).setCore k = (s.setCore k).putJob j := rfl

@[simp] theorem State.putJob_setHandle (s : State) (j : Job) (h : Handle) : (s.putJob j).setHandle h = (s.setHandle h).putJob j := rfl

@[simp] theorem State.putJob_setLock (s : State) (j : Job) (l : Option Nat) : (s.putJob j).setLock l = (s.setLock l).putJob j := rfl

@[simp] theorem State.putJob_setAgenda (s : State) (j : Job) (ms : List Move) :
    (s.putJob j).setAgenda ms = (s.setAgenda ms).putJob j := rfl

@[simp] theorem State.putJob_setBus (s : State) (j : Job) (a : Bool) (d : Byte) :
    (s.putJob j).setBus a d = (s.setBus a d).putJob j := rfl

@[simp] theorem State.putJob_drawn (s : State) (j : Job) : (s.putJob j).drawn = s.drawn.putJob j := rfl

@[simp] theorem State.putJob_logAccess (s : State) (j : Job) (e : RegEvent) :
    (s.putJob j).logAccess e = (s.logAccess e).putJob j := rfl

@[simp] theorem deliver_putJob (s : State) (j : Job) (a : Answer) : deliver j.rid a (s.putJob j) = deliver j.rid a s := by
  simp [deliver, State.setJobs, State.logAnswer]

/-! ### The offsets of a well-formed configuration -/

/-- The seven offsets are the seven registers' (20 R55). -/
theorem regAt_regOffset {c : Config} (h : c.WF) (r : Reg) : regAt c (regOffset c r) = some r := by
  obtain ⟨-, -, -, -, hn, -, hw, -⟩ := h
  simp only [Config.offsets, List.nodup_cons, List.mem_cons, not_or, List.not_mem_nil, not_false_eq_true, and_true,
    List.nodup_nil] at hn
  obtain ⟨⟨h1, h2, h3, h4, h5, h6⟩, ⟨h7, h8, h9, h10, h11⟩, ⟨h12, h13, h14, h15⟩, ⟨h16, h17, h18⟩, ⟨h19, h20⟩, h21⟩ := hn
  obtain ⟨w1, w2, w3, w4, w5, w6, w7⟩ := hw
  cases r
  · show regAt c c.offConfig = _
    simp [regAt, show ¬ c.regSize ≤ c.offConfig by omega]
  · show regAt c c.offFreq = _
    simp [regAt, show ¬ c.regSize ≤ c.offFreq by omega, Ne.symm h1]
  · show regAt c c.offTxBuf = _
    simp [regAt, show ¬ c.regSize ≤ c.offTxBuf by omega, Ne.symm h2, Ne.symm h7]
  · show regAt c c.offRxBuf = _
    simp [regAt, show ¬ c.regSize ≤ c.offRxBuf by omega, Ne.symm h3, Ne.symm h8, Ne.symm h12]
  · show regAt c c.offTxCount = _
    simp [regAt, show ¬ c.regSize ≤ c.offTxCount by omega, Ne.symm h4, Ne.symm h9, Ne.symm h13, Ne.symm h16]
  · show regAt c c.offRxCount = _
    simp [regAt, show ¬ c.regSize ≤ c.offRxCount by omega, Ne.symm h5, Ne.symm h10, Ne.symm h14, Ne.symm h17, Ne.symm h19]
  · show regAt c c.offBufSize = _
    simp [regAt, show ¬ c.regSize ≤ c.offBufSize by omega, Ne.symm h6, Ne.symm h11, Ne.symm h15, Ne.symm h18, Ne.symm h20,
      Ne.symm h21]

@[simp] theorem regAt_config {c : Config} (h : c.WF) : regAt c c.offConfig = some .config := regAt_regOffset h .config

@[simp] theorem regAt_freq {c : Config} (h : c.WF) : regAt c c.offFreq = some .freq := regAt_regOffset h .freq

@[simp] theorem regAt_txBuf {c : Config} (h : c.WF) : regAt c c.offTxBuf = some .txBuf := regAt_regOffset h .txBuf

@[simp] theorem regAt_rxBuf {c : Config} (h : c.WF) : regAt c c.offRxBuf = some .rxBuf := regAt_regOffset h .rxBuf

@[simp] theorem regAt_txCount {c : Config} (h : c.WF) : regAt c c.offTxCount = some .txCount := regAt_regOffset h .txCount

@[simp] theorem regAt_rxCount {c : Config} (h : c.WF) : regAt c c.offRxCount = some .rxCount := regAt_regOffset h .rxCount

@[simp] theorem regAt_bufSize {c : Config} (h : c.WF) : regAt c c.offBufSize = some .bufSize := regAt_regOffset h .bufSize

/-- An offset that names a register is that register's offset. -/
theorem regOffset_of_regAt {c : Config} {off : Nat} {r : Reg} (h : regAt c off = some r) : off = regOffset c r := by
  simp only [regAt] at h
  (repeat' split at h) <;> first | (injection h with h; subst h; assumption) | exact absurd h (by simp)

/-! ### CORE's operations -/

@[simp] theorem coreConfig_reset (cfg : Config) (k : CoreState) : coreConfig cfg cfg.cfgReset k = .next (coreReset k) := by
  simp [coreConfig]

@[simp] theorem coreConfig_enable {cfg : Config} (h : cfg.WF) (k : CoreState) :
    coreConfig cfg cfg.cfgEnable k = .next (coreEnable k) := by
  have hne : cfg.cfgEnable ≠ cfg.cfgReset := fun e => h.2.2.2.2.2.2.2.1 e.symm
  simp [coreConfig, hne]

/-- RESET then ENABLE leaves the recovered CORE (40 R94). -/
@[simp] theorem coreEnable_coreReset (k : CoreState) : coreEnable (coreReset k) = recovered k := by
  simp only [coreEnable, coreReset, recovered]
  split <;> simp_all

/-- The bit of the flag byte is the one it was made with. -/
theorem isNackFlag_flagByte {c : Config} (h : c.WF) (nack : Bool) (draw : Byte) :
    isNackFlag c.isNack (flagByte c.isNack nack draw) = nack := by
  have hm := h.2.2.2.2.2.2.2.2.2
  have hz : ∀ m ∈ [0x01#8, 0x02#8, 0x04#8, 0x08#8, 0x10#8, 0x20#8, 0x40#8, 0x80#8], m ≠ 0#8 := by decide
  have h0 := hz _ hm
  have key : ∀ m d : BitVec 8, d &&& ~~~m &&& m = 0#8 := by
    intro m d; ext i hi; simp
  have key1 : ∀ m d : BitVec 8, ((d &&& ~~~m) ||| m) &&& m = m := by
    intro m d; ext i hi; simpa using Or.inr
  cases nack <;> simp [isNackFlag, flagByte, key, key1, h0]

@[simp] theorem loByte_joinBytes (h l : Byte) : loByte (joinBytes h l) = l :=
  BitVec.extractLsb'_append_eq_right (a := h) (b := l)

@[simp] theorem hiByte_joinBytes (h l : Byte) : hiByte (joinBytes h l) = h :=
  BitVec.extractLsb'_append_eq_left (a := h) (b := l)

@[simp] theorem joinBytes_hi_lo (w : Word) : joinBytes (hiByte w) (loByte w) = w := by
  unfold hiByte loByte joinBytes
  ext i hi
  simp only [BitVec.getElem_append, BitVec.getElem_extractLsb']
  split
  · simp [BitVec.getLsbD_eq_getElem hi]
  · have : 8 + (i - 8) = i := by omega
    simp [this, BitVec.getLsbD_eq_getElem hi]

end Sys2Proof.Machine
end

