-- ==== Sys2Proof/Laws/Encoding.lean ====
section
/-! SUPPORT. The encoding tables as lemmas (spec/30_encoding.md R70, R74, R75): fields of a command word, opcode bytes against
opcodes, requests against records. -/

namespace Sys2Proof

open Machine

@[simp] theorem hiByte_commandWord (c : Config) (op : CwOp) (pl : Byte) : hiByte (commandWord c op pl) = opByte c op :=
  hiByte_joinBytes _ _

@[simp] theorem loByte_commandWord (c : Config) (op : CwOp) (pl : Byte) : loByte (commandWord c op pl) = pl :=
  loByte_joinBytes _ _

theorem opByte_mem (c : Config) (op : CwOp) : opByte c op ∈ c.opcodes := by
  cases op <;> simp [opByte, Config.opcodes]

/-- With distinct opcode bytes each byte selects its own opcode (R6, R74). -/
theorem opOfByte_opByte {c : Config} (h : c.WF) (op : CwOp) : opOfByte c (opByte c op) = some op := by
  have hn := h.2.2.2.2.2.2.2.2.1
  simp only [Config.opcodes, List.nodup_cons, List.mem_cons, not_or, List.not_mem_nil, not_false_eq_true, and_true,
    List.nodup_nil] at hn
  obtain ⟨⟨h1, h2, h3, h4⟩, ⟨h5, h6, h7⟩, ⟨h8, h9⟩, h10⟩ := hn
  cases op <;> simp [opByte, opOfByte, Ne.symm h1, Ne.symm h2, Ne.symm h3, Ne.symm h4, Ne.symm h5, Ne.symm h6, Ne.symm h7,
    Ne.symm h8, Ne.symm h9, Ne.symm h10]

/-- A selected opcode has the byte that selected it. -/
theorem opByte_of_opOfByte {c : Config} {b : Byte} {op : CwOp} (h : opOfByte c b = some op) : opByte c op = b := by
  unfold opOfByte at h
  (repeat' split at h) <;> first | (injection h with h; subst h; symm; assumption) | cases h

theorem opOfByte_eq_none {c : Config} {b : Byte} : opOfByte c b = none ↔ b ∉ c.opcodes := by
  unfold opOfByte Config.opcodes
  (repeat' split) <;> simp_all

/-- The command word of the bytes of a word with a selected opcode is the word. -/
theorem commandWord_of_opOfByte {c : Config} {w : Word} {op : CwOp} (h : opOfByte c (hiByte w) = some op) :
    commandWord c op (loByte w) = w := by
  rw [commandWord, opByte_of_opOfByte h, joinBytes_hi_lo]

/-- A record stands for the request it was made from (R75). -/
@[simp] theorem requestOf_recordOf (q : Request) : requestOf (recordOf q) = some q := by
  cases q <;> rfl

end Sys2Proof
end

