-- ==== Sys2Proof/Laws/Engine.lean ====
section
/-! SUPPORT. What ENG's two steps can do (spec/41_command_words.md R112, R113, R120 to R123). -/

namespace Sys2Proof.Machine

/-- The fetch step: nothing, or the oldest word goes from the TX FIFO into flight (R112). -/
theorem engFetch_eq (s : State) : engFetch s = s ∨
    ∃ w ws, s.core.en = true ∧ s.core.cur = none ∧ s.core.txq = w :: ws ∧
      engFetch s = s.setCore { s.core with cur := some w, txq := ws } := by
  unfold engFetch
  split
  · rename_i h
    obtain ⟨h1, h2⟩ := by simpa using h
    split
    · exact .inl rfl
    · rename_i w ws hq
      exact .inr ⟨w, ws, h1, h2, hq, rfl⟩
  · exact .inl rfl

/-- The completion of a word, when it answers: nothing, because the word is not in flight, or the state after it (R113). -/
theorem completeWord_next {w : Word} {f : ByteForm} {pl : Byte} {n : Bool} {s t : State}
    (h : completeWord w f pl n s = .next t) : t = s ∨
      (s.core.en = true ∧ s.core.cur = some w ∧ (f.startBefore = true ∨ s.core.busOwned = true) ∧
        s.core.rxq.length ≠ s.cfg.fifoDepth ∧ t = wordDone f pl n s) := by
  unfold completeWord at h
  split at h
  · rename_i he
    split at h
    · cases h
    · rename_i hf
      split at h
      · cases h
      · rename_i hd
        injection h with h
        refine .inr ⟨he.1, he.2, ?_, hd, h.symm⟩
        cases h1 : f.startBefore <;> cases h2 : s.core.busOwned <;> simp_all
  · injection h with h
    exact .inl h.symm

/-- The completion of the word in flight, in frame and with room for its response (R113). -/
theorem completeWord_done {w : Word} {f : ByteForm} {pl : Byte} {n : Bool} {s : State} (h1 : s.core.en = true)
    (h2 : s.core.cur = some w) (h3 : f.startBefore = true ∨ s.core.busOwned = true)
    (h4 : s.core.rxq.length ≠ s.cfg.fifoDepth) : completeWord w f pl n s = .next (wordDone f pl n s) := by
  have h5 : ¬(f.startBefore = false ∧ s.core.busOwned = false) := by rcases h3 with h | h <;> simp [h]
  simp [completeWord, h1, h2, h4, h5]

/-- A complete step runs the word in flight by its opcode (R113). -/
theorem engComplete_word {s : State} {w : Word} {op : CwOp} (h1 : s.core.en = true) (h2 : s.core.cur = some w)
    (h3 : opOfByte s.cfg (hiByte w) = some op) : engComplete s = execWord op (loByte w) s := by
  simp [engComplete, h1, h2, h3]

/-- A complete step with nothing in flight, or on a disabled core, is no step (R113). -/
theorem engComplete_idle {s : State} (h : s.core.en = false ∨ s.core.cur = none) : engComplete s = .next s := by
  rcases h with h | h <;> simp [engComplete, h]

/-- The fields of the state after a word. -/
theorem wordDone_fields (f : ByteForm) (pl : Byte) (n : Bool) (s : State) :
    (wordDone f pl n s).cfg = s.cfg ∧ (wordDone f pl n s).handle = s.handle ∧ (wordDone f pl n s).jobs = s.jobs ∧
      (wordDone f pl n s).log = s.log ∧ (wordDone f pl n s).core.en = s.core.en ∧
      (wordDone f pl n s).core.txq = s.core.txq ∧ (wordDone f pl n s).core.cur = none ∧
      (wordDone f pl n s).core.busOwned = !f.stopAfter := ⟨rfl, rfl, rfl, rfl, rfl, rfl, rfl, rfl⟩

end Sys2Proof.Machine
end

