-- ==== Sys2Proof/Laws/Registers.lean ====
section
/-! SUPPORT. What each register access does, one lemma per register (spec/20_memory.md R42 to R49), for a well-formed
configuration. -/

namespace Sys2Proof.Machine

/-- The state after a read: CORE as given, one draw made, the access recorded. -/
abbrev afterRead (who : Actor) (r : Reg) (v : RegVal) (k : CoreState) (s : State) : State :=
  ((s.setCore k).drawn).logAccess (.read who r v)

/-- The state after a write. -/
abbrev afterWrite (who : Actor) (r : Reg) (v : RegVal) (k : CoreState) (s : State) : State :=
  (s.setCore k).logAccess (.write who r v)

variable {c : Config} {s : State} (who : Actor)

/-! Each lemma takes the well-formedness of a configuration and leaves "this state has it" to `simp`, so that a chain of
accesses is followed by `simp` alone. -/

theorem regRead_freq (h : c.WF) (hc : s.cfg = c) : regRead who c.offFreq .w32 s =
    .next (coreReadFreq (Config.freeFreq s.ident s.env.draws) s.core,
      afterRead who .freq (coreReadFreq (Config.freeFreq s.ident s.env.draws) s.core) s.core s) := by
  subst hc
  simp [regRead, regAt_freq h, regWidth, coreRead]

theorem regRead_txCount (h : c.WF) (hc : s.cfg = c) : regRead who c.offTxCount .w8 s =
    .next (.b8 (BitVec.ofNat 8 s.core.txq.length),
      afterRead who .txCount (.b8 (BitVec.ofNat 8 s.core.txq.length)) s.core s) := by
  subst hc
  simp [regRead, regAt_txCount h, regWidth, coreRead]

theorem regRead_rxCount (h : c.WF) (hc : s.cfg = c) : regRead who c.offRxCount .w8 s =
    .next (.b8 (BitVec.ofNat 8 s.core.rxq.length),
      afterRead who .rxCount (.b8 (BitVec.ofNat 8 s.core.rxq.length)) s.core s) := by
  subst hc
  simp [regRead, regAt_rxCount h, regWidth, coreRead]

theorem regRead_bufSize (h : c.WF) (hc : s.cfg = c) : regRead who c.offBufSize .w16 s =
    .next (.b16 (BitVec.ofNat 16 c.fifoDepth), afterRead who .bufSize (.b16 (BitVec.ofNat 16 c.fifoDepth)) s.core s) := by
  subst hc
  simp [regRead, regAt_bufSize h, regWidth, coreRead]

theorem regRead_rxBuf_cons (h : c.WF) (hc : s.cfg = c) {w : Word} {ws : List Word} (hr : s.core.rxq = w :: ws) :
    regRead who c.offRxBuf .w16 s = .next (.b16 w, afterRead who .rxBuf (.b16 w) { s.core with rxq := ws } s) := by
  subst hc
  simp [regRead, regAt_rxBuf h, regWidth, coreRead, corePopRx, hr]

theorem regRead_rxBuf_nil (h : c.WF) (hc : s.cfg = c) (hr : s.core.rxq = []) :
    regRead who c.offRxBuf .w16 s = .fault .rxUnderflow := by
  subst hc
  simp [regRead, regAt_rxBuf h, regWidth, coreRead, corePopRx, hr]

theorem regWrite_reset (h : c.WF) (hc : s.cfg = c) : regWrite who c.offConfig (.b8 c.cfgReset) s =
    .next (afterWrite who .config (.b8 c.cfgReset) (coreReset s.core) s) := by
  subst hc
  simp [regWrite, regAt_config h, coreWrite]

theorem regWrite_enable (h : c.WF) (hc : s.cfg = c) : regWrite who c.offConfig (.b8 c.cfgEnable) s =
    .next (afterWrite who .config (.b8 c.cfgEnable) (coreEnable s.core) s) := by
  subst hc
  simp [regWrite, regAt_config h, coreWrite, coreConfig_enable h]

theorem regWrite_freq (h : c.WF) (hc : s.cfg = c) (v : BitVec 32) : regWrite who c.offFreq (.b32 v) s =
    .next (afterWrite who .freq (.b32 v) (coreWriteFreq v s.core) s) := by
  subst hc
  simp [regWrite, regAt_freq h, coreWrite]

theorem regWrite_txBuf (h : c.WF) (hc : s.cfg = c) (w : Word) : regWrite who c.offTxBuf (.b16 w) s =
    andThen (corePushTx c w s.core) fun k => .next (afterWrite who .txBuf (.b16 w) k s) := by
  subst hc
  simp [regWrite, regAt_txBuf h, coreWrite]

/-- A disabled core discards the word (20 R45). -/
theorem corePushTx_disabled (c : Config) (w : Word) {k : CoreState} (h : k.en = false) : corePushTx c w k = .next k := by
  simp [corePushTx, h]

/-- An enabled core with room queues the word (20 R45). -/
theorem corePushTx_room (c : Config) (w : Word) {k : CoreState} (h : k.en = true) (hr : k.txq.length ≠ c.fifoDepth) :
    corePushTx c w k = .next { k with txq := k.txq ++ [w] } := by
  simp [corePushTx, h, hr]

/-- A write to a register that is not written is refused, by the one name or the other (20 R53). -/
theorem refuseWrite_refuses (r : Reg) (v : RegVal) : ∃ why, refuseWrite r v = .refused why := by
  unfold refuseWrite
  split <;> exact ⟨_, rfl⟩

/-! An access commutes with keeping a job. -/

@[simp] theorem regWrite_putJob (off : Nat) (v : RegVal) (j : Job) :
    regWrite who off v (s.putJob j) = andThen (regWrite who off v s) fun t => .next (t.putJob j) := by
  simp only [regWrite, State.putJob_cfg, State.putJob_core]
  split
  · rfl
  · cases coreWrite s.cfg _ v s.core <;> simp

@[simp] theorem regRead_putJob (off : Nat) (w : Width) (j : Job) :
    regRead who off w (s.putJob j) = andThen (regRead who off w s) fun x => .next (x.1, x.2.putJob j) := by
  simp only [regRead, State.putJob_ident, State.putJob_cfg, State.putJob_core, State.putJob_env]
  split
  · rfl
  · split
    · cases coreRead s.cfg _ _ s.core <;> simp
    · rfl

/-! ### What an access leaves -/

/-- A register read, when it answers: CORE by `coreRead`, the count of draws and the access record, nothing else. -/
theorem regRead_next {off : Nat} {w : Width} {v : RegVal} {t : State} (h : regRead who off w s = .next (v, t)) :
    ∃ r k, regAt s.cfg off = some r ∧ coreRead s.cfg (Config.freeFreq s.ident s.env.draws) r s.core = .next (v, k) ∧
      t = afterRead who r v k s := by
  simp only [regRead] at h
  split at h
  · cases h
  · rename_i r hr
    split at h
    · obtain ⟨x, hx, he⟩ := andThen_eq_next.mp h
      injection he with he
      injection he with h1 h2
      subst h1; subst h2
      exact ⟨r, x.2, hr, hx, rfl⟩
    · cases h

/-- A register write, when it answers: CORE by `coreWrite` and the access record, nothing else. -/
theorem regWrite_next {off : Nat} {v : RegVal} {t : State} (h : regWrite who off v s = .next t) :
    ∃ r k, regAt s.cfg off = some r ∧ coreWrite s.cfg r v s.core = .next k ∧ t = afterWrite who r v k s := by
  simp only [regWrite] at h
  split at h
  · cases h
  · rename_i r hr
    obtain ⟨k, hk, he⟩ := andThen_eq_next.mp h
    injection he with he
    exact ⟨r, k, hr, hk, he.symm⟩

end Sys2Proof.Machine
end

