-- ==== Sys2Proof/Laws/FrontEnd.lean ====
section
/-! SUPPORT. Running a request: how a script is followed step by step, and how a run alone ends. -/

namespace Sys2Proof.Machine

/-- The record a request begins with. -/
abbrev newJob (r : Nat) (q : Request) (p : Plan) : Job :=
  { rid := r, req := q, cw := p.cw, val := .b8 0#8, resp := [], todo := p.todo }

theorem launch_eq (r : Nat) (q : Request) (p : Plan) (s : State) : launch r q p s = s.drawn.putJob (newJob r q p) := rfl

@[simp] theorem hasJob_deliver (r : Nat) (a : Answer) (s : State) : (deliver r a s).hasJob r = false := by
  simp [State.hasJob]

/-- A request that is answered has no step left. -/
theorem runAlone_done {s : State} {r : Nat} (h : s.hasJob r = false) (fuel : Nat) : runAlone r fuel s = .next s := by
  cases fuel <;> simp [runAlone, h]

/-- A request runs alone by its script's head. -/
theorem runAlone_putJob (s : State) (j : Job) {a : Act} {rest : List Act} (h : j.todo = a :: rest) (fuel : Nat) :
    runAlone j.rid (fuel + 1) (s.putJob j) =
      andThen (runAct a { j with todo := rest } true (s.putJob j)) (runAlone j.rid fuel) := by
  simp [runAlone, feStep_putJob s j a rest true h]

/-- The same with the record written out, as a rewrite rule. -/
theorem runAlone_cons (s : State) (r : Nat) (q : Request) (cw : List Word) (val : RegVal) (resp : List Byte) (a : Act)
    (rest : List Act) (fuel : Nat) :
    runAlone r (fuel + 1) (s.putJob ⟨r, q, cw, val, resp, a :: rest⟩) =
      andThen (runAct a ⟨r, q, cw, val, resp, rest⟩ true (s.putJob ⟨r, q, cw, val, resp, a :: rest⟩)) (runAlone r fuel) :=
  runAlone_putJob s ⟨r, q, cw, val, resp, a :: rest⟩ rfl fuel

/-- `deliver_putJob` with the record written out, as a rewrite rule. -/
theorem deliver_putJob_mk (s : State) (r : Nat) (q : Request) (cw : List Word) (val : RegVal) (resp : List Byte)
    (todo : List Act) (a : Answer) : deliver r a (s.putJob ⟨r, q, cw, val, resp, todo⟩) = deliver r a s :=
  deliver_putJob s ⟨r, q, cw, val, resp, todo⟩ a

@[simp] theorem runAlone_deliver (s : State) (r : Nat) (a : Answer) (fuel : Nat) :
    runAlone r fuel (deliver r a s) = .next (deliver r a s) := runAlone_done (by simp) _

@[simp] theorem aloneFuel_putJob (s : State) (j : Job) : aloneFuel j.rid (s.putJob j) = scriptSteps j.todo + 4 := by
  simp [aloneFuel]

@[simp] theorem scriptSteps_nil : scriptSteps [] = 0 := rfl

@[simp] theorem scriptSteps_cons (a : Act) (rest : List Act) : scriptSteps (a :: rest) = scriptSteps rest + a.steps := rfl

theorem Act.steps_eq_one {a : Act} (h : a ≠ .callSetSpeed) : a.steps = 1 := by
  cases a <;> first | rfl | exact absurd rfl h

/-- A script without the call of `set_speed` is as many steps as it is long. -/
theorem scriptSteps_eq_length {todo : List Act} (h : Act.callSetSpeed ∉ todo) : scriptSteps todo = todo.length := by
  induction todo with
  | nil => rfl
  | cons a rest ih =>
    simp only [List.mem_cons, not_or] at h
    rw [scriptSteps_cons, Act.steps_eq_one (Ne.symm h.1), ih h.2, List.length_cons]

@[simp] theorem scriptSteps_append (xs ys : List Act) : scriptSteps (xs ++ ys) = scriptSteps ys + scriptSteps xs := by
  induction xs with
  | nil => rfl
  | cons a rest ih => rw [List.cons_append, scriptSteps_cons, ih, scriptSteps_cons, Nat.add_assoc]

@[simp] theorem scriptSteps_loadScript (c : Config) (cw : List Word) : scriptSteps (loadScript c cw) = cw.length := by
  simpa [loadScript] using scriptSteps_eq_length (todo := loadScript c cw) (by simp [loadScript])

@[simp] theorem scriptSteps_readBackScript (c : Config) (W : Nat) : scriptSteps (readBackScript c W) = 2 * W := by
  induction W with
  | zero => rfl
  | succ W ih => simp [readBackScript, ih, Nat.mul_succ]

/-- A request that no other agent's move falls into runs alone (log 6). -/
theorem runRequest_quiet {s : State} (h : quiet s) (q : Request) (p : Plan) :
    runRequest q (.next p) s =
      runAlone s.env.client (scriptSteps p.todo + 4) (s.drawn.putJob (newJob s.env.client q p)) := by
  obtain ⟨h1, h2⟩ := h
  have e : s.drawn.setAgenda [] = s.drawn := by simp [State.setAgenda, State.drawn, ← h1]
  have f := aloneFuel_putJob s.drawn (newJob s.env.client q p)
  simp only at f
  simp [runRequest, h1, h2, drive, launch_eq, e, f]

/-- The state a request leaves, from its fields. -/
theorem eq_answered {s t : State} (hq : s.hasJob s.env.client = false) {k : CoreState} {h : Handle} {d : Nat}
    {es : List RegEvent} {a : Answer} (h0 : t.ident = s.ident) (h1 : t.cfg = s.cfg) (h2 : t.core = k) (h3 : t.handle = h)
    (h4 : t.jobs = dropJob s.env.client s.jobs) (h5 : t.env = { s.env with draws := d })
    (h6 : t.log = { accesses := s.log.accesses ++ es, answers := s.log.answers ++ [(s.env.client, a)] }) :
    t = s.answered k h d es a := by
  rw [dropJob_eq_self hq] at h4
  cases t; simp_all [State.answered]

end Sys2Proof.Machine
end

