-- ==== Sys2Proof/Laws/PerInstr.lean ====
section
/-! SUPPORT. Per instruction: its encoding is one the spec gives a meaning, under any parameter values
(spec/30_encoding.md R79). -/

namespace Sys2Proof.Laws.EncodingWellFormed

/-- The encoding passes the checks of R79. -/
def Statement (i : Instr) : Prop := ∀ c : Config, (encode c i).wellFormed c = true

/-- A command word's opcode byte is one of the five. -/
theorem word (c : Config) (op : CwOp) (pl : Byte) : (Encoded.cw (commandWord c op pl)).wellFormed c = true := by
  have h : (commandWord c op pl).extractLsb' 8 8 = opByte c op := hiByte_commandWord c op pl
  simpa [Encoded.wellFormed, h] using opByte_mem c op

theorem start (payload : Byte) : Statement (.start payload) := fun c => word c .start payload

theorem waitAck (payload : Byte) : Statement (.waitAck payload) := fun c => word c .waitAck payload

theorem waitAckStop (payload : Byte) : Statement (.waitAckStop payload) := fun c => word c .waitAckStop payload

theorem sendAck (payload : Byte) : Statement (.sendAck payload) := fun c => word c .sendAck payload

theorem sendNackStop (payload : Byte) : Statement (.sendNackStop payload) := fun c => word c .sendNackStop payload

theorem configReset : Statement .configReset := fun c => by simp [encode, Encoded.wellFormed]

theorem configEnable : Statement .configEnable := fun c => by simp [encode, Encoded.wellFormed]

theorem openReq : Statement .openReq := fun _ => rfl

theorem enable : Statement .enable := fun _ => rfl

theorem disable : Statement .disable := fun _ => rfl

theorem setSpeed (freqHz : Int) : Statement (.setSpeed freqHz) := fun _ => rfl

theorem getSpeed : Statement .getSpeed := fun _ => rfl

theorem read (addr n : Int) : Statement (.read addr n) := fun _ => rfl

theorem write (addr : Int) (data : List Byte) : Statement (.write addr data) := fun _ => rfl

theorem writeAndRead (addr : Int) (data : List Byte) (rdLen : Int) : Statement (.writeAndRead addr data rdLen) :=
  fun _ => rfl

theorem getCacheSize : Statement .getCacheSize := fun _ => rfl

end Sys2Proof.Laws.EncodingWellFormed
end

