-- ==== Sys2Proof/Laws/Requests.lean ====
section
/-! SUPPORT. What the lock's two operations, a step of the front end and the plan of an accepted transfer are
(spec/45_handle_arbiter.md R187, 43_transfer_engine.md R145). -/

namespace Sys2Proof.Machine

/-- `acquire`: nothing, or a free lock is taken by the job's requester. -/
theorem acquireLock_eq (j : Job) (s : State) : acquireLock j s = s ∨
    (s.handle.lock = none ∧ acquireLock j s = (s.setLock (some j.rid)).putJob j) := by
  unfold acquireLock
  split
  · rename_i h
    exact .inr ⟨h, rfl⟩
  · exact .inl rfl

/-- `release`: nothing, or the lock the job's requester holds is free. -/
theorem releaseLock_eq (j : Job) (s : State) : releaseLock j s = s ∨
    (s.handle.lock = some j.rid ∧ releaseLock j s = (s.setLock none).putJob j) := by
  unfold releaseLock
  split
  · rename_i h
    exact .inr ⟨h, rfl⟩
  · exact .inl rfl

/-- A step of the front end, when it answers: nothing, or the head of the requester's script. -/
theorem feStep_next {r : Nat} {passed : Bool} {s t : State} (h : feStep r passed s = .next t) : t = s ∨
    ∃ j a rest, findJob r s.jobs = some j ∧ j.todo = a :: rest ∧
      runAct a { j with todo := rest } passed s = .next t := by
  unfold feStep at h
  split at h
  · injection h with h
    exact .inl h.symm
  · rename_i j hj
    split at h
    · injection h with h
      exact .inl h.symm
    · rename_i a rest ht
      exact .inr ⟨j, a, rest, hj, ht, h⟩

/-- A request that keeps its contract has words. -/
theorem requestWords_ne_nil {c : Config} {n : BitVec 16} {q : Request} (h : inContract n q = true) :
    requestWords c q ≠ [] := by
  cases q <;> simp [inContract] at h <;> simp [requestWords, readWords, writeWords, writeAndReadWords]

/-- A request that keeps its contract on an opened handle runs `_transfer` of its words (43 R145). -/
theorem exec_of_inContract {s : State} {q : Request} {n : BitVec 16} (ho : s.handle.opened = true)
    (hc : s.handle.cacheSize = some n) (h : inContract n q = true) :
    ∃ a sh, exec q.instr s =
      runRequest q (.next ⟨requestWords s.cfg q, transferScript s.cfg (requestWords s.cfg q) a sh⟩) s := by
  cases q <;> simp only [inContract, Bool.false_eq_true, Bool.and_eq_true] at h
  case read a n =>
    simp only [Request.instr, exec, execRead, planRead, openedCacheSize, ho, hc, if_true, andThen_next, h.1, h.2,
      Bool.not_true, failingReason, transferPlan, requestWords]
    exact ⟨_, _, rfl⟩
  case write a d =>
    simp only [Request.instr, exec, execWrite, planWrite, openedCacheSize, ho, hc, if_true, andThen_next, h.1,
      show d.isEmpty = false by simpa using h.2, Bool.not_true, failingReason, transferPlan, requestWords]
    exact ⟨_, _, rfl⟩
  case writeAndRead a d n =>
    simp only [Request.instr, exec, execWriteAndRead, planWriteAndRead, openedCacheSize, ho, hc, if_true, andThen_next, h.1,
      h.2, Bool.not_true, failingReason, transferPlan, requestWords]
    exact ⟨_, _, rfl⟩

/-! ### A run alone ends -/

/-- The steps that may go over to an error's script. -/
def Act.mayRaise : Act → Bool
  | .checkLength => true
  | .checkEmpty _ => true
  | .poll => true
  | .checkSpeed _ => true
  | .callSetSpeed => true
  | .regWrite _ _ => false
  | .regRead _ _ => false
  | .acquire => false
  | .release => false
  | .collect => false
  | .setCacheSize => false
  | .setRate _ => false
  | .setOpened => false
  | .answer _ => false
  | .answerSpeed => false
  | .answerCacheSize => false
  | .decodeResponse _ _ => false

theorem Act.steps_pos (a : Act) : 0 < a.steps := by cases a <;> simp [Act.steps]

/-- A bound on the steps a script takes alone: those it stands for, and the longest error script if a check stands in it. -/
def scriptBound (todo : List Act) : Nat := scriptSteps todo + (if todo.any Act.mayRaise then 4 else 0)

theorem scriptBound_le (todo : List Act) : scriptBound todo ≤ scriptSteps todo + 4 := by
  unfold scriptBound
  split <;> omega

theorem scriptBound_tail (a : Act) (rest : List Act) : scriptBound rest < scriptBound (a :: rest) := by
  have := a.steps_pos
  simp only [scriptBound, scriptSteps_cons, List.any_cons, Bool.or_eq_true]
  by_cases h : rest.any Act.mayRaise = true
  · simp only [h, or_true, if_true]; omega
  · simp only [h, Bool.false_eq_true, if_false, or_false]
    split <;> omega

theorem scriptBound_raise (c : Config) (e : Error) (locked : Bool) {a : Act} (rest : List Act) (h : a.mayRaise = true) :
    scriptBound (raiseScript c e locked) < scriptBound (a :: rest) := by
  have h0 := a.steps_pos
  have h1 : scriptBound (raiseScript c e locked) ≤ 4 := by
    cases e <;> cases locked <;>
      simp [scriptBound, raiseScript, enableScript, Error.recovers, Act.mayRaise, Act.steps]
  have h2 : scriptBound (a :: rest) = scriptSteps rest + a.steps + 4 := by simp [scriptBound, h]
  omega

/-- The steps of `set_speed` are fewer than its call stands for. -/
theorem scriptBound_call (c : Config) (f : Int) (rest : List Act) :
    scriptBound (setSpeedScript c f ++ rest) < scriptBound (.callSetSpeed :: rest) := by
  simp [scriptBound, setSpeedScript, disableScript, enableScript, Act.mayRaise, Act.steps]

/-- A step of a request running alone leaves the state, ends the request, or brings its end nearer. -/
theorem feStep_alone {r : Nat} {s t : State} {j : Job} (hj : findJob r s.jobs = some j) (h : feStep r true s = .next t) :
    t = s ∨ t.hasJob r = false ∨ ∃ j', findJob r t.jobs = some j' ∧ scriptBound j'.todo < scriptBound j.todo := by
  rcases feStep_next h with h | ⟨j', a, rest, hj', ht, h⟩
  · exact .inl h
  obtain rfl : j = j' := by rw [hj] at hj'; exact Option.some.inj hj'
  have hr := findJob_rid hj
  have put : ∀ (u : State) (k : Job), k.rid = r → findJob r (u.putJob k).jobs = some k := by
    rintro u k rfl
    simp
  have fwd : ∀ (u : State) (k : Job), k.rid = r → k.todo = rest →
      ∃ j', findJob r (u.putJob k).jobs = some j' ∧ scriptBound j'.todo < scriptBound j.todo :=
    fun u k h1 h2 => ⟨k, put u k h1, by rw [h2, ht]; exact scriptBound_tail a rest⟩
  have err : ∀ (e : Error) (l : Bool), a.mayRaise = true →
      ∃ j', findJob r (s.putJob { j with todo := raiseScript s.cfg e l }).jobs = some j' ∧
        scriptBound j'.todo < scriptBound j.todo :=
    fun e l hm => ⟨_, put s _ hr, by rw [ht]; exact scriptBound_raise s.cfg e l rest hm⟩
  have gone : ∀ x : Answer, (deliver j.rid x s).hasJob r = false := fun x => hr ▸ hasJob_deliver _ _ _
  cases a <;> simp only [runAct] at h
  case regWrite => obtain ⟨u, -, h⟩ := andThen_eq_next.mp h; injection h with h; exact .inr (.inr (h ▸ fwd u _ hr rfl))
  case regRead => obtain ⟨u, -, h⟩ := andThen_eq_next.mp h; injection h with h; exact .inr (.inr (h ▸ fwd u.2 _ hr rfl))
  case acquire =>
    injection h with h
    rcases acquireLock_eq { j with todo := rest } s with e | ⟨-, e⟩
    · exact .inl (h ▸ e)
    · exact .inr (.inr (h ▸ e ▸ fwd _ _ hr rfl))
  case release =>
    injection h with h
    rcases releaseLock_eq { j with todo := rest } s with e | ⟨-, e⟩
    · exact .inl (h ▸ e)
    · exact .inr (.inr (h ▸ e ▸ fwd _ _ hr rfl))
  case checkLength =>
    split at h
    · cases h
    · split at h
      · cases h
      · split at h <;> injection h with h
        · exact .inr (.inr (h ▸ err _ _ rfl))
        · exact .inr (.inr (h ▸ fwd s _ hr rfl))
  case checkEmpty =>
    split at h <;> injection h with h
    · exact .inr (.inr (h ▸ fwd s _ hr rfl))
    · exact .inr (.inr (h ▸ err _ _ rfl))
  case poll =>
    simp only [if_true] at h
    split at h <;> injection h with h
    · exact .inr (.inr (h ▸ fwd s _ hr rfl))
    · exact .inr (.inr (h ▸ err _ _ rfl))
  case checkSpeed =>
    split at h <;> injection h with h
    · exact .inr (.inr (h ▸ fwd s _ hr rfl))
    · exact .inr (.inr (h ▸ err _ _ rfl))
  case collect => injection h with h; exact .inr (.inr (h ▸ fwd s _ hr rfl))
  case setCacheSize => injection h with h; exact .inr (.inr (h ▸ fwd _ _ hr rfl))
  case callSetSpeed =>
    injection h with h
    exact .inr (.inr (h ▸ ⟨_, put s _ hr, by rw [ht]; exact scriptBound_call s.cfg _ rest⟩))
  case setRate => injection h with h; exact .inr (.inr (h ▸ fwd _ _ hr rfl))
  case setOpened => injection h with h; exact .inr (.inr (h ▸ fwd _ _ hr rfl))
  case answer => injection h with h; exact .inr (.inl (h ▸ gone _))
  case answerSpeed => injection h with h; exact .inr (.inl (h ▸ gone _))
  case answerCacheSize =>
    split at h
    · cases h
    · injection h with h; exact .inr (.inl (h ▸ gone _))
  case decodeResponse => injection h with h; exact .inr (.inl (h ▸ gone _))

/-- A step of a request that can move, with TIME's verdict "passed", when it answers: the request is nearer to its end, or
it is answered; the other requests, the agenda and the parameters stay (43 R154). -/
theorem feStep_canMove {s t : State} {j : Job} (hj : findJob j.rid s.jobs = some j)
    (hm : j.canMove s.handle.lock = true) (h : feStep j.rid true s = .next t) :
    t.env.agenda = s.env.agenda ∧ t.cfg = s.cfg ∧
    ((∃ j', j'.rid = j.rid ∧ t.jobs = j' :: dropJob j.rid s.jobs ∧ scriptBound j'.todo < scriptBound j.todo ∧
        t.log.answers = s.log.answers) ∨
      ∃ a, t.jobs = dropJob j.rid s.jobs ∧ t.log.answers = s.log.answers ++ [(j.rid, a)]) := by
  unfold feStep at h
  rw [hj] at h
  cases ht : j.todo with
  | nil => simp [Job.canMove, ht] at hm
  | cons a rest =>
    simp only [ht] at h
    have tl := scriptBound_tail a rest
    have put : ∀ (u : State) (k : Job), k.rid = j.rid → u.jobs = s.jobs → u.log.answers = s.log.answers →
        scriptBound k.todo < scriptBound (a :: rest) →
        ∃ j', j'.rid = j.rid ∧ (u.putJob k).jobs = j' :: dropJob j.rid s.jobs ∧
          scriptBound j'.todo < scriptBound (a :: rest) ∧ (u.putJob k).log.answers = s.log.answers :=
      fun u k h1 h2 h3 h4 => ⟨k, h1, by simp [h1, h2], h4, h3⟩
    cases a <;> simp only [runAct] at h
    case regWrite =>
      obtain ⟨u, hu, h⟩ := andThen_eq_next.mp h; injection h with h; subst h
      obtain ⟨_, _, -, -, rfl⟩ := regWrite_next _ hu
      exact ⟨rfl, rfl, .inl (put _ _ (by rfl) rfl rfl tl)⟩
    case regRead =>
      obtain ⟨⟨v, u⟩, hu, h⟩ := andThen_eq_next.mp h; injection h with h; subst h
      obtain ⟨_, _, -, -, rfl⟩ := regRead_next _ hu
      exact ⟨rfl, rfl, .inl ⟨{ j with todo := rest, val := v }, rfl, rfl, tl, rfl⟩⟩
    case acquire =>
      injection h with h; subst h
      have : s.handle.lock = none := by simpa [Job.canMove, ht] using hm
      simp only [acquireLock, this]
      exact ⟨rfl, rfl, .inl ⟨{ j with todo := rest }, rfl, rfl, tl, rfl⟩⟩
    case release =>
      injection h with h; subst h
      have : s.handle.lock = some j.rid := by simpa [Job.canMove, ht] using hm
      simp only [releaseLock, this, if_true]
      exact ⟨rfl, rfl, .inl ⟨{ j with todo := rest }, rfl, rfl, tl, rfl⟩⟩
    case callSetSpeed =>
      injection h with h; subst h
      exact ⟨rfl, rfl, .inl (put _ _ (by rfl) rfl rfl (scriptBound_call _ _ _))⟩
    all_goals try simp only [if_true] at h
    all_goals (repeat' split at h)
    all_goals first | (injection h with h; subst h) | cases h
    all_goals refine ⟨rfl, rfl, ?_⟩
    all_goals first
      | exact .inl ⟨{ j with todo := rest }, rfl, rfl, tl, rfl⟩
      | exact .inl ⟨{ j with todo := rest, resp := _ }, rfl, rfl, tl, rfl⟩
      | exact .inl (put _ _ (by rfl) rfl rfl (scriptBound_raise _ _ _ _ rfl))
      | exact .inr ⟨_, rfl, rfl⟩

/-- The step of a controller whose agenda is exhausted: nothing, when no request can move, or a step of one that can. -/
theorem settle_eq (s : State) :
    (s.jobs.find? (Job.canMove s.handle.lock) = none ∧ settle s = .next s) ∨
      ∃ j ∈ s.jobs, j.canMove s.handle.lock = true ∧ settle s = feStep j.rid true s := by
  unfold settle
  split
  · exact .inl ⟨‹_›, rfl⟩
  · rename_i j hj
    exact .inr ⟨j, List.mem_of_find?_eq_some hj, List.find?_some hj, rfl⟩

/-- A request that has no step to take stays. -/
theorem runAlone_stuck {r : Nat} {s : State} (h : feStep r true s = .next s) (fuel : Nat) :
    runAlone r fuel s = .next s := by
  induction fuel with
  | zero => rfl
  | succ n ih => simp only [runAlone, h, andThen_next, ih, ite_self]

/-- With `aloneFuel` steps a run alone has ended: more make no difference. -/
theorem runAlone_enough {r : Nat} {s : State} {j : Job} (hj : findJob r s.jobs = some j) (fuel : Nat)
    (h : scriptBound j.todo ≤ fuel) (k : Nat) : runAlone r (fuel + k) s = runAlone r fuel s := by
  induction fuel generalizing s j with
  | zero =>
    have ht : j.todo = [] := by
      cases e : j.todo with
      | nil => rfl
      | cons a rest =>
        rw [e] at h
        exact absurd (scriptBound_tail a rest) (by omega)
    have hs : feStep r true s = .next s := by simp [feStep, hj, ht]
    rw [runAlone_stuck hs, runAlone_stuck hs]
  | succ n ih =>
    have hh : s.hasJob r = true := by simp [State.hasJob, hj]
    rw [show n + 1 + k = (n + k) + 1 by omega]
    simp only [runAlone, hh, if_true]
    cases he : feStep r true s with
    | fault e => rfl
    | refused e => rfl
    | next t =>
      rcases feStep_alone hj he with e | e | ⟨j', hj', hb⟩
      · subst e
        simp only [andThen_next, runAlone_stuck he]
      · simp only [andThen_next, runAlone_done e]
      · exact ih hj' (by omega)

end Sys2Proof.Machine
end

