-- ==== Sys2Proof/Laws/Step.lean ====
section
/-! SUPPORT. What a step of the machine is made of, said once: a property of states that the shared operations keep is kept
by every move, by every instruction and by every step. -/

namespace Sys2Proof.Machine

/-- A property of states that every shared operation keeps: ENG's two steps, the accesses of a RAW host and the two
pseudo-commands, a step of the front end, the beginning of a request; and that does not look at the model's inputs. -/
structure Kept (P : State → Prop) : Prop where
  env : ∀ (s : State) (e : Env), P s → P { s with env := e }
  word : ∀ (w : Word) (f : ByteForm) (pl : Byte) (n : Bool) (s t : State), P s → completeWord w f pl n s = .next t → P t
  fetch : ∀ s : State, P s → P (engFetch s)
  front : ∀ (r : Nat) (passed : Bool) (s t : State), P s → feStep r passed s = .next t → P t
  raw : ∀ (a : Access) (s t : State), P s → rawAccess a s = .next t → P t
  reset : ∀ s t : State, P s → execConfigReset s = .next t → P t
  enable : ∀ s t : State, P s → execConfigEnable s = .next t → P t
  launch : ∀ (r : Nat) (q : Request) (p : Plan) (s : State), P s → s.hasJob r = false → planOf q s = .next p →
    P (launch r q p s)

variable {P : State → Prop}

theorem Kept.execWord (k : Kept P) {op : CwOp} {pl : Byte} {s t : State} (h : P s)
    (e : Machine.execWord op pl s = .next t) : P t := by
  cases op <;> exact k.word _ _ _ _ _ _ h e

theorem Kept.engComplete (k : Kept P) {s t : State} (h : P s) (e : Machine.engComplete s = .next t) : P t := by
  unfold Machine.engComplete at e
  split at e
  · split at e
    · injection e with e; exact e ▸ h
    · split at e
      · exact k.execWord h e
      · cases e
  · injection e with e; exact e ▸ h

/-- Every move keeps it. -/
theorem Kept.move (k : Kept P) {m : Move} {s t : State} (h : P s) (e : Machine.move m s = .next t) : P t := by
  cases m with
  | fetch => injection e with e; exact e ▸ k.fetch s h
  | complete ack data => exact k.engComplete (k.env s _ h) e
  | fe r passed => exact k.front r passed s t h e
  | raw a => exact k.raw a s t h e
  | submit r q =>
    simp only [Machine.move] at e
    split at e
    · unfold beginRequest at e
      split at e
      · injection e with e; exact e ▸ h
      · rename_i hj
        obtain ⟨p, hp, e⟩ := andThen_eq_next.mp e
        injection e with e
        exact e ▸ k.launch r _ p s h (by simpa using hj) hp
    · cases e

theorem Kept.runAlone (k : Kept P) {r fuel : Nat} {s t : State} (h : P s) (e : Machine.runAlone r fuel s = .next t) :
    P t := by
  induction fuel generalizing s with
  | zero => injection e with e; exact e ▸ h
  | succ n ih =>
    simp only [Machine.runAlone] at e
    split at e
    · obtain ⟨u, hu, e⟩ := andThen_eq_next.mp e
      exact ih (k.front r true s u h hu) e
    · injection e with e; exact e ▸ h

/-- The step of a controller whose agenda is exhausted keeps it. -/
theorem Kept.settle (k : Kept P) {s t : State} (h : P s) (e : Machine.settle s = .next t) : P t := by
  unfold Machine.settle at e
  split at e
  · injection e with e; exact e ▸ h
  · exact k.front _ true s t h e

theorem Kept.drive (k : Kept P) {r : Nat} {ms : List Move} {s t : State} (h : P s)
    (e : Machine.drive r ms s = .next t) : P t := by
  induction ms generalizing s with
  | nil => exact k.runAlone h e
  | cons m ms ih =>
    simp only [Machine.drive] at e
    split at e
    · obtain ⟨u, hu, e⟩ := andThen_eq_next.mp e
      exact ih (k.move h hu) e
    · injection e with e; exact e ▸ k.env s _ h

theorem Kept.runRequest (k : Kept P) {q : Request} {s t : State} (h : P s)
    (e : Machine.runRequest q (planOf q s) s = .next t) : P t := by
  simp only [Machine.runRequest] at e
  split at e
  · injection e with e; exact e ▸ h
  · rename_i hj
    obtain ⟨p, hp, e⟩ := andThen_eq_next.mp e
    exact k.drive (k.env _ _ (k.launch s.env.client q p s h (by simpa using hj) hp)) e

/-- Every instruction keeps it. -/
theorem Kept.exec (k : Kept P) {i : Instr} {s t : State} (h : P s) (e : Machine.exec i s = .next t) : P t := by
  cases i with
  | start pl => exact k.word _ _ _ _ _ _ h e
  | waitAck pl => exact k.word _ _ _ _ _ _ h e
  | waitAckStop pl => exact k.word _ _ _ _ _ _ h e
  | sendAck pl => exact k.word _ _ _ _ _ _ h e
  | sendNackStop pl => exact k.word _ _ _ _ _ _ h e
  | configReset => exact k.reset s t h e
  | configEnable => exact k.enable s t h e
  | openReq => exact k.runRequest (q := .openReq) h e
  | enable => exact k.runRequest (q := .enable) h e
  | disable => exact k.runRequest (q := .disable) h e
  | setSpeed f => exact k.runRequest (q := .setSpeed f) h e
  | getSpeed => exact k.runRequest (q := .getSpeed) h e
  | read a n => exact k.runRequest (q := .read a n) h e
  | write a d => exact k.runRequest (q := .write a d) h e
  | writeAndRead a d n => exact k.runRequest (q := .writeAndRead a d n) h e
  | getCacheSize => exact k.runRequest (q := .getCacheSize) h e

/-- What a step does with what it fetched. -/
def runFetched (x : Fetched) : Res State :=
  match x with
  | .instr i t => Machine.exec i t
  | .other r => r

theorem step_eq (s : State) : Machine.step s = runFetched (fetchNext s) := rfl

theorem Kept.decodedStep (k : Kept P) {d : Decoded} {s t : State} (h : P s)
    (e : runFetched (Machine.decodedStep d s) = .next t) : P t := by
  cases d with
  | ok i => exact k.exec h e
  | reservedOpcode w => cases e
  | reservedConfig v => cases e
  | reservedOp op => cases e

/-- Every step keeps it. -/
theorem Kept.step (k : Kept P) {s t : State} (h : P s) (e : Machine.step s = .next t) : P t := by
  rw [step_eq] at e
  cases ha : s.env.agenda with
  | nil =>
    simp only [fetchNext, ha, runFetched] at e
    exact k.settle h e
  | cons m ms =>
    have h' : P (s.setAgenda ms) := k.env s _ h
    cases m <;> simp only [fetchNext, ha] at e
    case fetch => exact k.move (m := .fetch) h' e
    case fe r passed => exact k.move (m := .fe r passed) h' e
    case submit r q => exact k.decodedStep (k.env _ _ h') e
    case complete ack data =>
      have h'' : P ((s.setAgenda ms).setBus ack data) := k.env _ _ h'
      simp only [fetchWordInFlight] at e
      split at e
      · split at e
        · injection e with e; exact e ▸ h''
        · exact k.decodedStep h'' e
      · injection e with e; exact e ▸ h''
    case raw a =>
      unfold fetchRaw at e
      split at e
      · split at e
        · exact k.decodedStep h' e
        · simp only [runFetched] at e
          exact k.raw _ _ _ h' e
      all_goals
        simp only [runFetched] at e
        exact k.raw _ _ _ h' e

end Sys2Proof.Machine
end

