-- ==== Sys2Proof/Tests/Slice0.lean ====
section
/-! SUPPORT. Tests: ill-formed encodings refused, words written out bit by bit from spec/30_encoding.md, single steps with the
results of spec/95_test_vectors.md, and a witness for the hypotheses of every statement that has hypotheses. -/

namespace Sys2Proof.Tests

open Sys2Proof.Machine

/-! ### States -/

/-- The default parameters. -/
abbrev cfg : Config := Config.standard

/-- An opened controller at 400 kHz with this CORE queue, word in flight, responses and bus ownership. -/
def up (txq : List Word) (cur : Option Word) (rxq : List Word) (owned : Bool) : State :=
  { State.reset with
    core := ⟨true, .known 0x068DB8BA#32, .known 0x068DB8BA#32, txq, rxq, cur, owned, []⟩
    handle := ⟨true, some 64#16, 400000, none⟩ }

/-- The idle controller. -/
def idle : State := up [] none [] false

/-- The state an operation answers, or the reset state. -/
def after (x : Res State) : State :=
  match x with
  | .next s => s
  | .fault _ => State.reset
  | .refused _ => State.reset

/-- The fault an operation ends in. -/
def faultOf (x : Res State) : Option Fault :=
  match x with
  | .next _ => none
  | .fault f => some f
  | .refused _ => none

/-- The refusal an operation ends in. -/
def refusalOf (x : Res State) : Option Refusal :=
  match x with
  | .next _ => none
  | .fault _ => none
  | .refused r => some r

/-! ### Ill-formed encodings (30 R79) -/

/-- V40: opcode 0x99. -/
theorem test_wf_opcode : Encoded.wellFormed cfg (.cw 0x9900#16) = false := by decide

/-- V16: CONFIG byte 0x02. -/
theorem test_wf_config : Encoded.wellFormed cfg (.cfg 0x02#8) = false := by decide

/-- R75: `op` 9. -/
theorem test_wf_op : Encoded.wellFormed cfg (.req ⟨9#4, 0, [], 0, 0⟩) = false := by decide

/-- R75: `get_speed` with an operand. -/
theorem test_wf_unused : Encoded.wellFormed cfg (.req ⟨4#4, 0x50, [], 0, 0⟩) = false := by decide

theorem test_rejects_opcode : decode cfg (.cw 0x1234#16) = .reservedOpcode 0x1234#16 := by decide

theorem test_rejects_config : decode cfg (.cfg 0xFF#8) = .reservedConfig 0xFF#8 := by decide

theorem test_rejects_op : decode cfg (.req ⟨15#4, 0, [], 0, 0⟩) = .reservedOp 15#4 := by decide

/-! ### Words written out bit by bit (30 R70, R72, R74, R75) -/

theorem test_decode_start : decodeTableWord 16 0b1000000010100000 = some (.start 0xA0#8) := by decide

theorem test_decode_wait_ack : decodeTableWord 16 0b0000000000000001 = some (.waitAck 0x01#8) := by decide

theorem test_decode_wait_ack_stop : decodeTableWord 16 0b0100000000000010 = some (.waitAckStop 0x02#8) := by decide

theorem test_decode_send_ack : decodeTableWord 16 0b0010000001010101 = some (.sendAck 0x55#8) := by decide

theorem test_decode_send_nack_stop : decodeTableWord 16 0b0111000000000000 = some (.sendNackStop 0x00#8) := by decide

theorem test_decode_config_reset : decodeTableWord 8 0b00000000 = some .configReset := by decide

theorem test_decode_config_enable : decodeTableWord 8 0b00000001 = some .configEnable := by decide

theorem test_decode_open : decodeTableWord 4 0b0000 = some .openReq := by decide

theorem test_decode_enable : decodeTableWord 4 0b0001 = some .enable := by decide

theorem test_decode_disable : decodeTableWord 4 0b0010 = some .disable := by decide

theorem test_decode_set_speed : decode cfg (.req ⟨0b0011#4, 0, [], 0, 100000⟩) = .ok (.setSpeed 100000) := by decide

theorem test_decode_get_speed : decodeTableWord 4 0b0100 = some .getSpeed := by decide

theorem test_decode_read : decode cfg (.req ⟨0b0101#4, 0x50, [], 3, 0⟩) = .ok (.read 0x50 3) := by decide

theorem test_decode_write : decode cfg (.req ⟨0b0110#4, 0x50, [1#8, 2#8], 0, 0⟩) = .ok (.write 0x50 [1#8, 2#8]) := by
  decide

theorem test_decode_write_and_read :
    decode cfg (.req ⟨0b0111#4, 0x68, [0x3B#8], 3, 0⟩) = .ok (.writeAndRead 0x68 [0x3B#8] 3) := by decide

theorem test_decode_get_cache_size : decodeTableWord 4 0b1000 = some .getCacheSize := by decide

theorem test_decode_reserved_table_word : decodeTableWord 4 0b1001 = none := by decide

/-- V7: the address bytes of 0x7F. -/
theorem test_address_bytes : (writeAddrByte 0x7F#7, readAddrByte 0x7F#7) = (0xFE#8, 0xFF#8) := by decide

/-! ### One step: command words (95 section 2.4) -/

/-- V31. -/
theorem test_start :
    (after (exec (.start 0xA0#8) (up [] (some 0x80A0#16) [] false))).core.trace = [.start, .tx 0xA0#8 false] := by decide

/-- V32: a repeated START. -/
theorem test_start_again :
    (after (exec (.start 0xA1#8) (up [] (some 0x80A1#16) [] true))).core.trace = [.restart, .tx 0xA1#8 false] := by decide

/-- V34. -/
theorem test_wait_ack :
    (after (exec (.waitAck 0x01#8) ((up [] (some 0x0001#16) [] true).setBus true 0#8))).core.trace = [.tx 0x01#8 true] := by
  decide

/-- V39. -/
theorem test_wait_ack_out_of_frame :
    faultOf (exec (.waitAck 0x01#8) (up [] (some 0x0001#16) [] false)) = some (.protocolOrder 0x0001#16) := by decide

/-- V35. -/
theorem test_wait_ack_stop :
    let k := (after (exec (.waitAckStop 0x02#8) (up [] (some 0x4002#16) [] true))).core
    k.trace = [.tx 0x02#8 false, .stop] ∧ k.busOwned = false ∧ k.cur = none := by decide

/-- V41, on WAIT_ACK_STOP. -/
theorem test_wait_ack_stop_full :
    faultOf (exec (.waitAckStop 0x02#8) (up [] (some 0x4002#16) (List.replicate 64 0#16) true)) = some .rxOverflow := by
  decide

/-- V37: the payload is ignored. -/
theorem test_send_ack :
    let k := (after (exec (.sendAck 0x55#8) ((up [] (some 0x2055#16) [] true).setBus true 0x11#8))).core
    k.trace = [.rx 0x11#8 false] ∧ k.busOwned = true := by decide

/-- V38. -/
theorem test_send_nack_stop :
    let k := (after (exec (.sendNackStop 0x00#8) ((up [] (some 0x7000#16) [0x00A1#16] true).setBus false 0x33#8))).core
    k.trace = [.rx 0x33#8 true, .stop] ∧ k.busOwned = false ∧ k.rxq.length = 2 := by decide

/-- V40: a reserved opcode in flight. -/
theorem test_illegal_opcode :
    faultOf (engComplete (up [] (some 0x9900#16) [] true)) = some (.illegalOpcode 0x9900#16) := by decide

/-! ### One step: CONFIG (95 section 2.2) -/

/-- V11. -/
theorem test_config_reset :
    let k := (after (exec .configReset (up [0x0001#16] (some 0x80A0#16) [] false))).core
    k.en = false ∧ k.txq = [] ∧ k.cur = none ∧ k.trace = [.abort] := by decide

/-- V13: no event on an idle core. -/
theorem test_config_reset_idle : (after (exec .configReset idle)).core.trace = [] := by decide

/-- V14. -/
theorem test_config_enable : (after (exec .configEnable State.reset)).core.en = true := by decide

/-- V15. -/
theorem test_config_enable_again :
    (after (exec .configEnable (up [0x80A0#16] none [] false))).core = (up [0x80A0#16] none [] false).core := by decide

/-! ### Requests (95 sections 2.3, 2.5, programs P1, P6, P7) -/

/-- P1: `open()` from power-on; with DEFAULT_RATE_HZ, a parameter (R6), at 100000 it programs D(100000) (V25). -/
theorem test_open :
    let t := after (exec .openReq State.reset)
    t.core = idle.core ∧ t.handle = ⟨true, some 64#16, 400000, none⟩ ∧
      (after (exec .openReq (State.powerOn 5 { cfg with defaultRateHz := 100000 }))).core.freq = .known 0x01A36E2E#32 := by
  decide

/-- R235 reads `rate_hz` after BUF_SIZE: another requester's `set_speed(100000)` that falls between the read of BUF_SIZE and
the `set_speed(rate_hz)` of a second `open()` is not lost (V25 for the divider). -/
theorem test_open_reads_the_rate_at_its_call :
    let t := after (exec .openReq
      (idle.setAgenda (.fe 0 false :: .submit 1 ⟨3#4, 0, [], 0, 100000⟩ :: List.replicate 7 (.fe 1 false))))
    t.core.freq = .known 0x01A36E2E#32 ∧ t.handle.rateHz = 100000 ∧ t.log.answers = [(1, .done), (0, .done)] := by decide

/-- R94, R91: `enable()` on a busy core. -/
theorem test_enable :
    let k := (after (exec .enable (up [0x4001#16] none [0x00A0#16] true))).core
    k.en = true ∧ k.txq = [] ∧ k.rxq = [] ∧ k.trace = [.abort] := by decide

/-- P7: `disable()` keeps FREQ. -/
theorem test_disable :
    let k := (after (exec .disable idle)).core
    k.en = false ∧ k.freq = .known 0x068DB8BA#32 := by decide

/-- V25. -/
theorem test_set_speed : (after (exec (.setSpeed 100000) idle)).core.freq = .known 0x01A36E2E#32 := by decide

/-- V29. -/
theorem test_set_speed_out_of_range :
    (after (exec (.setSpeed 1000001) idle)).log.answers = [(0, .error (.contractViolation .speedOutOfRange))] := by decide

/-- V26. -/
theorem test_get_speed : (after (exec .getSpeed idle)).log.answers = [(0, .speed 399999)] := by decide

/-- V45. -/
theorem test_read_words : readWords cfg 0x00#7 2 = [0x8001#16, 0x2000#16, 0x7000#16] := by decide

/-- P6 (b): residue in the TX FIFO. -/
theorem test_read_bus_busy :
    (after (exec (.read 0x50 1) (up [0x0001#16] (some 0x80A0#16) [] false))).log.answers =
      [(0, .error (.busBusy .send))] := by decide

/-- V43. -/
theorem test_write_words :
    writeWords cfg 0x23#7 [0xAA#8, 0xBB#8, 0xCC#8] = [0x8046#16, 0x00AA#16, 0x00BB#16, 0x40CC#16] := by decide

/-- P7: a write that no response answers ends in Timeout. -/
theorem test_write_times_out : (after (exec (.write 0x50 [1#8]) idle)).log.answers = [(0, .error .timeout)] := by decide

/-- V47. -/
theorem test_write_and_read_words :
    writeAndReadWords cfg 0x68#7 [0x3B#8, 0x00#8] 3 =
      [0x80D0#16, 0x003B#16, 0x0000#16, 0x80D1#16, 0x2000#16, 0x2000#16, 0x7000#16] := by decide

/-- V51: nothing to read. -/
theorem test_write_and_read_out_of_range :
    (after (exec (.writeAndRead 0x50 [1#8] 0) idle)).log.answers =
      [(0, .error (.contractViolation .readLengthOutOfRange))] := by decide

/-- R160. -/
theorem test_get_cache_size : (after (exec .getCacheSize idle)).log.answers = [(0, .size 64)] := by decide

/-- R236. -/
theorem test_get_cache_size_unopened : refusalOf (exec .getCacheSize State.reset) = some (.notOpened .getCacheSize) := by
  decide

/-! ### Decoder (95 section 2.6) -/

/-- V60: the last byte's NACK is not seen. -/
theorem test_scan_stops_before_last :
    decodedAnswer 0x01#8 0x50#7 .write [0xA0#8, 0#8, 1#8, 0#8, 2#8, 1#8] 3 = .done := by decide

/-- V65. -/
theorem test_scan_finds_nack :
    decodedAnswer 0x01#8 0x50#7 (.writeAndRead 1) [0xA0#8, 0#8, 0x10#8, 0#8, 0xA1#8, 1#8, 0xFF#8, 0#8, 0xFF#8, 1#8] 5 =
      .error (.nack 0x50#7) := by decide

/-- V23. -/
theorem test_slice :
    decodedAnswer 0x01#8 0x68#7 (.writeAndRead 2)
      [0xD0#8, 0#8, 0x3B#8, 0#8, 0#8, 0#8, 0xD1#8, 0#8, 0xDE#8, 0#8, 0xAD#8, 0#8, 0xBE#8, 0#8] 7 =
      .bytes [0xDE#8, 0xAD#8, 0xBE#8] := by decide

/-! ### Register accesses (95 section 2.7) -/

/-- V72: a read of CONFIG. -/
theorem test_read_of_config : refusalOf (rawAccess (.read 0x00 .w8) idle) = some (.readOfWriteOnly .config) := by decide

/-- V72: FREQ at 16 bits. -/
theorem test_wrong_width : refusalOf (rawAccess (.read 0x04 .w16) idle) = some (.wrongWidth .freq .w16) := by decide

/-- R53's two rows on writes: RX_BUF at its own width, and TX_COUNT at another (log 29). -/
theorem test_write_of_read_only :
    refusalOf (rawAccess (.write 0x0C (.b16 0#16)) idle) = some (.writeOfReadOnly .rxBuf) ∧
      refusalOf (rawAccess (.write 0x10 (.b16 0#16)) idle) = some (.wrongWidth .txCount .w16) := by decide

/-- V72: offset 0x1C. -/
theorem test_no_register : refusalOf (rawAccess (.read 0x1C .w32) idle) = some (.noSuchRegister 0x1C) := by decide

/-- V70. -/
theorem test_tx_overflow :
    faultOf (rawAccess (.write 0x08 (.b16 1#16)) (up (List.replicate 64 0#16) none [] false)) = some .txOverflow := by
  decide

/-- V18. -/
theorem test_freq_while_enabled :
    (after (rawAccess (.write 0x04 (.b32 0x01A36E2E#32)) idle)).core.freq = .unspecified := by decide

/-! ### Witnesses: a state and operands for the hypotheses of every statement that has any -/

/-- A small controller: FIFOs of three words, so that the longest transfers are short. -/
def small (agenda : List Move) : State :=
  let c := { Config.standard with fifoDepth := 3 }
  { State.reset with
    cfg := c
    core := ⟨true, .known 0#32, .known 0#32, [], [], none, false, []⟩
    handle := ⟨true, some 3#16, 400000, none⟩
    env := { State.reset.env with agenda := agenda } }

/-- A controller whose requester 0 is inside its transfer, at the read of TX_COUNT. -/
def inside : State :=
  (idle.setLock (some 0)).putJob
    ⟨0, .read 0x50 1, [0x80A1#16, 0x7000#16], .b8 0#8, [], [.regRead 0x10 .w8, .checkEmpty .send, .release, .answer .done]⟩

/-- A controller whose requester 0 waits to take the lock. -/
def waiting (lock : Option Nat) : State :=
  (idle.setLock lock).putJob ⟨0, .read 0x50 1, [0x80A1#16, 0x7000#16], .b8 0#8, [], [.acquire, .release, .answer .done]⟩

theorem witness_DecodeOfEncode : cfg.WF := by decide

theorem witness_EncodeOfDecode :
    (Encoded.wellFormed cfg (.cw 0x80A0#16) = true ∧ decode cfg (.cw 0x80A0#16) = .ok (.start 0xA0#8)) ∧
    (Encoded.wellFormed cfg (.cfg 1#8) = true ∧ decode cfg (.cfg 1#8) = .ok .configEnable) ∧
    (Encoded.wellFormed cfg (.req ⟨8#4, 0, [], 0, 0⟩) = true ∧ decode cfg (.req ⟨8#4, 0, [], 0, 0⟩) = .ok .getCacheSize) := by
  decide

theorem witness_StepRunsDecodedInstruction :
    (let s := (up [] (some 0x80A0#16) [] false).setAgenda [.complete false 0#8]
     s.env.agenda = [.complete false 0#8] ∧ s.core.en = true ∧ s.core.cur = some 0x80A0#16 ∧
       decode s.cfg (.cw 0x80A0#16) = .ok (.start 0xA0#8)) ∧
    (let s := idle.setAgenda [.raw (.write 0 (.b8 1#8))]
     s.env.agenda = [.raw (.write 0 (.b8 1#8))] ∧ regAt s.cfg 0 = some .config ∧ decode s.cfg (.cfg 1#8) = .ok .configEnable) ∧
    (let s := idle.setAgenda [.submit 7 ⟨4#4, 0, [], 0, 0⟩]
     s.env.agenda = [.submit 7 ⟨4#4, 0, [], 0, 0⟩] ∧ decode s.cfg (.req ⟨4#4, 0, [], 0, 0⟩) = .ok .getSpeed) := by decide

theorem witness_StepMakesTheOtherMoves :
    (∃ j, inside.env.agenda = [] ∧ inside.jobs.find? (Job.canMove inside.handle.lock) = some j) ∧
    ((waiting (some 9)).env.agenda = [] ∧ ∀ j ∈ (waiting (some 9)).jobs, j.canMove (waiting (some 9)).handle.lock = false) ∧
    (idle.setAgenda [.fetch]).env.agenda = [.fetch] ∧
    (idle.setAgenda [.fe 0 true]).env.agenda = [.fe 0 true] ∧
    (idle.setAgenda [.raw (.read 0x18 .w16)]).env.agenda = [.raw (.read 0x18 .w16)] ∧
    ((idle.setAgenda [.raw (.write 0x08 (.b16 0#16))]).env.agenda = [.raw (.write 0x08 (.b16 0#16))] ∧
      regAt idle.cfg 0x08 ≠ some .config) := ⟨⟨_, rfl, rfl⟩, by decide, by decide, by decide, by decide, by decide⟩

theorem witness_StepStopsOnReservedEncodings :
    (let s := (up [] (some 0x9900#16) [] false).setAgenda [.complete false 0#8]
     s.env.agenda = [.complete false 0#8] ∧ s.core.en = true ∧ s.core.cur = some 0x9900#16 ∧
       hiByte 0x9900#16 ∉ s.cfg.opcodes) ∧
    (let s := idle.setAgenda [.raw (.write 0 (.b8 2#8))]
     s.env.agenda = [.raw (.write 0 (.b8 2#8))] ∧ regAt s.cfg 0 = some .config ∧ 2#8 ≠ s.cfg.cfgReset ∧ 2#8 ≠ s.cfg.cfgEnable) ∧
    (let s := idle.setAgenda [.submit 0 ⟨9#4, 0, [], 0, 0⟩]
     s.env.agenda = [.submit 0 ⟨9#4, 0, [], 0, 0⟩] ∧ 9 ≤ (9#4).toNat) := by decide

theorem witness_EngineRunsTheSameMeaning :
    let s := up [] (some 0x7000#16) [] true
    s.core.en = true ∧ s.core.cur = some 0x7000#16 ∧ decode s.cfg (.cw 0x7000#16) = .ok (.sendNackStop 0#8) := by decide

theorem witness_RawConfigWriteRunsTheSameMeaning :
    regAt idle.cfg 0x00 = some .config ∧ decode idle.cfg (.cfg 0#8) = .ok .configReset ∧
      decode idle.cfg (.cfg 1#8) = .ok .configEnable := by decide

theorem witness_StartResult :
    let s := up [] (some 0x80A0#16) [] false
    s.cfg.WF ∧ s.core.en = true ∧ s.core.cur = some (commandWord s.cfg .start 0xA0#8) ∧
      s.core.rxq.length ≠ s.cfg.fifoDepth := by decide

theorem witness_WaitAckResult :
    let s := up [] (some 0x0001#16) [0x00A0#16] true
    s.cfg.WF ∧ s.core.en = true ∧ s.core.cur = some (commandWord s.cfg .waitAck 0x01#8) ∧ s.core.busOwned = true ∧
      s.core.rxq.length ≠ s.cfg.fifoDepth := by decide

theorem witness_WaitAckStopResult :
    let s := up [] (some 0x4002#16) [0x00A0#16] true
    s.cfg.WF ∧ s.core.en = true ∧ s.core.cur = some (commandWord s.cfg .waitAckStop 0x02#8) ∧ s.core.busOwned = true ∧
      s.core.rxq.length ≠ s.cfg.fifoDepth := by decide

theorem witness_SendAckResult :
    let s := up [] (some 0x2055#16) [0x00A1#16] true
    s.cfg.WF ∧ s.core.en = true ∧ s.core.cur = some (commandWord s.cfg .sendAck 0x55#8) ∧ s.core.busOwned = true ∧
      s.core.rxq.length ≠ s.cfg.fifoDepth := by decide

theorem witness_SendNackStopResult :
    let s := up [] (some 0x7000#16) [0x00A1#16] true
    s.core.en = true ∧ s.core.cur = some (commandWord s.cfg .sendNackStop 0#8) ∧ s.core.busOwned = true ∧
      s.core.rxq.length ≠ s.cfg.fifoDepth := by decide

theorem witness_WordOutOfFrameFaults :
    let s := up [] (some 0x0001#16) [] false
    CwOp.waitAck ≠ .start ∧ s.core.en = true ∧ s.core.cur = some (commandWord s.cfg .waitAck 0x01#8) ∧
      s.core.busOwned = false := by decide

theorem witness_RxFifoFullFaults :
    (let s := up [] (some 0x80A0#16) (List.replicate 64 0#16) false
     s.core.en = true ∧ s.core.cur = some (commandWord s.cfg .start 0xA0#8) ∧ (CwOp.start = .start ∨ s.core.busOwned = true) ∧
       s.core.rxq.length = s.cfg.fifoDepth) ∧
    (let s := up [] (some 0x0001#16) (List.replicate 64 0#16) true
     s.core.en = true ∧ s.core.cur = some (commandWord s.cfg .waitAck 0x01#8) ∧
       (CwOp.waitAck = .start ∨ s.core.busOwned = true) ∧ s.core.rxq.length = s.cfg.fifoDepth) := by decide

theorem witness_WordNotInFlightWaits :
    (State.reset.core.en = false ∨ State.reset.core.cur ≠ some (commandWord cfg .start 0#8)) ∧
    (idle.core.en = false ∨ idle.core.cur ≠ some (commandWord cfg .start 0#8)) := by decide

theorem witness_FetchTakesTheOldestWord :
    (let s := up [0x80A0#16, 0x0001#16] none [] false
     s.core.en = true ∧ s.core.cur = none ∧ s.core.txq = [0x80A0#16, 0x0001#16]) ∧
    (idle.core.en = false ∨ idle.core.cur ≠ none ∨ idle.core.txq = []) := by decide

theorem witness_ReadsThatChangeNothing :
    let s := up (List.replicate 64 0#16) none [1#16] false
    s.cfg.WF ∧ coreInv s.cfg s.core := by decide

theorem witness_FreqWriteLatches :
    idle.cfg.WF ∧ State.reset.core.en = false ∧ idle.core.en = true := by decide

theorem witness_TxBufWritePushes :
    idle.cfg.WF ∧ State.reset.core.en = false ∧
    (let s := up (List.replicate 64 0#16) none [] false
     s.core.en = true ∧ s.core.txq.length = s.cfg.fifoDepth) ∧
    (let s := up (List.replicate 63 0#16) none [] false
     s.core.en = true ∧ s.core.txq.length ≠ s.cfg.fifoDepth) := by decide

theorem witness_RxBufReadPops :
    idle.cfg.WF ∧ idle.core.rxq = [] ∧ (up [] none [0x00A0#16] false).core.rxq = [0x00A0#16] := by decide

theorem witness_OtherAccessesRefused :
    idle.cfg.WF ∧
    (∀ r ∈ [Reg.freq, .rxBuf, .txCount, .rxCount, .bufSize], ¬(0x04 = regOffset idle.cfg r ∧ Width.w16 = regWidth r)) ∧
    (∀ r ∈ [Reg.config, .freq, .txBuf], ¬(0x14 = regOffset idle.cfg r ∧ regValWidth (.b8 0#8) = regWidth r)) := by decide

theorem witness_EnableResult : idle.cfg.WF ∧ quiet idle := by decide

theorem witness_DisableResult : idle.cfg.WF ∧ quiet idle := by decide

theorem witness_EnableAndDisableIdempotent :
    idle.cfg.WF ∧ quiet idle ∧ (Instr.disable = .enable ∨ Instr.disable = .disable) := by decide

theorem witness_SetSpeedResult :
    idle.cfg.WF ∧ quiet idle ∧ (0 < 1 ∧ 1 ≤ idle.cfg.maxRate) ∧ (0 < 1000000 ∧ 1000000 ≤ idle.cfg.maxRate) := by decide

theorem witness_SetSpeedOutOfRangeRaises :
    quiet idle ∧ ((0 : Int) ≤ 0 ∨ (idle.cfg.maxRate : Int) < 0) ∧
      ((1000001 : Int) ≤ 0 ∨ (idle.cfg.maxRate : Int) < 1000001) := by decide

theorem witness_GetSpeedResult : State.reset.cfg.WF ∧ quiet State.reset := by decide

theorem witness_SpeedRoundTrip :
    idle.cfg.WF ∧ quiet idle ∧ (0 < 1 ∧ 1 ≤ idle.cfg.maxRate) ∧ (0 < 1000000 ∧ 1000000 ≤ idle.cfg.maxRate) ∧
      idle.cfg = Config.standard := by decide

theorem witness_OpenResult :
    State.reset.cfg.WF ∧ quiet State.reset ∧ State.reset.handle.rateHz = (400000 : Nat) ∧ 0 < 400000 ∧
      400000 ≤ State.reset.cfg.maxRate ∧ { cfg with defaultRateHz := 100000 }.WF := by decide

theorem witness_OpenOutOfRangeRaises :
    (let s := State.reset.setHandle ⟨false, none, 0, none⟩
     s.cfg.WF ∧ quiet s ∧ (s.handle.rateHz ≤ 0 ∨ s.cfg.maxRate < s.handle.rateHz)) ∧
    (let s := State.reset.setHandle ⟨false, none, 1000001, none⟩
     s.cfg.WF ∧ quiet s ∧ (s.handle.rateHz ≤ 0 ∨ s.cfg.maxRate < s.handle.rateHz)) := by decide

theorem witness_GetCacheSizeResult :
    quiet idle ∧ idle.handle.opened = true ∧ idle.handle.cacheSize = some 64#16 := by decide

theorem witness_BeforeOpenRefused :
    State.reset.handle.opened = false ∧ State.reset.hasJob State.reset.env.client = false ∧
      (isTransfer (.write 0 []) = true ∨ Request.write 0 [] = .getCacheSize) ∧
      (isTransfer .getCacheSize = true ∨ Request.getCacheSize = .getCacheSize) := by decide

/-- The longest `write` of the small controller, its last byte NACKed. -/
theorem witness_WriteResult :
    let bus := [(false, 0#8), (false, 0#8), (true, 0#8)]
    let s := small (loadMoves 0 3 ++ engineMoves bus)
    s.cfg.WF ∧ coreIdle s.core ∧ s.handle.lock = none ∧ s.hasJob s.env.client = false ∧
      acceptedAndFits s (.write 0x7F [1#8, 2#8]) ∧ bus.length = [1#8, 2#8].length + 1 ∧
      s.env.agenda = loadMoves s.env.client ([1#8, 2#8].length + 1) ++ engineMoves bus := by decide

/-- The longest `read` of the small controller. -/
theorem witness_ReadResult :
    let got := [(false, 0x11#8), (true, 0x22#8)]
    let s := small (loadMoves 0 3 ++ engineMoves ((false, 0#8) :: got))
    s.cfg.WF ∧ coreIdle s.core ∧ s.handle.lock = none ∧ s.hasJob s.env.client = false ∧
      acceptedAndFits s (.read 0 2) ∧ (got.length : Int) = 2 ∧
      s.env.agenda = loadMoves s.env.client (got.length + 1) ++ engineMoves ((false, 0#8) :: got) := by decide

/-- The longest `write_and_read` of the small controller, with no byte to write. -/
theorem witness_WriteAndReadResult :
    let out := [(false, 0#8)]
    let got := [(true, 0x22#8)]
    let s := small (loadMoves 0 3 ++ engineMoves (out ++ (false, 0#8) :: got))
    s.cfg.WF ∧ coreIdle s.core ∧ s.handle.lock = none ∧ s.hasJob s.env.client = false ∧
      acceptedAndFits s (.writeAndRead 0x50 [] 1) ∧ out.length = ([] : List Byte).length + 1 ∧ (got.length : Int) = 1 ∧
      s.env.agenda =
        loadMoves s.env.client (([] : List Byte).length + got.length + 2) ++ engineMoves (out ++ (false, 0#8) :: got) := by
  decide

theorem witness_EveryTransferEndsIdle :
    let s := small [.fe 0 false, .fetch, .complete true 0#8, .fe 0 true]
    s.cfg.WF ∧ coreIdle s.core ∧ s.handle.lock = none ∧ s.hasJob s.env.client = false ∧
      acceptedAndFits s (.read 0x50 2) ∧ (∀ m ∈ s.env.agenda, m.ownOrEngine s.env.client = true) := by decide

theorem witness_ContractViolationTouchesNothing :
    quiet idle ∧ idle.handle.opened = true ∧ idle.handle.cacheSize = some 64#16 ∧
      (isTransfer (.read (-1) 1) = true ∧ inContract 64#16 (.read (-1) 1) = false) ∧
      (isTransfer (.read 0x50 65) = true ∧ inContract 64#16 (.read 0x50 65) = false) ∧
      (isTransfer (.write 0x80 []) = true ∧ inContract 64#16 (.write 0x80 []) = false) ∧
      (isTransfer (.writeAndRead 0x50 [] 0) = true ∧ inContract 64#16 (.writeAndRead 0x50 [] 0) = false) := by decide

/-- One word too many. -/
theorem witness_TransferTooLongRaises :
    let s := small []
    quiet s ∧ s.handle.opened = true ∧ s.handle.cacheSize = some 3#16 ∧ inContract 3#16 (.read 0x50 3) = true ∧
      s.handle.lock = none ∧ (3#16).toNat < (requestWords s.cfg (.read 0x50 3)).length := by decide

theorem witness_BusBusySendRaises :
    let s := up [0x0001#16] (some 0x80A0#16) [] false
    s.cfg.WF ∧ quiet s ∧ acceptedAndFits s (.read 0x50 1) ∧ s.handle.lock = none ∧ coreInv s.cfg s.core ∧
      s.core.txq ≠ [] := by decide

theorem witness_BusBusyReceiveRaises :
    let s := up [] none [0x00A0#16, 0x0001#16] false
    s.cfg.WF ∧ quiet s ∧ acceptedAndFits s (.read 0x50 1) ∧ s.handle.lock = none ∧ coreInv s.cfg s.core ∧
      s.core.txq = [] ∧ s.core.rxq ≠ [] := by decide

theorem witness_NoResponseTimesOut :
    idle.cfg.WF ∧ quiet idle ∧ acceptedAndFits idle (.write 0x50 [1#8]) ∧ idle.handle.lock = none ∧ idle.core.txq = [] ∧
      idle.core.rxq = [] := by decide

/-- The clauses of one poll round: with the count `r` read, this job of two words is at the test. -/
def polling (r : BitVec 8) : State :=
  idle.putJob ⟨0, .read 0x50 1, [0x80A1#16, 0x7000#16], .b8 r, [], [.poll, .release, .answer .done]⟩

theorem witness_NoResponseTimesOut_poll :
    (∃ j, findJob 0 (polling 2#8).jobs = some j ∧ j.todo = [.poll, .release, .answer .done] ∧
      regValNat j.val = j.cw.length) ∧
    (∃ j, findJob 0 (polling 1#8).jobs = some j ∧ j.todo = [.poll, .release, .answer .done] ∧
      regValNat j.val ≠ j.cw.length) ∧
    (∃ j, findJob 0 (polling 3#8).jobs = some j ∧ j.todo = [.poll, .release, .answer .done] ∧
      regValNat j.val ≠ j.cw.length) :=
  ⟨⟨_, rfl, rfl, by decide⟩, ⟨_, rfl, rfl, by decide⟩, ⟨_, rfl, rfl, by decide⟩⟩

/-- The same on a core that `disable()` has left (P7). -/
theorem witness_NoResponseTimesOut_disabled :
    let s := idle.setCore ⟨false, .known 0#32, .known 0#32, [], [], none, false, []⟩
    s.cfg.WF ∧ quiet s ∧ acceptedAndFits s (.write 0x50 [1#8]) ∧ s.handle.lock = none ∧ s.core.txq = [] ∧
      s.core.rxq = [] := by decide

theorem witness_TransferWaitsForTheLock :
    let s := idle.setLock (some 9)
    quiet s ∧ accepted s (.read 0x50 1) ∧ s.handle.lock = some 9 := by
  refine ⟨by decide, ⟨by decide, 64#16, by decide, by decide⟩, by decide⟩

/-- The wait ends: requester 0 is inside its transfer, requester 9 waits behind it, and no move is left. -/
theorem witness_TransferWaitsForTheLock_ends :
    let s := inside.putJob ⟨9, .read 0x50 1, [], .b8 0#8, [], [.acquire, .release, .answer .done]⟩
    s.cfg.WF ∧ lockInv s ∧ s.env.agenda = [] ∧ (s.jobs.map Job.rid) = [9, 0] ∧
      (after (runSteps 7 s)).jobs = [] ∧ (after (runSteps 7 s)).log.answers = [(0, .done), (9, .done)] := by decide

theorem witness_LockIsTakenFreeAndGivenBack :
    (∃ j, findJob 0 (waiting none).jobs = some j ∧ j.todo = [.acquire, .release, .answer .done]) ∧
      (waiting none).handle.lock = none ∧ (waiting (some 9)).handle.lock ≠ none :=
  ⟨⟨_, rfl, rfl⟩, by decide, by decide⟩

/-- The clause on `release`. -/
theorem witness_LockIsTakenFreeAndGivenBack_release :
    let s := (idle.setLock (some 0)).putJob ⟨0, .read 0x50 1, [], .b8 0#8, [], [.release, .answer .done]⟩
    ∃ j, findJob 0 s.jobs = some j ∧ j.todo = [.release, .answer .done] ∧ s.handle.lock = some 0 := ⟨_, rfl, rfl, rfl⟩

theorem witness_StepKeepsLockInv :
    let s := (waiting none).setAgenda [.fe 0 false]
    s.cfg.WF ∧ lockInv s ∧ ∃ t, step s = .next t ∧ t.handle.lock = some 0 :=
  ⟨by decide, by decide, _, rfl, by decide⟩

theorem witness_TransferAccessNeedsTheLock :
    lockInv inside ∧ ∃ t e, move (.fe 0 false) inside = .next t ∧ t.log.accesses = inside.log.accesses ++ [e] ∧
      transferReg (eventReg e) = true :=
  ⟨by decide, _, .read (.fe 0) .txCount (.b8 0#8), rfl, by decide, by decide⟩

theorem witness_StepKeepsCoreInv :
    let s := (up [] (some 0x80A0#16) [] false).setAgenda [.complete false 0#8]
    coreInv s.cfg s.core ∧ ∃ t, step s = .next t ∧ t.core.busOwned = true :=
  ⟨by decide, _, rfl, by decide⟩

theorem witness_WordsAreConserved :
    ∃ t, move (.raw (.write 0x08 (.b16 0x80A0#16))) idle = .next t ∧ wordsHeld t.core = 1 := ⟨_, rfl, by decide⟩

theorem witness_ParametersFixedHistoriesGrow :
    ∃ t, step (idle.setAgenda [.raw (.read 0x18 .w16)]) = .next t ∧ t.log.accesses.length = 1 := ⟨_, rfl, by decide⟩

theorem witness_MarksAreNeverCleared :
    ({ Marked.reset with faulted := some .rxUnderflow } : Marked).clear = false ∧
    step (idle.setAgenda [.raw (.read 0x0C .w16)]) = .fault .rxUnderflow ∧
    step (idle.setAgenda [.raw (.read 0x00 .w8)]) = .refused (.readOfWriteOnly .config) ∧
    step State.reset = .next State.reset := ⟨by decide, rfl, rfl, rfl⟩

theorem witness_ControllersShareNothing : ∃ p, platformStep 1 ⟨cfg, [(2, idle)]⟩ = .next p ∧ 2 ≠ 1 := ⟨_, rfl, by decide⟩

theorem witness_EncoderBuildsTheSequences :
    0 < 1 ∧ [1#8] ≠ [] ∧ ((0 : Int) ≤ 0 ∧ (0 : Int) ≤ 0x7F) ∧ ((0 : Int) ≤ 0x7F ∧ (0x7F : Int) ≤ 0x7F) := by decide

theorem witness_ScanCoversAllButTheLastPair : [0xA0#8, 0#8, 1#8, 1#8].length = 2 * 2 := by decide

theorem witness_ExtractionsKeepTheDataBytes :
    [0xA0#8, 0#8, 1#8, 1#8].length = 2 * 2 ∧ scanFindsNack 1#8 [0xA0#8, 0#8, 1#8, 1#8] 2 = false := by decide

theorem witness_DividerFitsTheRegister :
    cfg.WF ∧ (0 < 1 ∧ 1 ≤ cfg.maxRate) ∧ (0 < 1000000 ∧ 1000000 ≤ cfg.maxRate) := by decide

end Sys2Proof.Tests
end

section
/-! SUPPORT. The step of the machine by the move at the head of the agenda (spec/00_scope.md R3). -/

namespace Sys2Proof.Machine

variable {s : State} {ms : List Move}

@[simp] theorem runFetched_instr (i : Instr) (t : State) : runFetched (.instr i t) = exec i t := rfl

@[simp] theorem runFetched_other (x : Res State) : runFetched (.other x) = x := rfl

@[simp] theorem decodedStep_ok (i : Instr) (t : State) : decodedStep (.ok i) t = .instr i t := rfl

/-- With no move left the outstanding requests go on. -/
theorem step_of_nil (h : s.env.agenda = []) : step s = settle s := by
  simp [step_eq, fetchNext, h]

theorem step_of_fetch (h : s.env.agenda = .fetch :: ms) : step s = .next (engFetch (s.setAgenda ms)) := by
  simp [step_eq, fetchNext, h, move]

theorem step_of_fe {r : Nat} {passed : Bool} (h : s.env.agenda = .fe r passed :: ms) :
    step s = feStep r passed (s.setAgenda ms) := by
  simp [step_eq, fetchNext, h, move]

theorem step_of_complete {ack : Bool} {data : Byte} (h : s.env.agenda = .complete ack data :: ms) :
    step s = runFetched (fetchWordInFlight ((s.setAgenda ms).setBus ack data)) := by
  simp [step_eq, fetchNext, h]

theorem step_of_raw {a : Access} (h : s.env.agenda = .raw a :: ms) :
    step s = runFetched (fetchRaw a (s.setAgenda ms)) := by
  simp [step_eq, fetchNext, h]

theorem step_of_submit {r : Nat} {q : ReqRecord} (h : s.env.agenda = .submit r q :: ms) :
    step s = runFetched (decodedStep (decode s.cfg (.req q)) ((s.setAgenda ms).setClient r)) := by
  simp [step_eq, fetchNext, h]

/-- ENG's complete step decodes the word in flight on an enabled core (41 R113). -/
theorem fetchWordInFlight_of_cur {w : Word} (he : s.core.en = true) (hc : s.core.cur = some w) :
    fetchWordInFlight s = decodedStep (decode s.cfg (.cw w)) s := by
  simp [fetchWordInFlight, he, hc]

/-- A byte that a RAW host writes to CONFIG is decoded (20 R42). -/
theorem fetchRaw_config {off : Nat} {v : Byte} (h : regAt s.cfg off = some .config) :
    fetchRaw (.write off (.b8 v)) s = decodedStep (decode s.cfg (.cfg v)) s := by
  simp [fetchRaw, h]

/-- A RAW write of any other register is the access itself, whatever its width. -/
theorem fetchRaw_write_of_ne {off : Nat} (v : RegVal) (h : regAt s.cfg off ≠ some .config) :
    fetchRaw (.write off v) s = .other (rawAccess (.write off v) s) := by
  cases v with
  | b8 b => simp [fetchRaw, h]
  | b16 w => rfl
  | b32 d => rfl

/-- The first outstanding request that can move is the one that takes its step (log 28). -/
theorem settle_of_find {j : Job} (h : s.jobs.find? (Job.canMove s.handle.lock) = some j) :
    settle s = feStep j.rid true s := by
  simp [settle, h]

/-- When no outstanding request can move nothing happens. -/
theorem settle_of_stuck (h : ∀ j ∈ s.jobs, j.canMove s.handle.lock = false) : settle s = .next s := by
  have hn : s.jobs.find? (Job.canMove s.handle.lock) = none := by simpa using h
  simp [settle, hn]

/-! ### Reset -/

/-- CORE is empty and disabled after power-on reset (10 R21, R33). -/
theorem coreInv_powerOn (k : Nat) (c : Config) : coreInv c (State.powerOn k c).core :=
  ⟨Nat.zero_le _, Nat.zero_le _, fun _ => ⟨rfl, rfl, rfl, rfl⟩⟩

/-- Without jobs a free lock meets the lock's invariant. -/
theorem lockInv_of_no_jobs (hj : s.jobs = []) (hl : s.handle.lock = none) : lockInv s := by
  simp [lockInv, hj, hl]

theorem lockInv_powerOn (k : Nat) (c : Config) : lockInv (State.powerOn k c) := lockInv_of_no_jobs rfl rfl

/-- The spec's defaults meet the constraints of 00 R6. -/
theorem standard_wf : Config.standard.WF := by decide

end Sys2Proof.Machine
end

section
/-! SUPPORT. The divider (spec/40_config_and_clock.md R97), and `set_speed` and `open()` running alone (40 R96, 70 R235). -/

namespace Sys2Proof.Machine

/-- A legal frequency's divider is below `2 ^ 32`, since `8 * MAX_RATE < BUS_CLOCK_HZ` (00 R6). -/
theorem dividerNat_lt {c : Config} (h : c.WF) {f : Nat} (hf : f ≤ c.maxRate) : dividerNat c f < 2 ^ 32 := by
  obtain ⟨-, ⟨hb, -⟩, -⟩ := h
  have hlt : f * 8 < c.busClockHz := by omega
  refine Nat.div_lt_of_lt_mul ?_
  exact Nat.mul_lt_mul_of_pos_right hlt (by decide)

/-- The 32-bit divider of a legal frequency is the exact quotient (40 R97). -/
theorem toNat_divider {c : Config} (h : c.WF) {f : Nat} (hf : f ≤ c.maxRate) :
    (divider c f).toNat = f * 8 * 2 ^ 32 / c.busClockHz := by
  rw [divider, Int.toNat_natCast, BitVec.toNat_ofNat, Nat.mod_eq_of_lt (dividerNat_lt h hf), dividerNat]

theorem speedInRange_natCast {c : Config} {f : Nat} (h0 : 0 < f) (hf : f ≤ c.maxRate) :
    speedInRange c (f : Int) = true := by
  simp [speedInRange, h0, hf]

/-- The configured rate after power-on reset is a legal one (00 R6). -/
theorem defaultRate_legal {c : Config} (h : c.WF) : 0 < c.defaultRateHz ∧ c.defaultRateHz ≤ c.maxRate := by
  obtain ⟨-, -, ⟨-, h0, hm⟩, -⟩ := h
  exact ⟨h0, hm⟩

/-- The FIFO depth fits BUF_SIZE (00 R6). -/
theorem toNat_ofNat_fifoDepth {c : Config} (h : c.WF) : (BitVec.ofNat 16 c.fifoDepth).toNat = c.fifoDepth := by
  obtain ⟨⟨-, hd⟩, -⟩ := h
  rw [BitVec.toNat_ofNat, Nat.mod_eq_of_lt (by omega)]

/-- The CORE that `set_speed` leaves: recovered, with the divider latched (40 R96). -/
abbrev retuned (d : BitVec 32) (k : CoreState) : CoreState :=
  { recovered k with freq := .known d, divActive := .known d }

/-- RESET, the FREQ write on the core it has disabled, then `enable()`: the second RESET finds nothing to abort. -/
theorem recovered_coreWriteFreq_coreReset (d : BitVec 32) (k : CoreState) :
    recovered (coreWriteFreq d (coreReset k)) = retuned d k := by
  have ht : (coreReset k).trace = (recovered k).trace := by
    rw [← coreEnable_coreReset, coreEnable]
  calc recovered (coreWriteFreq d (coreReset k))
      = { retuned d k with trace := (coreReset k).trace } := rfl
    _ = retuned d k := by rw [ht]

/-- The two accesses of `enable()`, in order (40 R94). -/
def enableAccesses (who : Actor) (c : Config) : List RegEvent :=
  [.write who .config (.b8 c.cfgReset), .write who .config (.b8 c.cfgEnable)]

/-- The four accesses of `set_speed(f)`, in order (40 R96). -/
def setSpeedAccesses (who : Actor) (c : Config) (f : Int) : List RegEvent :=
  [.write who .config (.b8 c.cfgReset), .write who .freq (.b32 (divider c f))] ++ enableAccesses who c

/-- The state after accesses: CORE as given, these accesses recorded. -/
def State.accessedAll (s : State) (k : CoreState) (es : List RegEvent) : State :=
  { s with core := k, log := { s.log with accesses := s.log.accesses ++ es } }

/-- The state after the steps of `set_speed(f)`, its answer aside (40 R96). -/
def State.speedSet (s : State) (who : Actor) (f : Int) : State :=
  (s.accessedAll (retuned (divider s.cfg f) s.core) (setSpeedAccesses who s.cfg f)).setHandle
    { s.handle with rateHz := f }

section Scripts

variable {c : Config} {s t : State} {r : Nat} {q : Request} {cw : List Word} {val : RegVal} {resp : List Byte}
  {rest : List Act} {n : Nat}

/-- A register write of a request that runs alone. -/
theorem runAlone_regWrite {off : Nat} {v : RegVal} (h : regWrite (.fe r) off v s = .next t) :
    runAlone r (n + 1) (s.putJob ⟨r, q, cw, val, resp, .regWrite off v :: rest⟩) =
      runAlone r n (t.putJob ⟨r, q, cw, val, resp, rest⟩) := by
  simp [runAlone_cons, runAct, h]

/-- A register read of a request that runs alone; the value read is kept. -/
theorem runAlone_regRead {off : Nat} {w : Width} {v : RegVal} (h : regRead (.fe r) off w s = .next (v, t)) :
    runAlone r (n + 1) (s.putJob ⟨r, q, cw, val, resp, .regRead off w :: rest⟩) =
      runAlone r n (t.putJob ⟨r, q, cw, v, resp, rest⟩) := by
  simp [runAlone_cons, runAct, h]

/-- The range check of `set_speed` passes (40 R96). -/
theorem runAlone_checkSpeed {f : Int} (h : speedInRange s.cfg f = true) :
    runAlone r (n + 1) (s.putJob ⟨r, q, cw, val, resp, .checkSpeed f :: rest⟩) =
      runAlone r n (s.putJob ⟨r, q, cw, val, resp, rest⟩) := by
  simp [runAlone_cons, runAct, h]

/-- The assignment of `rate_hz` in a request that runs alone. -/
theorem runAlone_setRate (f : Int) :
    runAlone r (n + 1) (s.putJob ⟨r, q, cw, val, resp, .setRate f :: rest⟩) =
      runAlone r n ((s.setHandle { s.handle with rateHz := f }).putJob ⟨r, q, cw, val, resp, rest⟩) := by
  simp [runAlone_cons, runAct]

/-- The script of `enable()`, wherever it stands in a request that runs alone: two steps (40 R94). -/
theorem runAlone_enableScript (h : c.WF) (hc : s.cfg = c) :
    runAlone r (n + 2) (s.putJob ⟨r, q, cw, val, resp, enableScript c ++ rest⟩) =
      runAlone r n ((s.accessedAll (recovered s.core) (enableAccesses (.fe r) c)).putJob
        ⟨r, q, cw, val, resp, rest⟩) := by
  have h1 := regWrite_reset (.fe r) h hc
  have h2 := regWrite_enable (s := afterWrite (.fe r) .config (.b8 c.cfgReset) (coreReset s.core) s) (.fe r) h hc
  rw [enableScript, List.cons_append, List.cons_append, List.nil_append, runAlone_regWrite h1,
    runAlone_regWrite h2]
  simp [State.accessedAll, enableAccesses, State.setCore, State.logAccess]

/-- The script of `set_speed` with a frequency in range, wherever it stands in a request that runs alone: six steps
(40 R96). -/
theorem runAlone_setSpeedScript (h : c.WF) (hc : s.cfg = c) {f : Int} (hf : speedInRange c f = true) :
    runAlone r (n + 6) (s.putJob ⟨r, q, cw, val, resp, setSpeedScript c f ++ rest⟩) =
      runAlone r n ((s.speedSet (.fe r) f).putJob ⟨r, q, cw, val, resp, rest⟩) := by
  have h1 := regWrite_reset (.fe r) h hc
  have h2 := regWrite_freq (s := afterWrite (.fe r) .config (.b8 c.cfgReset) (coreReset s.core) s) (.fe r) h hc
    (divider c f)
  have hscript : setSpeedScript c f ++ rest = .checkSpeed f :: .regWrite c.offConfig (.b8 c.cfgReset) ::
      .regWrite c.offFreq (.b32 (divider c f)) :: (enableScript c ++ .setRate f :: rest) := by
    simp [setSpeedScript, disableScript]
  rw [hscript, runAlone_checkSpeed (hc ▸ hf), runAlone_regWrite h1,
    runAlone_regWrite h2, runAlone_enableScript h, runAlone_setRate]
  · simp [State.speedSet, State.accessedAll, setSpeedAccesses, State.setCore, State.logAccess,
      recovered_coreWriteFreq_coreReset, hc]
  · exact hc

end Scripts

/-- The state of `open()` at its call of `set_speed`: BUF_SIZE has been read and kept as `cache_size` (70 R235). -/
def State.depthKept (s : State) : State :=
  (afterRead (.fe s.env.client) .bufSize (.b16 (BitVec.ofNat 16 s.cfg.fifoDepth)) s.core s.drawn).setHandle
    { s.handle with cacheSize := some (BitVec.ofNat 16 s.cfg.fifoDepth) }

variable {s : State}

/-- `open()` with no other agent moving, up to its call of `set_speed` with the configured rate (70 R235). -/
theorem exec_openReq_eq (h : s.cfg.WF) (hq : quiet s) :
    exec .openReq s = runAlone s.env.client 12 (s.depthKept.putJob
      ⟨s.env.client, .openReq, [], .b16 (BitVec.ofNat 16 s.cfg.fifoDepth), [],
        setSpeedScript s.cfg s.handle.rateHz ++ [.setOpened, .answer .done]⟩) := by
  have hread := regRead_bufSize (s := s.drawn) (.fe s.env.client) h rfl
  calc exec .openReq s
      = runAlone s.env.client 15 (s.drawn.putJob (newJob s.env.client .openReq ⟨[], openScript s.cfg⟩)) :=
        runRequest_quiet hq _ _
    _ = _ := by
      rw [newJob, openScript, runAlone_regRead hread]
      simp [runAlone_cons, runAct, regValWord, State.depthKept]

/-- The end of `open()`, after the steps of `set_speed`. -/
theorem runAlone_openEnd {r : Nat} {q : Request} {cw : List Word} {val : RegVal} {resp : List Byte} {n : Nat} :
    runAlone r (n + 2) (s.putJob ⟨r, q, cw, val, resp, [.setOpened, .answer .done]⟩) =
      .next (deliver r .done (s.setHandle { s.handle with opened := true })) := by
  simp [runAlone_cons, runAct, deliver_putJob_mk]

/-- `open()` with a configured rate in range, no other agent moving (70 R235). -/
theorem exec_openReq_inRange (h : s.cfg.WF) (hq : quiet s) (hf : speedInRange s.cfg s.handle.rateHz = true) :
    exec .openReq s = .next (s.answered (retuned (divider s.cfg s.handle.rateHz) s.core)
      { s.handle with opened := true, cacheSize := some (BitVec.ofNat 16 s.cfg.fifoDepth) } (s.env.draws + 2)
      (.read (.fe s.env.client) .bufSize (.b16 (BitVec.ofNat 16 s.cfg.fifoDepth)) ::
        setSpeedAccesses (.fe s.env.client) s.cfg s.handle.rateHz) .done) := by
  rw [exec_openReq_eq h hq, runAlone_setSpeedScript (s := s.depthKept) h rfl hf, runAlone_openEnd,
    Host.Outcome.next.injEq]
  apply eq_answered hq.2
  all_goals simp [State.speedSet, State.accessedAll, State.depthKept]

end Sys2Proof.Machine
end

section
/-! PROOFS. The statements of spec/00_scope.md. -/

open Sys2Proof Sys2Proof.Machine

/-- Settles O33: the run of `open()` alone, with the divider and the depth read as numbers; power-on reset is quiet and its
configured rate in range. -/
theorem openResult : Obligations.OpenResult := by
  unfold Obligations.OpenResult
  refine ⟨fun k c h => ?_, fun s f h hq hr h0 hf => ?_⟩
  · obtain ⟨h0, hf⟩ := defaultRate_legal h
    exact ⟨_, exec_openReq_inRange h (State.powerOn_quiet k c) (speedInRange_natCast h0 hf), rfl, rfl,
      divider c c.defaultRateHz, toNat_divider h hf, rfl, rfl⟩
  · have he := exec_openReq_inRange h hq (hr ▸ speedInRange_natCast h0 hf)
    exact ⟨BitVec.ofNat 16 s.cfg.fifoDepth, divider s.cfg f, toNat_ofNat_fifoDepth h, toNat_divider h hf, hr ▸ he⟩

/-- Settles O5: each of the three moves fetches the decoding of what it brings. -/
theorem stepRunsDecodedInstruction : Obligations.StepRunsDecodedInstruction := by
  unfold Obligations.StepRunsDecodedInstruction
  intro s ms i
  refine ⟨fun ack data w ha he hc hd => ?_, fun off v ha hr hd => ?_, fun r q ha hd => ?_⟩
  · have hw := fetchWordInFlight_of_cur (s := (s.setAgenda ms).setBus ack data) he hc
    simp [step_of_complete ha, hw, hd]
  · have hw := fetchRaw_config (s := s.setAgenda ms) (v := v) hr
    simp [step_of_raw ha, hw, hd]
  · simp [step_of_submit ha, hd]

/-- Settles O6: each of the other moves fetches itself, and an empty agenda the choice of `settle`. -/
theorem stepMakesTheOtherMoves : Obligations.StepMakesTheOtherMoves := by
  unfold Obligations.StepMakesTheOtherMoves
  intro s ms
  refine ⟨fun j ha hj => ?_, fun ha hj => ?_, step_of_fetch, fun r passed => step_of_fe, fun off w => step_of_raw,
    fun off v ha hr => ?_⟩
  · rw [step_of_nil ha, settle_of_find hj]
  · rw [step_of_nil ha, settle_of_stuck hj]
  · have hw := fetchRaw_write_of_ne (s := s.setAgenda ms) v hr
    rw [step_of_raw ha, hw, runFetched_other]

/-- Settles O51: power-on reset leaves CORE empty and disabled, no job and a free lock, whatever the parameters. -/
theorem resetMeetsTheInvariants : Obligations.ResetMeetsTheInvariants := by
  unfold Obligations.ResetMeetsTheInvariants
  exact ⟨fun k c => ⟨coreInv_powerOn k c, lockInv_powerOn k c⟩, standard_wf, coreInv_powerOn _ _, lockInv_powerOn _ _⟩

end

section
/-! SUPPORT. What one atomic operation of any agent does to CORE and to the histories, said once (spec/00_scope.md R3,
10_state.md R20, R21, R23): the invariants of 10_state.md are case analyses of it. -/

namespace Sys2Proof.Machine

/-- What one atomic operation makes of CORE, and the register accesses it records: ENG's two steps (41 R112, R113), an
access of each kind (20 R42 to R49), or nothing. -/
inductive CoreEffect (c : Config) (k : CoreState) : CoreState → List RegEvent → Prop
  | idle : CoreEffect c k k []
  | fetched (w : Word) (ws : List Word) (he : k.en = true) (hn : k.cur = none) (hq : k.txq = w :: ws) :
    CoreEffect c k { k with cur := some w, txq := ws } []
  | completed (w rw : Word) (evs : List BusEvent) (owned : Bool) (he : k.en = true) (hw : k.cur = some w)
    (hr : k.rxq.length ≠ c.fifoDepth) :
    CoreEffect c k { k with trace := k.trace ++ evs, rxq := k.rxq ++ [rw], busOwned := owned, cur := none } []
  | reset (who : Actor) (v : RegVal) : CoreEffect c k (coreReset k) [.write who .config v]
  | enabled (who : Actor) (v : RegVal) : CoreEffect c k (coreEnable k) [.write who .config v]
  | retimed (who : Actor) (v : RegVal) (f : Latched) :
    CoreEffect c k { k with freq := f, divActive := f } [.write who .freq v]
  | discarded (who : Actor) (v : RegVal) (he : k.en = false) : CoreEffect c k k [.write who .txBuf v]
  | pushed (who : Actor) (v : RegVal) (w : Word) (he : k.en = true) (hr : k.txq.length ≠ c.fifoDepth) :
    CoreEffect c k { k with txq := k.txq ++ [w] } [.write who .txBuf v]
  | looked (who : Actor) (r : Reg) (v : RegVal) (hr : r ≠ .rxBuf) : CoreEffect c k k [.read who r v]
  | popped (who : Actor) (v : RegVal) (w : Word) (ws : List Word) (hq : k.rxq = w :: ws) :
    CoreEffect c k { k with rxq := ws } [.read who .rxBuf v]

/-- `t` is `s` after one atomic operation, as far as the parameters, the identity, CORE and the histories go. -/
structure Effect (s t : State) : Prop where
  cfg : t.cfg = s.cfg
  ident : t.ident = s.ident
  answers : s.log.answers <+: t.log.answers
  core : ∃ es, t.log.accesses = s.log.accesses ++ es ∧ CoreEffect s.cfg s.core t.core es

variable {c : Config} {k k' : CoreState} {s t : State} {who : Actor}

/-! ### The register accesses -/

/-- A register read, when it answers, takes the head of the RX FIFO or leaves CORE (20 R43, R46 to R49). -/
theorem coreRead_effect {draw : BitVec 32} {r : Reg} {v : RegVal} (h : coreRead c draw r k = .next (v, k')) :
    CoreEffect c k k' [.read who r v] := by
  have look (hr : r ≠ .rxBuf) (hk : k = k') : CoreEffect c k k' [.read who r v] := hk ▸ .looked who r v hr
  cases r with
  | config => cases h
  | txBuf => cases h
  | rxBuf =>
    simp only [coreRead, corePopRx] at h
    split at h
    · cases h
    · rename_i w ws hq
      cases h
      exact .popped who _ w ws hq
  | freq => cases h; exact look (by decide) rfl
  | txCount => cases h; exact look (by decide) rfl
  | rxCount => cases h; exact look (by decide) rfl
  | bufSize => cases h; exact look (by decide) rfl

/-- A CONFIG write, when it answers, is one of the two pseudo-commands (40 R91 to R93). -/
theorem coreConfig_effect {b : Byte} (v : RegVal) (h : coreConfig c b k = .next k') :
    CoreEffect c k k' [.write who .config v] := by
  unfold coreConfig at h
  split at h
  · cases h
    exact .reset who v
  · split at h
    · cases h
      exact .enabled who v
    · cases h

/-- A TX_BUF write, when it answers, is discarded on a disabled core and queued on an enabled one (20 R45). -/
theorem corePushTx_effect {w : Word} (v : RegVal) (h : corePushTx c w k = .next k') :
    CoreEffect c k k' [.write who .txBuf v] := by
  unfold corePushTx at h
  split at h
  · rename_i he
    cases h
    exact .discarded who v he
  · rename_i he
    split at h
    · cases h
    · rename_i hr
      cases h
      exact .pushed who v w (by simpa using he) hr

/-- A FREQ write latches a value or makes both registers unspecified (20 R44). -/
theorem coreWriteFreq_effect (d : BitVec 32) (v : RegVal) :
    CoreEffect c k (coreWriteFreq d k) [.write who .freq v] := by
  unfold coreWriteFreq
  split <;> exact .retimed who v _

/-- A register write, when it answers, is a pseudo-command, a FREQ write or a TX_BUF write (20 R42, R44, R45). -/
theorem coreWrite_effect {r : Reg} {v : RegVal} (h : coreWrite c r v k = .next k') :
    CoreEffect c k k' [.write who r v] := by
  have refused (hr : refuseWrite r v = .next k') : CoreEffect c k k' [.write who r v] := by
    obtain ⟨why, hw⟩ := refuseWrite_refuses r v
    exact absurd (hr.symm.trans hw) (by simp)
  cases r with
  | config =>
    cases v with
    | b8 b => exact coreConfig_effect _ h
    | b16 _ => cases h
    | b32 _ => cases h
  | freq =>
    cases v with
    | b8 _ => cases h
    | b16 _ => cases h
    | b32 d => cases h; exact coreWriteFreq_effect d _
  | txBuf =>
    cases v with
    | b8 _ => cases h
    | b16 w => exact corePushTx_effect _ h
    | b32 _ => cases h
  | rxBuf => exact refused h
  | txCount => exact refused h
  | rxCount => exact refused h
  | bufSize => exact refused h

theorem regRead_effect {off : Nat} {w : Width} {v : RegVal} (h : regRead who off w s = .next (v, t)) : Effect s t := by
  obtain ⟨r, k, -, hk, rfl⟩ := regRead_next who h
  exact ⟨rfl, rfl, List.prefix_rfl, _, rfl, coreRead_effect hk⟩

theorem regWrite_effect {off : Nat} {v : RegVal} (h : regWrite who off v s = .next t) : Effect s t := by
  obtain ⟨r, k, -, hk, rfl⟩ := regWrite_next who h
  exact ⟨rfl, rfl, List.prefix_rfl, _, rfl, coreWrite_effect hk⟩

theorem rawAccess_effect {a : Access} (h : rawAccess a s = .next t) : Effect s t := by
  cases a with
  | read off w =>
    obtain ⟨⟨v, u⟩, hu, h⟩ := andThen_eq_next.mp h
    cases h
    exact regRead_effect hu
  | write off v => exact regWrite_effect h
  | readIncrementing off w n => cases h
  | writeIncrementing off vs => cases h

theorem execConfigReset_effect (h : execConfigReset s = .next t) : Effect s t := by
  cases h
  exact ⟨rfl, rfl, List.prefix_rfl, _, rfl, .reset _ _⟩

theorem execConfigEnable_effect (h : execConfigEnable s = .next t) : Effect s t := by
  cases h
  exact ⟨rfl, rfl, List.prefix_rfl, _, rfl, .enabled _ _⟩

/-! ### ENG -/

/-- What leaves the parameters, the identity, CORE and the histories: the pure steps and the lock's. -/
theorem Effect.of_unchanged (hc : t.cfg = s.cfg) (hi : t.ident = s.ident) (hk : t.core = s.core) (hl : t.log = s.log) :
    Effect s t :=
  ⟨hc, hi, hl ▸ List.prefix_rfl, [], by rw [hl, List.append_nil], hk ▸ .idle⟩

theorem Effect.refl (s : State) : Effect s s := .of_unchanged rfl rfl rfl rfl

theorem engFetch_effect (s : State) : Effect s (engFetch s) := by
  obtain h | ⟨w, ws, he, hn, hq, h⟩ := engFetch_eq s <;> rw [h]
  · exact .refl s
  · exact ⟨rfl, rfl, List.prefix_rfl, [], (List.append_nil _).symm, .fetched w ws he hn hq⟩

theorem completeWord_effect {w : Word} {f : ByteForm} {pl : Byte} {n : Bool} (h : completeWord w f pl n s = .next t) :
    Effect s t := by
  obtain rfl | ⟨he, hw, -, hr, rfl⟩ := completeWord_next h
  · exact .refl t
  · exact ⟨rfl, rfl, List.prefix_rfl, [], (List.append_nil _).symm, .completed w _ _ _ he hw hr⟩

theorem execWord_effect {op : CwOp} {pl : Byte} (h : execWord op pl s = .next t) : Effect s t := by
  cases op <;> exact completeWord_effect h

theorem engComplete_effect (h : engComplete s = .next t) : Effect s t := by
  unfold engComplete at h
  split at h
  · split at h
    · cases h
      exact .refl _
    · split at h
      · exact execWord_effect h
      · cases h
  · cases h
    exact .refl _

/-! ### The front end -/

theorem Effect.putJob (h : Effect s t) (j : Job) : Effect s (t.putJob j) := ⟨h.cfg, h.ident, h.answers, h.core⟩

theorem deliver_effect (r : Nat) (a : Answer) (s : State) : Effect s (deliver r a s) :=
  ⟨rfl, rfl, List.prefix_append _ _, [], (List.append_nil _).symm, .idle⟩

theorem putJob_effect (j : Job) (s : State) : Effect s (s.putJob j) := (Effect.refl s).putJob j

theorem acquireLock_effect (j : Job) (s : State) : Effect s (acquireLock j s) := by
  obtain h | ⟨-, h⟩ := acquireLock_eq j s <;> rw [h]
  · exact .refl s
  · exact .of_unchanged rfl rfl rfl rfl

theorem releaseLock_effect (j : Job) (s : State) : Effect s (releaseLock j s) := by
  obtain h | ⟨-, h⟩ := releaseLock_eq j s <;> rw [h]
  · exact .refl s
  · exact .of_unchanged rfl rfl rfl rfl

/-- A step of a request is one register access, an answer, or leaves CORE and the histories (00 R3). -/
theorem runAct_effect {a : Act} {j : Job} {passed : Bool} (h : runAct a j passed s = .next t) : Effect s t := by
  cases a with
  | regWrite off v =>
    obtain ⟨u, hu, h⟩ := andThen_eq_next.mp h
    cases h
    exact (regWrite_effect hu).putJob j
  | regRead off w =>
    obtain ⟨⟨v, u⟩, hu, h⟩ := andThen_eq_next.mp h
    cases h
    exact (regRead_effect hu).putJob _
  | acquire => cases h; exact acquireLock_effect j s
  | release => cases h; exact releaseLock_effect j s
  | checkLength =>
    simp only [runAct] at h
    split at h
    · cases h
    · split at h
      · cases h
      · split at h <;> cases h <;> exact putJob_effect _ s
  | checkEmpty side => simp only [runAct] at h; split at h <;> cases h <;> exact putJob_effect _ s
  | poll =>
    simp only [runAct] at h
    split at h
    · cases h; exact putJob_effect _ s
    · split at h <;> cases h <;> exact putJob_effect _ s
  | checkSpeed f => simp only [runAct] at h; split at h <;> cases h <;> exact putJob_effect _ s
  | collect => cases h; exact putJob_effect _ s
  | callSetSpeed => cases h; exact putJob_effect _ s
  | setCacheSize => cases h; exact .of_unchanged rfl rfl rfl rfl
  | setRate f => cases h; exact .of_unchanged rfl rfl rfl rfl
  | setOpened => cases h; exact .of_unchanged rfl rfl rfl rfl
  | answer x => cases h; exact deliver_effect _ _ s
  | answerSpeed => cases h; exact deliver_effect _ _ s
  | answerCacheSize =>
    simp only [runAct] at h
    split at h <;> cases h
    exact deliver_effect _ _ s
  | decodeResponse addr shape => cases h; exact deliver_effect _ _ s

theorem feStep_effect {r : Nat} {passed : Bool} (h : feStep r passed s = .next t) : Effect s t := by
  obtain rfl | ⟨j, a, rest, -, -, h⟩ := feStep_next h
  · exact .refl t
  · exact runAct_effect h

theorem launch_effect (r : Nat) (q : Request) (p : Plan) (s : State) : Effect s (launch r q p s) :=
  .of_unchanged rfl rfl rfl rfl

/-- A submission begins the request, or is no step while an earlier one is outstanding (45 R186). -/
theorem beginRequest_effect {r : Nat} {q : Request} (h : beginRequest r q s = .next t) : Effect s t := by
  unfold beginRequest at h
  split at h
  · cases h
    exact .refl _
  · obtain ⟨p, -, h⟩ := andThen_eq_next.mp h
    cases h
    exact launch_effect r q p s

/-- Every move is one atomic operation. -/
theorem move_effect {m : Move} (h : move m s = .next t) : Effect s t := by
  cases m with
  | fetch => cases h; exact engFetch_effect s
  | complete ack data =>
    obtain ⟨hc, hi, ha, hk⟩ := engComplete_effect h
    exact ⟨hc, hi, ha, hk⟩
  | fe r passed => exact feStep_effect h
  | raw a => exact rawAccess_effect h
  | submit r q =>
    simp only [move] at h
    split at h
    · exact beginRequest_effect h
    · cases h

/-- What every atomic operation keeps, every step keeps, whole requests included. -/
theorem Kept.of_effect {P : State → Prop} (h : ∀ s t, Effect s t → P s → P t) : Kept P where
  env s _ := h s _ (.of_unchanged rfl rfl rfl rfl)
  word _ _ _ _ s t hp e := h s t (completeWord_effect e) hp
  fetch s := h s _ (engFetch_effect s)
  front _ _ s t hp e := h s t (feStep_effect e) hp
  raw _ s t hp e := h s t (rawAccess_effect e) hp
  reset s t hp e := h s t (execConfigReset_effect e) hp
  enable s t hp e := h s t (execConfigEnable_effect e) hp
  launch r q p s hp _ _ := h s _ (launch_effect r q p s) hp

/-! ### The invariant of CORE, the words it holds, the histories -/

/-- A word is pushed only where there is room, and only RESET disables, which empties (10 R21 items 1 and 2). -/
theorem CoreEffect.coreInv {es : List RegEvent} (h : CoreEffect c k k' es) (hi : Machine.coreInv c k) :
    Machine.coreInv c k' := by
  obtain ⟨htx, hrx, hoff⟩ := hi
  cases h with
  | idle => exact ⟨htx, hrx, hoff⟩
  | fetched w ws he hn hq =>
    rw [hq, List.length_cons] at htx
    exact ⟨Nat.le_of_succ_le htx, hrx, fun hd => nomatch he.symm.trans hd⟩
  | completed w rw evs owned he hw hr =>
    exact ⟨htx, by rw [List.length_append]; exact Nat.lt_of_le_of_ne hrx hr, fun hd => nomatch he.symm.trans hd⟩
  | reset who v => exact ⟨Nat.zero_le _, Nat.zero_le _, fun _ => ⟨rfl, rfl, rfl, rfl⟩⟩
  | enabled who v => exact ⟨htx, hrx, fun hd => nomatch hd⟩
  | retimed who v f => exact ⟨htx, hrx, hoff⟩
  | discarded who v he => exact ⟨htx, hrx, hoff⟩
  | pushed who v w he hr =>
    exact ⟨by rw [List.length_append]; exact Nat.lt_of_le_of_ne htx hr, hrx, fun hd => nomatch he.symm.trans hd⟩
  | looked who r v hr => exact ⟨htx, hrx, hoff⟩
  | popped who v w ws hq =>
    rw [hq, List.length_cons] at hrx
    refine ⟨htx, Nat.le_of_succ_le hrx, fun hd => ?_⟩
    obtain ⟨-, hr, -⟩ := hoff hd
    exact absurd (hq.symm.trans hr) (List.cons_ne_nil _ _)

/-- Every step keeps the invariant of CORE. -/
theorem kept_coreInv : Kept fun s => Machine.coreInv s.cfg s.core :=
  .of_effect fun s t h hi => by
    obtain ⟨hc, -, -, es, -, hk⟩ := h
    rw [hc]
    exact hk.coreInv hi

/-- A word goes from the TX FIFO into flight and from flight, as its response, into the RX FIFO (10 R21 item 3). -/
theorem CoreEffect.wordsHeld {es : List RegEvent} (h : CoreEffect c k k' es) (hc : configWritten es = false) :
    Machine.wordsHeld k' + rxReads es = Machine.wordsHeld k + (if k.en then (txWrites es).length else 0) := by
  cases h with
  | idle => simp [rxReads, txWrites]
  | fetched w ws he hn hq =>
    simp [Machine.wordsHeld, rxReads, txWrites, hn, hq]
  | completed w rw evs owned he hw hr =>
    simp +arith [Machine.wordsHeld, rxReads, txWrites, hw]
  | reset who v => simp [configWritten] at hc
  | enabled who v => simp [configWritten] at hc
  | retimed who v f => simp [Machine.wordsHeld, rxReads, txWrites]
  | discarded who v he => simp [rxReads, he]
  | pushed who v w he hr =>
    simp +arith [Machine.wordsHeld, rxReads, txWrites, he]
  | looked who r v hr => simp [rxReads, txWrites, hr]
  | popped who v w ws hq =>
    simp +arith [Machine.wordsHeld, rxReads, txWrites, hq]

/-- Only RESET and the completion of a word add to the bus trace, at its end (10 R23). -/
theorem CoreEffect.trace_prefix {es : List RegEvent} (h : CoreEffect c k k' es) : k.trace <+: k'.trace := by
  cases h with
  | completed | reset => exact List.prefix_append _ _
  | idle | fetched | enabled | retimed | discarded | pushed | looked | popped => exact List.prefix_rfl

/-- `t` has the parameters and the identity of `s` and extends its histories. -/
structure Extends (s t : State) : Prop where
  cfg : t.cfg = s.cfg
  ident : t.ident = s.ident
  trace : s.core.trace <+: t.core.trace
  accesses : s.log.accesses <+: t.log.accesses
  answers : s.log.answers <+: t.log.answers

theorem Extends.refl (s : State) : Extends s s := ⟨rfl, rfl, List.prefix_rfl, List.prefix_rfl, List.prefix_rfl⟩

theorem Extends.trans {u : State} (h : Extends s t) (h' : Extends t u) : Extends s u :=
  ⟨h'.cfg.trans h.cfg, h'.ident.trans h.ident, h.trace.trans h'.trace, h.accesses.trans h'.accesses,
    h.answers.trans h'.answers⟩

theorem Effect.extended (h : Effect s t) : Extends s t := by
  obtain ⟨hc, hi, ha, es, he, hk⟩ := h
  exact ⟨hc, hi, hk.trace_prefix, he ▸ List.prefix_append _ _, ha⟩

theorem kept_extends (s : State) : Kept (Extends s) := .of_effect fun _ _ h hs => hs.trans h.extended

theorem step_extends (h : step s = .next t) : Extends s t := (kept_extends s).step (.refl s) h

/-! ### Marks -/

/-- A marked run takes no step (log 19). -/
theorem Marked.advance_of_marked {m : Marked} (h : m.clear = false) : m.advance = m := by
  simp [Marked.advance, h]

end Sys2Proof.Machine
end

section
/-! PROOFS. The statements of spec/10_state.md. -/

open Sys2Proof Sys2Proof.Machine

/-- Settles O50: each atomic operation keeps the invariant, and a step, a whole request included, is made of them. -/
theorem stepKeepsCoreInv : Obligations.StepKeepsCoreInv := by
  unfold Obligations.StepKeepsCoreInv
  exact fun s t hi h => kept_coreInv.step hi h

/-- Settles O52: a move is one atomic operation, whose accesses tell what it does to the words held. -/
theorem wordsAreConserved : Obligations.WordsAreConserved := by
  unfold Obligations.WordsAreConserved
  intro m s t h
  obtain ⟨es, he, hk⟩ := (move_effect h).core
  exact ⟨es, he, hk.wordsHeld⟩

/-- Settles O53: each atomic operation extends the histories, and extension is transitive. -/
theorem parametersFixedHistoriesGrow : Obligations.ParametersFixedHistoriesGrow := by
  unfold Obligations.ParametersFixedHistoriesGrow
  intro s t h
  obtain ⟨hc, hi, ht, hacc, hans⟩ := step_extends h
  exact ⟨hc, hi, ht, hacc, hans⟩

/-- Settles O54: a marked run is a fixed point of `advance`; an unmarked one records the outcome of its step. -/
theorem marksAreNeverCleared : Obligations.MarksAreNeverCleared := by
  unfold Obligations.MarksAreNeverCleared
  refine ⟨fun m n h => Function.iterate_fixed (Marked.advance_of_marked h) n, fun s => ⟨fun f h => ?_, fun w h => ?_,
    fun t h => ?_⟩⟩
  · simp [Marked.advance, Marked.clear, h]
  · simp [Marked.advance, Marked.clear, h]
  · simp [Marked.advance, Marked.clear, h]

/-- Settles O55: power-on reset is defined by these values. -/
theorem resetValues : Obligations.ResetValues := by
  unfold Obligations.ResetValues
  exact ⟨fun k c => ⟨rfl, rfl, rfl, rfl, rfl, rfl, rfl⟩, rfl⟩

end

section
/-! SUPPORT. A RAW host's register access as a move: which reads and writes are refused, what an admitted one leaves
(spec/20_memory.md R41 to R54), and the decoding of a CONFIG byte (30_encoding.md R72). -/

namespace Sys2Proof.Machine

variable {c : Config} {k : CoreState} {s : State} {who : Actor} {off : Nat} {r : Reg} {v : RegVal} {w : Width}

/-! ### The refusals -/

/-- The registers a read is admitted for (20 R54). -/
abbrev readRegs : List Reg := [.freq, .rxBuf, .txCount, .rxCount, .bufSize]

/-- The registers a write is admitted for (20 R54). -/
abbrev writeRegs : List Reg := [.config, .freq, .txBuf]

/-- A read of a register outside `readRegs` is refused for its direction (20 R53). -/
theorem coreRead_of_not_mem_readRegs (draw : BitVec 32) (h : r ∉ readRegs) :
    coreRead c draw r k = .refused (.readOfWriteOnly r) := by
  cases r with
  | config | txBuf => rfl
  | freq | rxBuf | txCount | rxCount | bufSize => exact absurd (by decide) h

/-- A write of a register outside `writeRegs` is refused (20 R53). -/
theorem coreWrite_of_not_mem_writeRegs (h : r ∉ writeRegs) : ∃ why, coreWrite c r v k = .refused why := by
  cases r with
  | rxBuf | txCount | rxCount | bufSize => exact refuseWrite_refuses _ v
  | config | freq | txBuf => exact absurd (by decide) h

/-- A write of a width that is not the register's is refused under that name (20 R52). -/
theorem coreWrite_wrongWidth (h : regValWidth v ≠ regWidth r) :
    coreWrite c r v k = .refused (.wrongWidth r (regValWidth v)) := by
  cases r with
  | rxBuf | txCount | rxCount | bufSize => exact if_neg h
  | config =>
    cases v with
    | b8 _ => exact absurd rfl h
    | b16 _ | b32 _ => rfl
  | freq =>
    cases v with
    | b32 _ => exact absurd rfl h
    | b8 _ | b16 _ => rfl
  | txBuf =>
    cases v with
    | b16 _ => exact absurd rfl h
    | b8 _ | b32 _ => rfl

/-- A read outside the read rows of 20 R54 is refused: at no register, at a wrong width, or in the wrong direction. -/
theorem regRead_refuses (h : ∀ r ∈ readRegs, ¬(off = regOffset s.cfg r ∧ w = regWidth r)) :
    ∃ why, regRead who off w s = .refused why := by
  unfold regRead
  split
  · exact ⟨_, rfl⟩
  · rename_i r hr
    split
    · rename_i hw
      have hm : r ∉ readRegs := fun hm => h r hm ⟨regOffset_of_regAt hr, hw.symm⟩
      rw [coreRead_of_not_mem_readRegs _ hm]
      exact ⟨_, rfl⟩
    · exact ⟨_, rfl⟩

/-- A write outside the write rows of 20 R54 is refused. -/
theorem regWrite_refuses (h : ∀ r ∈ writeRegs, ¬(off = regOffset s.cfg r ∧ regValWidth v = regWidth r)) :
    ∃ why, regWrite who off v s = .refused why := by
  unfold regWrite
  split
  · exact ⟨_, rfl⟩
  · rename_i r hr
    have hc : ∃ why, coreWrite s.cfg r v s.core = .refused why := by
      by_cases hm : r ∈ writeRegs
      · exact ⟨_, coreWrite_wrongWidth fun hw => h r hm ⟨regOffset_of_regAt hr, hw⟩⟩
      · exact coreWrite_of_not_mem_writeRegs hm
    obtain ⟨why, hc⟩ := hc
    rw [hc]
    exact ⟨why, rfl⟩

/-! ### The accesses as moves -/

/-- A RAW read whose register read is refused. -/
theorem move_raw_read_refused {why : Refusal} (h : regRead .raw off w s = .refused why) :
    move (.raw (.read off w)) s = .refused why := by
  simp [move, rawAccess, h]

/-- A RAW read whose register read faults. -/
theorem move_raw_read_fault {f : Fault} (h : regRead .raw off w s = .fault f) :
    move (.raw (.read off w)) s = .fault f := by
  simp [move, rawAccess, h]

/-- A RAW read that answers changes CORE as given, makes one draw and records the access; nothing else. -/
theorem move_raw_read_next (h : regRead .raw off w s = .next (v, afterRead .raw r v k s)) :
    move (.raw (.read off w)) s = .next (s.accessed k (s.env.draws + 1) (.read .raw r v)) := by
  simp only [move, rawAccess, h, andThen_next]
  rfl

/-- A RAW write is the register write (20 R41). -/
theorem move_raw_write : move (.raw (.write off v)) s = regWrite .raw off v s := rfl

/-- The state after a write: CORE as given, no draw, the access recorded. -/
theorem afterWrite_eq_accessed : afterWrite who r v k s = s.accessed k s.env.draws (.write who r v) := rfl

/-! ### The values read and written -/

/-- A count of words within the FIFO depth fits its 8-bit register (00 R6, 20 R47). -/
theorem toNat_ofNat_of_le_fifoDepth (h : c.WF) {n : Nat} (hn : n ≤ c.fifoDepth) : (BitVec.ofNat 8 n).toNat = n := by
  obtain ⟨⟨-, hd⟩, -⟩ := h
  rw [BitVec.toNat_ofNat, Nat.mod_eq_of_lt (by omega)]

/-- A FREQ read returns 32 bits, those of FREQ where it is specified (20 R43). -/
theorem coreReadFreq_eq (draw : BitVec 32) (k : CoreState) :
    ∃ v : BitVec 32, (∀ d, k.freq = .known d → v = d) ∧ coreReadFreq draw k = .b32 v := by
  cases hf : k.freq with
  | unspecified => exact ⟨draw, nofun, by rw [coreReadFreq, hf]⟩
  | known d => exact ⟨d, fun e he => Latched.known.inj he, by rw [coreReadFreq, hf]⟩

/-- A FREQ write on a disabled core latches the value (20 R44). -/
theorem coreWriteFreq_disabled (d : BitVec 32) (h : k.en = false) :
    coreWriteFreq d k = { k with freq := .known d, divActive := .known d } := by
  simp [coreWriteFreq, h]

/-- A FREQ write on an enabled core leaves both registers unspecified (20 R44). -/
theorem coreWriteFreq_enabled (d : BitVec 32) (h : k.en = true) :
    coreWriteFreq d k = { k with freq := .unspecified, divActive := .unspecified } := by
  simp [coreWriteFreq, h]

/-- An enabled core with a full TX FIFO overflows (20 R45). -/
theorem corePushTx_full (w : Word) (h : k.en = true) (hl : k.txq.length = c.fifoDepth) :
    corePushTx c w k = .fault .txOverflow := by
  simp [corePushTx, h, hl]

/-! ### CONFIG -/

/-- A CONFIG byte that decodes is one of the two pseudo-commands (30 R72). -/
theorem decode_cfg_eq_ok {b : Byte} {i : Instr} (h : decode c (.cfg b) = .ok i) :
    (b = c.cfgReset ∧ i = .configReset) ∨ (b ≠ c.cfgReset ∧ b = c.cfgEnable ∧ i = .configEnable) := by
  simp only [decode] at h
  split at h
  · rename_i hb
    exact .inl ⟨hb, (Decoded.ok.inj h).symm⟩
  · rename_i hb
    split at h
    · rename_i he
      exact .inr ⟨hb, he, (Decoded.ok.inj h).symm⟩
    · cases h

/-- A byte written to CONFIG, under any parameter values (20 R42). -/
theorem regWrite_config {b : Byte} (h : regAt s.cfg off = some .config) : regWrite who off (.b8 b) s =
    andThen (coreConfig s.cfg b s.core) fun k => .next (afterWrite who .config (.b8 b) k s) := by
  simp [regWrite, h, coreWrite]

/-- CFG_ENABLE written to CONFIG, where it is not also CFG_RESET (40 R92). -/
theorem coreConfig_enable_of_ne (h : c.cfgEnable ≠ c.cfgReset) :
    coreConfig c c.cfgEnable k = .next (coreEnable k) := by
  simp [coreConfig, h]

end Sys2Proof.Machine
end

section
/-! PROOFS. The statements of spec/20_memory.md. -/

open Sys2Proof Sys2Proof.Machine

/-- Settles O9: by the two bytes that decode, each of which `coreConfig` gives the pseudo-command's meaning. -/
theorem rawConfigWriteRunsTheSameMeaning : Obligations.RawConfigWriteRunsTheSameMeaning := by
  unfold Obligations.RawConfigWriteRunsTheSameMeaning
  intro s off b i hr hd
  have hw : rawAccess (.write off (.b8 b)) s = _ := regWrite_config hr
  rw [hw]
  obtain ⟨rfl, rfl⟩ | ⟨hne, rfl, rfl⟩ := decode_cfg_eq_ok hd
  · rw [coreConfig_reset]
    rfl
  · rw [coreConfig_enable_of_ne hne]
    rfl

/-- Settles O25: a read or write that answers is at a register's offset and width, in a direction the register has. -/
theorem otherAccessesRefused : Obligations.OtherAccessesRefused := by
  unfold Obligations.OtherAccessesRefused
  refine fun s _ => ⟨fun off w h => ?_, fun off v h => regWrite_refuses h, fun _ _ _ => rfl, fun _ _ => rfl⟩
  obtain ⟨why, hw⟩ := regRead_refuses h
  exact ⟨why, move_raw_read_refused hw⟩

/-- Settles O21: each read by its register's rule; the counts fit 8 bits because CORE's invariant bounds the FIFOs. -/
theorem readsThatChangeNothing : Obligations.ReadsThatChangeNothing := by
  unfold Obligations.ReadsThatChangeNothing
  intro s h hi
  obtain ⟨htx, hrx, -⟩ := hi
  obtain ⟨v, hv, hf⟩ := coreReadFreq_eq (Config.freeFreq s.ident s.env.draws) s.core
  have hfreq := regRead_freq .raw h rfl
  rw [hf] at hfreq
  exact ⟨⟨_, toNat_ofNat_of_le_fifoDepth h htx, move_raw_read_next (regRead_txCount .raw h rfl)⟩,
    ⟨_, toNat_ofNat_of_le_fifoDepth h hrx, move_raw_read_next (regRead_rxCount .raw h rfl)⟩,
    ⟨_, toNat_ofNat_fifoDepth h, move_raw_read_next (regRead_bufSize .raw h rfl)⟩,
    ⟨v, hv, move_raw_read_next hfreq⟩⟩

/-- Settles O22: the write is `coreWriteFreq`, by its two cases. -/
theorem freqWriteLatches : Obligations.FreqWriteLatches := by
  unfold Obligations.FreqWriteLatches
  intro s v h
  rw [move_raw_write, regWrite_freq .raw h rfl, afterWrite_eq_accessed]
  exact ⟨fun he => by rw [coreWriteFreq_disabled v he], fun he => by rw [coreWriteFreq_enabled v he]⟩

/-- Settles O23: the write is `corePushTx`, by its three cases. -/
theorem txBufWritePushes : Obligations.TxBufWritePushes := by
  unfold Obligations.TxBufWritePushes
  intro s w h
  rw [move_raw_write, regWrite_txBuf .raw h rfl]
  refine ⟨fun he => ?_, fun he hl => ?_, fun he hl => ?_⟩
  · rw [corePushTx_disabled _ w he, andThen_next, afterWrite_eq_accessed]
  · rw [corePushTx_full w he hl, andThen_fault]
  · rw [corePushTx_room _ w he hl, andThen_next, afterWrite_eq_accessed]

/-- Settles O24: the read is `corePopRx`, by its two cases. -/
theorem rxBufReadPops : Obligations.RxBufReadPops := by
  unfold Obligations.RxBufReadPops
  exact fun s h => ⟨fun hq => move_raw_read_fault (regRead_rxBuf_nil .raw h rfl hq),
    fun w ws hq => move_raw_read_next (regRead_rxBuf_cons .raw h rfl hq)⟩

end

section
/-! SUPPORT. The decoder and the encoder by the three forms of an instruction (spec/30_encoding.md R70, R72, R75, R79),
and the words of the three transfers (42_command_encoder.md R131 to R134). -/

namespace Sys2Proof.Machine

variable {c : Config} {i : Instr} {w : Word} {r : ReqRecord} {q : Request} {op : CwOp}

/-! ### The three forms -/

/-- Every instruction is a command word (R70), one of the two pseudo-commands (R72) or a request (R75). -/
theorem instr_forms (i : Instr) :
    (∃ op pl, i = CwOp.instr op pl) ∨ i = .configReset ∨ i = .configEnable ∨ ∃ q : Request, i = q.instr := by
  cases i with
  | start pl => exact .inl ⟨.start, pl, rfl⟩
  | waitAck pl => exact .inl ⟨.waitAck, pl, rfl⟩
  | waitAckStop pl => exact .inl ⟨.waitAckStop, pl, rfl⟩
  | sendAck pl => exact .inl ⟨.sendAck, pl, rfl⟩
  | sendNackStop pl => exact .inl ⟨.sendNackStop, pl, rfl⟩
  | configReset => exact .inr (.inl rfl)
  | configEnable => exact .inr (.inr (.inl rfl))
  | openReq => exact .inr (.inr (.inr ⟨.openReq, rfl⟩))
  | enable => exact .inr (.inr (.inr ⟨.enable, rfl⟩))
  | disable => exact .inr (.inr (.inr ⟨.disable, rfl⟩))
  | setSpeed f => exact .inr (.inr (.inr ⟨.setSpeed f, rfl⟩))
  | getSpeed => exact .inr (.inr (.inr ⟨.getSpeed, rfl⟩))
  | read a n => exact .inr (.inr (.inr ⟨.read a n, rfl⟩))
  | write a d => exact .inr (.inr (.inr ⟨.write a d, rfl⟩))
  | writeAndRead a d n => exact .inr (.inr (.inr ⟨.writeAndRead a d n, rfl⟩))
  | getCacheSize => exact .inr (.inr (.inr ⟨.getCacheSize, rfl⟩))

@[simp] theorem encode_cwOp_instr (c : Config) (op : CwOp) (pl : Byte) :
    encode c (op.instr pl) = .cw (commandWord c op pl) := by
  cases op <;> rfl

@[simp] theorem encode_request_instr (c : Config) (q : Request) : encode c q.instr = .req (recordOf q) := by
  cases q <;> rfl

/-! ### What decodes -/

theorem decode_cw_of_opOfByte (h : opOfByte c (hiByte w) = some op) :
    decode c (.cw w) = .ok (op.instr (loByte w)) := by
  simp [decode, h]

/-- A command word decodes to its opcode and payload (R70, R74). -/
theorem decode_commandWord (h : c.WF) (op : CwOp) (pl : Byte) :
    decode c (.cw (commandWord c op pl)) = .ok (op.instr pl) := by
  have ho : opOfByte c (hiByte (commandWord c op pl)) = some op := by rw [hiByte_commandWord, opOfByte_opByte h]
  rw [decode_cw_of_opOfByte ho, loByte_commandWord]

@[simp] theorem decode_cfgReset (c : Config) : decode c (.cfg c.cfgReset) = .ok .configReset := by
  simp [decode]

/-- CFG_ENABLE decodes to its pseudo-command because R6 keeps it apart from CFG_RESET. -/
theorem decode_cfgEnable (h : c.WF) : decode c (.cfg c.cfgEnable) = .ok .configEnable := by
  obtain ⟨-, -, -, -, -, -, -, hne, -⟩ := h
  simp [decode, Ne.symm hne]

theorem decode_req_of_requestOf (h : requestOf r = some q) : decode c (.req r) = .ok q.instr := by
  simp [decode, h]

/-- A command word that decodes has a known opcode byte (R74). -/
theorem decode_cw_eq_ok (h : decode c (.cw w) = .ok i) :
    ∃ op, opOfByte c (hiByte w) = some op ∧ i = op.instr (loByte w) := by
  simp only [decode] at h
  split at h
  · rename_i op ho
    exact ⟨op, ho, (Decoded.ok.inj h).symm⟩
  · cases h

/-- A record that decodes stands for a request (R75). -/
theorem decode_req_eq_ok (h : decode c (.req r) = .ok i) : ∃ q, requestOf r = some q ∧ i = q.instr := by
  simp only [decode] at h
  split at h
  · rename_i q hq
    exact ⟨q, hq, (Decoded.ok.inj h).symm⟩
  · cases h

/-- A record with its unused fields zero is the record of the request it stands for: in each row of R75 the number fixes
`op`, and each field is either the operand or zero. -/
theorem recordOf_of_requestOf (hq : requestOf r = some q) (hz : r.unusedZero = true) : recordOf q = r := by
  obtain ⟨op, addr, data, n, freqHz⟩ := r
  unfold requestOf at hq
  split at hq <;> cases hq <;> simp_all [recordOf, ReqRecord.unusedZero, BitVec.toNat_eq]

/-! ### What is reserved (R79) -/

theorem decode_cw_eq_reserved : decode c (.cw w) = .reservedOpcode w ↔ hiByte w ∉ c.opcodes := by
  rw [← opOfByte_eq_none]
  cases h : opOfByte c (hiByte w) <;> simp [decode, h]

theorem decode_cfg_eq_reserved {v : Byte} :
    decode c (.cfg v) = .reservedConfig v ↔ v ≠ c.cfgReset ∧ v ≠ c.cfgEnable := by
  by_cases hr : v = c.cfgReset
  · simp [decode, hr]
  · by_cases he : v = c.cfgEnable
    · rw [decode, if_neg hr, if_pos he]
      simp [he]
    · simp [decode, hr, he]

theorem requestOf_eq_none : requestOf r = none ↔ 9 ≤ r.op.toNat := by
  unfold requestOf
  split
  case h_10 =>
    simp only [imp_false, true_iff] at *
    omega
  all_goals simp_all

theorem decode_req_eq_reserved : decode c (.req r) = .reservedOp r.op ↔ 9 ≤ r.op.toNat := by
  rw [← requestOf_eq_none]
  cases h : requestOf r <;> simp [decode, h]

@[simp] theorem decodedStep_reservedOpcode (w : Word) (s : State) :
    decodedStep (.reservedOpcode w) s = .other (.fault (.illegalOpcode w)) := rfl

@[simp] theorem decodedStep_reservedConfig (v : Byte) (s : State) :
    decodedStep (.reservedConfig v) s = .other (.fault (.reservedConfig v)) := rfl

@[simp] theorem decodedStep_reservedOp (op : BitVec 4) (s : State) :
    decodedStep (.reservedOp op) s = .other (.refused (.reservedOp op)) := rfl

/-! ### Bytes and words as numbers -/

/-- `{hi, lo}` as a number (00 R7). -/
theorem toNat_append_eq_add {m n : Nat} (hi : BitVec m) (lo : BitVec n) :
    (hi ++ lo).toNat = 2 ^ n * hi.toNat + lo.toNat := by
  rw [BitVec.toNat_append, ← Nat.shiftLeft_add_eq_or_of_lt lo.isLt, Nat.shiftLeft_eq, Nat.mul_comm]

/-- An address in range is its 7-bit value (42 R130). -/
theorem toNat_addr7 {addr : Int} (h0 : 0 ≤ addr) (h1 : addr ≤ 0x7F) : ((addr7 addr).toNat : Int) = addr := by
  rw [addr7, BitVec.toNat_ofInt]
  omega

/-! ### The words of the transfers -/

theorem length_writeTail (c : Config) : ∀ data : List Byte, (writeTail c data).length = data.length
  | [] => rfl
  | [_] => rfl
  | _ :: b :: bs => congrArg (· + 1) (length_writeTail c (b :: bs))

/-- Every data byte is sent with WAIT_ACK, but the last with WAIT_ACK_STOP (R131). -/
theorem getElem?_writeTail (c : Config) : ∀ (data : List Byte) (k : Nat) (h : k < data.length),
    (writeTail c data)[k]? =
      some (commandWord c (if k + 1 = data.length then .waitAckStop else .waitAck) data[k])
  | [_], 0, _ => rfl
  | _ :: _ :: _, 0, _ => by simp [writeTail]
  | _ :: b :: bs, k + 1, h => by
    simpa [writeTail] using getElem?_writeTail c (b :: bs) k (Nat.lt_of_succ_lt_succ h)

theorem length_readTail (c : Config) {n : Nat} (h : 0 < n) : (readTail c n).length = n := by
  rw [readTail, List.length_append, List.length_replicate, List.length_singleton, Nat.sub_add_cancel h]

/-- Every byte is received with SEND_ACK, but the last with SEND_NACK_STOP (R132). -/
theorem getElem?_readTail (c : Config) {n k : Nat} (h : k < n) :
    (readTail c n)[k]? = some (commandWord c (if k + 1 = n then .sendNackStop else .sendAck) dummyData) := by
  unfold readTail
  by_cases hk : k + 1 = n
  · subst hk
    simp
  · rw [List.getElem?_append_left (by simp; omega), if_neg hk, List.getElem?_replicate, if_pos (by omega)]

theorem length_readWords (c : Config) (a : BitVec 7) {n : Nat} (h : 0 < n) : (readWords c a n).length = n + 1 :=
  congrArg (· + 1) (length_readTail c h)

/-- The words of the write phase of `write_and_read` follow START (R133). -/
theorem getElem?_writeAndReadWords_write (c : Config) (a : BitVec 7) {data : List Byte} (n : Nat) {k : Nat}
    (h : k < data.length) : (writeAndReadWords c a data n)[k + 1]? = some (commandWord c .waitAck data[k]) := by
  rw [writeAndReadWords, List.getElem?_append_left (by simpa using h)]
  simp [h]

/-- The words of the read phase of `write_and_read` follow its write phase (R133). -/
theorem getElem?_writeAndReadWords_read (c : Config) (a : BitVec 7) (data : List Byte) (n k : Nat) :
    (writeAndReadWords c a data n)[data.length + 1 + k]? = (readWords c a n)[k]? := by
  rw [writeAndReadWords, List.getElem?_append_right (by simp)]
  simp

end Sys2Proof.Machine
end

section
/-! PROOFS. The statements of spec/30_encoding.md. -/

open Sys2Proof Sys2Proof.Machine

/-- Settles O2: by the form of the instruction, whose encoding is a command word, a CONFIG byte or a record. -/
theorem decodeOfEncode : Obligations.DecodeOfEncode := by
  unfold Obligations.DecodeOfEncode
  intro c i h
  obtain ⟨op, pl, rfl⟩ | rfl | rfl | ⟨q, rfl⟩ := instr_forms i
  · rw [encode_cwOp_instr, decode_commandWord h]
  · exact decode_cfgReset c
  · exact decode_cfgEnable h
  · rw [encode_request_instr, decode_req_of_requestOf (requestOf_recordOf q)]

/-- Settles O3: by the form of the encoding; only a request needs the check, of its unused fields. -/
theorem encodeOfDecode : Obligations.EncodeOfDecode := by
  unfold Obligations.EncodeOfDecode
  intro c e i hw hd
  cases e with
  | cw w =>
    obtain ⟨op, ho, rfl⟩ := decode_cw_eq_ok hd
    rw [encode_cwOp_instr, commandWord_of_opOfByte ho]
  | cfg v =>
    obtain ⟨rfl, rfl⟩ | ⟨-, rfl, rfl⟩ := decode_cfg_eq_ok hd
    · rfl
    · rfl
  | req r =>
    obtain ⟨q, hq, rfl⟩ := decode_req_eq_ok hd
    obtain ⟨-, hz⟩ := Bool.and_eq_true_iff.mp hw
    rw [encode_request_instr, recordOf_of_requestOf hq hz]

/-- Settles O4: each form is rejected exactly where its table has no row. -/
theorem reservedEncodingsRejected : Obligations.ReservedEncodingsRejected := by
  unfold Obligations.ReservedEncodingsRejected
  exact fun c => ⟨fun w => decode_cw_eq_reserved, fun v => decode_cfg_eq_reserved, fun r => decode_req_eq_reserved⟩

/-- Settles O57: bytes and words by the value of an appended pair, the sequences by their tails, word by word. -/
theorem encoderBuildsTheSequences : Obligations.EncoderBuildsTheSequences := by
  unfold Obligations.EncoderBuildsTheSequences
  refine ⟨fun a => ⟨toNat_append_eq_add a 0#1, toNat_append_eq_add a 1#1⟩, fun addr => toNat_addr7,
    fun c op pl => toNat_append_eq_add (opByte c op) pl, fun c a data n hn => ⟨fun _ => ?write, ?read, ?writeAndRead⟩⟩
  case write => exact ⟨congrArg (· + 1) (length_writeTail c data), rfl, getElem?_writeTail c data⟩
  case read => exact ⟨length_readWords c a hn, rfl, fun k hk => getElem?_readTail c hk⟩
  case writeAndRead =>
    refine ⟨?_, rfl, fun k hk => getElem?_writeAndReadWords_write c a n hk, getElem?_writeAndReadWords_read c a data n⟩
    simp only [writeAndReadWords, List.length_append, List.length_cons, List.length_map, length_readWords c a hn]
    omega

/-- Settles O1: each of the eight by the tables' rows under the default parameters. -/
theorem specWordsDecode : Obligations.SpecWordsDecode := by
  unfold Obligations.SpecWordsDecode
  decide

/-- Settles O7: each of the three moves decodes what it brings, and a reserved encoding stops the step under its name. -/
theorem stepStopsOnReservedEncodings : Obligations.StepStopsOnReservedEncodings := by
  unfold Obligations.StepStopsOnReservedEncodings
  intro s ms
  refine ⟨fun ack data w ha he hc hw => ?_, fun off v ha hr h1 h2 => ?_, fun r q ha hq => ?_⟩
  · have hf := fetchWordInFlight_of_cur (s := (s.setAgenda ms).setBus ack data) he hc
    simp [step_of_complete ha, hf, decode_cw_eq_reserved.mpr hw]
  · have hf := fetchRaw_config (s := s.setAgenda ms) (v := v) hr
    simp [step_of_raw ha, hf, decode_cfg_eq_reserved.mpr ⟨h1, h2⟩]
  · simp [step_of_submit ha, decode_req_eq_reserved.mpr hq]

end

section
/-! SUPPORT. `enable()`, `disable()`, `set_speed` and `get_speed()` running alone (spec/40_config_and_clock.md R94 to
R98), and the arithmetic of the divider and of the speed read back (R97, R100). -/

namespace Sys2Proof.Machine

variable {c : Config} {s t : State}

/-! ### CORE after the pseudo-commands -/

/-- RESET alone leaves the recovered CORE, but disabled (40 R91). -/
theorem coreReset_eq_recovered (k : CoreState) : coreReset k = { recovered k with en := false } := by
  rw [← coreEnable_coreReset]
  rfl

/-- A second recovery finds nothing to abort, whether the core is left enabled or not (40 R101). -/
theorem recovered_recovered (k : CoreState) (en : Bool) : recovered { recovered k with en := en } = recovered k := rfl

/-! ### The steps that end a request -/

section Scripts

variable {r : Nat} {q : Request} {cw : List Word} {val : RegVal} {resp : List Byte} {rest : List Act} {n : Nat}

/-- The answer of a request that runs alone. -/
theorem runAlone_answer (a : Answer) :
    runAlone r (n + 1) (s.putJob ⟨r, q, cw, val, resp, .answer a :: rest⟩) = .next (deliver r a s) := by
  simp [runAlone_cons, runAct, deliver_putJob_mk]

/-- The answer of `get_speed()`, from the value last read (40 R98). -/
theorem runAlone_answerSpeed :
    runAlone r (n + 1) (s.putJob ⟨r, q, cw, val, resp, .answerSpeed :: rest⟩) =
      .next (deliver r (.speed (speedOf s.cfg (regValNat val))) s) := by
  simp [runAlone_cons, runAct, deliver_putJob_mk]

/-- The range check of `set_speed` fails: the error is all that is left of the request (40 R96, 60 R201). -/
theorem runAlone_checkSpeed_outOfRange {f : Int} (h : speedInRange s.cfg f = false) :
    runAlone r (n + 2) (s.putJob ⟨r, q, cw, val, resp, .checkSpeed f :: rest⟩) =
      .next (deliver r (.error (.contractViolation .speedOutOfRange)) s) := by
  have hraise : raiseScript s.cfg (.contractViolation .speedOutOfRange) false =
      [.answer (.error (.contractViolation .speedOutOfRange))] := rfl
  simp [runAlone_cons, runAct, h, hraise, deliver_putJob_mk]

end Scripts

/-- The state a request leaves when its answer is handed over: CORE and the handle are those its steps have left, and
nothing else but the draws and the accesses has changed. -/
theorem deliver_eq_answered (hq : quiet s) (a : Answer) {d : Nat} {es : List RegEvent} (hi : t.ident = s.ident)
    (hc : t.cfg = s.cfg) (hj : t.jobs = s.jobs) (he : t.env = { s.env with draws := d })
    (hl : t.log = { s.log with accesses := s.log.accesses ++ es }) :
    deliver s.env.client a t = s.answered t.core t.handle d es a :=
  eq_answered hq.2 hi hc rfl rfl (by rw [deliver_jobs, hj]) he (by rw [deliver_log, hl])

/-- A request that has been answered leaves its requester free for the next one (45 R186). -/
theorem quiet_answered (hq : quiet s) (k : CoreState) (h : Handle) (d : Nat) (es : List RegEvent) (a : Answer) :
    quiet (s.answered k h d es a) := hq

/-! ### The requests -/

/-- `enable()` with no other agent moving (40 R94). -/
theorem exec_enable_quiet (h : s.cfg.WF) (hq : quiet s) :
    exec .enable s = .next (s.answered (recovered s.core) s.handle (s.env.draws + 1)
      (enableAccesses (.fe s.env.client) s.cfg) .done) := by
  calc exec .enable s
      = runAlone s.env.client 7 (s.drawn.putJob
          (newJob s.env.client .enable ⟨[], enableScript s.cfg ++ [Act.answer .done]⟩)) := runRequest_quiet hq _ _
    _ = .next (deliver s.env.client .done
          (s.drawn.accessedAll (recovered s.core) (enableAccesses (.fe s.env.client) s.cfg))) :=
      (runAlone_enableScript (s := s.drawn) h rfl).trans (runAlone_answer .done)
    _ = _ := congrArg _ (deliver_eq_answered hq .done rfl rfl rfl rfl rfl)

/-- `disable()` with no other agent moving (40 R95). -/
theorem exec_disable_quiet (h : s.cfg.WF) (hq : quiet s) :
    exec .disable s = .next (s.answered { recovered s.core with en := false } s.handle (s.env.draws + 1)
      [.write (.fe s.env.client) .config (.b8 s.cfg.cfgReset)] .done) := by
  have hw := regWrite_reset (s := s.drawn) (.fe s.env.client) h rfl
  rw [← coreReset_eq_recovered]
  calc exec .disable s
      = runAlone s.env.client 6 (s.drawn.putJob
          (newJob s.env.client .disable ⟨[], disableScript s.cfg ++ [Act.answer .done]⟩)) :=
        runRequest_quiet hq _ _
    _ = .next (deliver s.env.client .done (afterWrite (.fe s.env.client) .config (.b8 s.cfg.cfgReset)
          (coreReset s.core) s.drawn)) :=
      (runAlone_regWrite hw).trans (runAlone_answer .done)
    _ = _ := congrArg _ (deliver_eq_answered hq .done rfl rfl rfl rfl rfl)

/-- The record `set_speed(f)` begins with (40 R96). -/
abbrev setSpeedJob (s : State) (f : Int) : Job :=
  newJob s.env.client (.setSpeed f) ⟨[], setSpeedScript s.cfg f ++ [Act.answer .done]⟩

/-- `set_speed(f)` in range with no other agent moving (40 R96). -/
theorem exec_setSpeed_inRange (h : s.cfg.WF) (hq : quiet s) {f : Int} (hf : speedInRange s.cfg f = true) :
    exec (.setSpeed f) s = .next (s.answered (retuned (divider s.cfg f) s.core) { s.handle with rateHz := f }
      (s.env.draws + 1) (setSpeedAccesses (.fe s.env.client) s.cfg f) .done) := by
  calc exec (.setSpeed f) s
      = runAlone s.env.client 11 (s.drawn.putJob (setSpeedJob s f)) := runRequest_quiet hq _ _
    _ = .next (deliver s.env.client .done (s.drawn.speedSet (.fe s.env.client) f)) :=
      (runAlone_setSpeedScript (s := s.drawn) h rfl hf).trans (runAlone_answer .done)
    _ = _ := congrArg _ (deliver_eq_answered hq .done rfl rfl rfl rfl rfl)

/-- `set_speed(f)` out of range with no other agent moving: an error before any access (40 R96, 60 R201). -/
theorem exec_setSpeed_outOfRange (hq : quiet s) {f : Int} (hf : speedInRange s.cfg f = false) :
    exec (.setSpeed f) s = .next (s.answered s.core s.handle (s.env.draws + 1) []
      (.error (.contractViolation .speedOutOfRange))) := by
  have hl : s.drawn.log = { s.log with accesses := s.log.accesses ++ [] } := by simp
  calc exec (.setSpeed f) s
      = runAlone s.env.client 11 (s.drawn.putJob (setSpeedJob s f)) := runRequest_quiet hq _ _
    _ = .next (deliver s.env.client (.error (.contractViolation .speedOutOfRange)) s.drawn) :=
      runAlone_checkSpeed_outOfRange hf
    _ = _ := congrArg _ (deliver_eq_answered hq _ rfl rfl rfl rfl hl)

/-- `get_speed()` with no other agent moving: the speed of whatever the read of FREQ returned (40 R98). -/
theorem exec_getSpeed_quiet (h : s.cfg.WF) (hq : quiet s) :
    ∃ v : BitVec 32, (∀ d, s.core.freq = .known d → v = d) ∧
      exec .getSpeed s = .next (s.answered s.core s.handle (s.env.draws + 2)
        [.read (.fe s.env.client) .freq (.b32 v)] (.speed (speedOf s.cfg v.toNat))) := by
  obtain ⟨v, hv, hf⟩ := coreReadFreq_eq (Config.freeFreq s.ident (s.env.draws + 1)) s.core
  have hread : regRead (.fe s.env.client) s.cfg.offFreq .w32 s.drawn =
      .next (.b32 v, afterRead (.fe s.env.client) .freq (.b32 v) s.core s.drawn) :=
    hf ▸ regRead_freq (s := s.drawn) (.fe s.env.client) h rfl
  refine ⟨v, hv, ?_⟩
  calc exec .getSpeed s
      = runAlone s.env.client 6 (s.drawn.putJob (newJob s.env.client .getSpeed ⟨[], getSpeedScript s.cfg⟩)) :=
        runRequest_quiet hq _ _
    _ = .next (deliver s.env.client (.speed (speedOf s.cfg v.toNat))
          (afterRead (.fe s.env.client) .freq (.b32 v) s.core s.drawn)) :=
      (runAlone_regRead hread).trans runAlone_answerSpeed
    _ = _ := congrArg _ (deliver_eq_answered hq _ rfl rfl rfl rfl rfl)

/-- `get_speed()` where FREQ is specified: the speed of its divider (40 R98). -/
theorem exec_getSpeed_of_known (h : s.cfg.WF) (hq : quiet s) {d : BitVec 32} (hd : s.core.freq = .known d) :
    exec .getSpeed s = .next (s.answered s.core s.handle (s.env.draws + 2)
      [.read (.fe s.env.client) .freq (.b32 d)] (.speed (speedOf s.cfg d.toNat))) := by
  obtain ⟨v, hv, hget⟩ := exec_getSpeed_quiet h hq
  exact hv d hd ▸ hget

/-! ### The divider and the speed read back -/

/-- A frequency at or below 0 or above MAX_RATE fails the range check (40 R96). -/
theorem speedInRange_eq_false {f : Int} (h : f ≤ 0 ∨ c.maxRate < f) : speedInRange c f = false := by
  simp only [speedInRange, Bool.and_eq_false_iff, decide_eq_false_iff_not]
  omega

theorem busClockHz_pos (h : c.WF) : 0 < c.busClockHz := by
  obtain ⟨-, ⟨hb, -⟩, -⟩ := h
  omega

/-- The divider of a positive frequency is not 0, since `BUS_CLOCK_HZ ≤ 2 ^ 35` (00 R6). -/
theorem dividerNat_pos (h : c.WF) {f : Nat} (h0 : 0 < f) : 0 < dividerNat c f := by
  have hpos := busClockHz_pos h
  obtain ⟨-, ⟨-, hb⟩, -⟩ := h
  exact Nat.div_pos (by omega) hpos

/-- The frequency's multiple of `2 ^ 35` is the divider's multiple of the clock and a remainder, which the divider
drops (40 R97). -/
theorem dividerNat_mul_add_mod (c : Config) (f : Nat) :
    dividerNat c f * c.busClockHz + f * 2 ^ 35 % c.busClockHz = f * 2 ^ 35 := by
  have he : dividerNat c f = f * 2 ^ 35 / c.busClockHz := by
    rw [dividerNat, show f * 8 * 2 ^ 32 = f * 2 ^ 35 by omega]
  rw [he, Nat.div_add_mod']

/-- With no remainder the speed read back is the frequency set (40 R100). -/
theorem speedOf_dividerNat_of_dvd {f : Nat} (hd : c.busClockHz ∣ f * 2 ^ 35) : speedOf c (dividerNat c f) = f := by
  have hdiv := dividerNat_mul_add_mod c f
  rw [Nat.mod_eq_zero_of_dvd hd, Nat.add_zero] at hdiv
  rw [speedOf, hdiv]
  exact Nat.mul_div_cancel f (by decide)

/-- With a remainder, which is below the clock and so below `2 ^ 35`, the speed read back is 1 Hz less (40 R100). -/
theorem speedOf_dividerNat_of_not_dvd (h : c.WF) {f : Nat} (hd : ¬ c.busClockHz ∣ f * 2 ^ 35) :
    speedOf c (dividerNat c f) = f - 1 := by
  have hdiv := dividerNat_mul_add_mod c f
  have hrem : 0 < f * 2 ^ 35 % c.busClockHz := Nat.pos_of_ne_zero fun h0 => hd (Nat.dvd_of_mod_eq_zero h0)
  have hlt := Nat.mod_lt (f * 2 ^ 35) (busClockHz_pos h)
  obtain ⟨-, ⟨-, hb⟩, -⟩ := h
  rw [speedOf]
  omega

/-- Under the default parameters no legal frequency is read back exactly: `5 ^ 9` divides the clock and exceeds MAX_RATE
(40 R100). -/
theorem standard_busClockHz_not_dvd {f : Nat} (h0 : 0 < f) (hf : f ≤ Config.standard.maxRate) :
    ¬ Config.standard.busClockHz ∣ f * 2 ^ 35 := by
  intro hd
  have hclock : 5 ^ 9 ∣ Config.standard.busClockHz := by decide
  have h5 : 5 ^ 9 ∣ f := (Nat.Coprime.pow 9 35 (by decide)).dvd_of_dvd_mul_right (hclock.trans hd)
  exact absurd ((Nat.le_of_dvd h0 h5).trans hf) (by decide)

end Sys2Proof.Machine
end

section
/-! PROOFS. The statements of spec/40_config_and_clock.md. -/

open Sys2Proof Sys2Proof.Machine

/-- Settles O26: the run of `enable()` alone, its script and its answer. -/
theorem enableResult : Obligations.EnableResult := by
  unfold Obligations.EnableResult
  exact fun s h hq => exec_enable_quiet h hq

/-- Settles O27: the run of `disable()` alone; RESET leaves the recovered CORE, but disabled. -/
theorem disableResult : Obligations.DisableResult := by
  unfold Obligations.DisableResult
  exact fun s h hq => exec_disable_quiet h hq

/-- Settles O28: the first run leaves its requester free, and the second finds the recovered CORE, which a recovery
leaves as it is. -/
theorem enableAndDisableIdempotent : Obligations.EnableAndDisableIdempotent := by
  unfold Obligations.EnableAndDisableIdempotent
  rintro s i h hq (rfl | rfl)
  · exact ⟨_, _, exec_enable_quiet h hq, exec_enable_quiet (s := s.answered ..) h (quiet_answered hq ..),
      recovered_recovered s.core true, rfl, List.append_assoc ..⟩
  · exact ⟨_, _, exec_disable_quiet h hq, exec_disable_quiet (s := s.answered ..) h (quiet_answered hq ..),
      congrArg (fun k => { k with en := false }) (recovered_recovered s.core false), rfl, List.append_assoc ..⟩

/-- Settles O29: the run of `set_speed` alone, with the divider read as a number. -/
theorem setSpeedResult : Obligations.SetSpeedResult := by
  unfold Obligations.SetSpeedResult
  exact fun s f h hq h0 hf =>
    ⟨divider s.cfg f, toNat_divider h hf, exec_setSpeed_inRange h hq (speedInRange_natCast h0 hf)⟩

/-- Settles O30: the range check, the first step of `set_speed`, fails. -/
theorem setSpeedOutOfRangeRaises : Obligations.SetSpeedOutOfRangeRaises := by
  unfold Obligations.SetSpeedOutOfRangeRaises
  exact fun s f hq hf => exec_setSpeed_outOfRange hq (speedInRange_eq_false hf)

/-- Settles O31: the run of `get_speed()` alone, its one read and its answer. -/
theorem getSpeedResult : Obligations.GetSpeedResult := by
  unfold Obligations.GetSpeedResult
  exact fun s h hq => exec_getSpeed_quiet h hq

/-- Settles O32: `get_speed()` reads the divider that `set_speed` has latched; its speed is exact or 1 Hz less, as the
clock divides the frequency's multiple of `2 ^ 35` or not. -/
theorem speedRoundTrip : Obligations.SpeedRoundTrip := by
  unfold Obligations.SpeedRoundTrip
  intro s f h hq h0 hf
  have hset := exec_setSpeed_inRange h hq (speedInRange_natCast h0 hf)
  have hd : (divider s.cfg f).toNat = dividerNat s.cfg f := toNat_divider h hf
  refine ⟨_, _, speedOf s.cfg (divider s.cfg f).toNat, hset,
    exec_getSpeed_of_known (s := s.answered ..) h (quiet_answered hq ..) rfl, List.append_assoc .., ?_⟩
  rw [hd]
  by_cases hdvd : s.cfg.busClockHz ∣ f * 2 ^ 35
  · have hne : s.cfg ≠ Config.standard := fun hc =>
      standard_busClockHz_not_dvd h0 (hc ▸ hf) (hc ▸ hdvd)
    rw [speedOf_dividerNat_of_dvd hdvd]
    exact ⟨Nat.sub_le f 1, le_rfl, iff_of_true rfl hdvd, fun hc => absurd hc hne⟩
  · rw [speedOf_dividerNat_of_not_dvd h hdvd]
    exact ⟨le_rfl, Nat.sub_le f 1, iff_of_false (by omega) hdvd, fun _ => rfl⟩

/-- Settles O19: RESET leaves the recovered CORE, but disabled. -/
theorem configResetResult : Obligations.ConfigResetResult := by
  unfold Obligations.ConfigResetResult
  intro s
  calc exec .configReset s
      = .next (s.accessed (coreReset s.core) s.env.draws (.write .raw .config (.b8 s.cfg.cfgReset))) := rfl
    _ = _ := by
      rw [coreReset_eq_recovered]
      rfl

/-- Settles O20: ENABLE is the write of `en` and the record of the access. -/
theorem configEnableResult : Obligations.ConfigEnableResult := by
  unfold Obligations.ConfigEnableResult
  exact fun _ => rfl

/-- Settles O60: the quotient is below `2 ^ 32` and positive by the bounds that R6 puts on the clock. -/
theorem dividerFitsTheRegister : Obligations.DividerFitsTheRegister := by
  unfold Obligations.DividerFitsTheRegister
  intro c f h h0 hf
  refine ⟨toNat_divider h hf, ?_⟩
  rw [toNat_divider h hf]
  exact (dividerNat_pos h h0).ne'

end

section
/-! SUPPORT. ENG's complete step by the opcode of the word (spec/41_command_words.md R113 to R118, R121, R123), and the
fetch (R112). -/

namespace Sys2Proof.Machine

variable {s : State} {w : Word} {f : ByteForm} {op : CwOp} {pl : Byte} {n : Bool}

/-! ### The execution of a command word -/

/-- The four properties of each opcode (30 R74). -/
def wordForm : CwOp → ByteForm
  | .start => { startBefore := true, receive := false, masterNack := false, stopAfter := false }
  | .waitAck => { startBefore := false, receive := false, masterNack := false, stopAfter := false }
  | .waitAckStop => { startBefore := false, receive := false, masterNack := false, stopAfter := true }
  | .sendAck => { startBefore := false, receive := true, masterNack := false, stopAfter := false }
  | .sendNackStop => { startBefore := false, receive := true, masterNack := true, stopAfter := true }

/-- The `nack` bit of each opcode's response: sampled, 0 or drawn (R114 to R118). -/
def wordNack (s : State) : CwOp → Bool
  | .start | .waitAck | .waitAckStop => s.env.busAck
  | .sendAck => false
  | .sendNackStop => Config.freeNack s.ident s.env.draws

/-- Every command word runs as the completion of the word with its opcode's form and `nack` bit. -/
theorem exec_cwOp_instr (op : CwOp) (pl : Byte) (s : State) :
    exec (op.instr pl) s = completeWord (commandWord s.cfg op pl) (wordForm op) pl (wordNack s op) s := by
  cases op <;> rfl

theorem execWord_eq_exec (op : CwOp) (pl : Byte) (s : State) : execWord op pl s = exec (op.instr pl) s := by
  cases op <;> rfl

/-- START alone issues its own START condition (R114). -/
theorem wordForm_startBefore : (wordForm op).startBefore = true ↔ op = .start := by
  cases op <;> simp [wordForm]

theorem wordForm_startBefore_of_ne (h : op ≠ .start) : (wordForm op).startBefore = false :=
  Bool.eq_false_iff.mpr (mt wordForm_startBefore.mp h)

/-! ### The outcomes of a completion -/

/-- A word that is not in flight on an enabled core is not completed (log 7). -/
theorem completeWord_notInFlight (h : s.core.en = false ∨ s.core.cur ≠ some w) :
    completeWord w f pl n s = .next s := by
  have hn : ¬(s.core.en = true ∧ s.core.cur = some w) := by
    rintro ⟨he, hc⟩
    rcases h with h | h
    · simp [h] at he
    · exact h hc
  simp [completeWord, hn]

/-- The order of words is checked before the room in the RX FIFO (R113). -/
theorem completeWord_outOfFrame (he : s.core.en = true) (hc : s.core.cur = some w) (hf : f.startBefore = false)
    (hb : s.core.busOwned = false) : completeWord w f pl n s = .fault (.protocolOrder w) := by
  simp [completeWord, he, hc, hf, hb]

theorem completeWord_full (he : s.core.en = true) (hc : s.core.cur = some w)
    (hf : f.startBefore = true ∨ s.core.busOwned = true) (hr : s.core.rxq.length = s.cfg.fifoDepth) :
    completeWord w f pl n s = .fault .rxOverflow := by
  have hin : ¬(f.startBefore = false ∧ s.core.busOwned = false) := by rcases hf with h | h <;> simp [h]
  simp [completeWord, he, hc, hin, hr]

/-! ### The response word -/

@[simp] theorem loByte_responseWord (mask : Byte) (nack : Bool) (draw data : Byte) :
    loByte (responseWord mask nack draw data) = data :=
  loByte_joinBytes _ _

@[simp] theorem hiByte_responseWord (mask : Byte) (nack : Bool) (draw data : Byte) :
    hiByte (responseWord mask nack draw data) = flagByte mask nack draw :=
  hiByte_joinBytes _ _

/-- The response to the word with this opcode and payload (R71, R114 to R118). -/
def wordResponse (s : State) (op : CwOp) (pl : Byte) : Word :=
  responseWord s.cfg.isNack (wordNack s op) (Config.freeFlags s.ident s.env.draws)
    (wordData (wordForm op) pl s.env.busData)

/-- The data byte is the echo of the payload or the byte received. -/
theorem loByte_wordResponse (s : State) (op : CwOp) (pl : Byte) :
    loByte (wordResponse s op pl) = wordData (wordForm op) pl s.env.busData :=
  loByte_responseWord ..

theorem isNackFlag_wordResponse (h : s.cfg.WF) (op : CwOp) (pl : Byte) :
    isNackFlag s.cfg.isNack (hiByte (wordResponse s op pl)) = wordNack s op := by
  rw [wordResponse, hiByte_responseWord, isNackFlag_flagByte h]

/-- A command word in flight, in frame and with room for its response: its events, its response word and the bus by the
opcode's form, everything else as before (R114 to R118). -/
theorem exec_cwOp_instr_completed (he : s.core.en = true) (hc : s.core.cur = some (commandWord s.cfg op pl))
    (hf : op = .start ∨ s.core.busOwned = true) (hr : s.core.rxq.length ≠ s.cfg.fifoDepth) :
    exec (op.instr pl) s = .next (s.completed
      (wordEvents (wordForm op) s.core.busOwned pl s.env.busAck s.env.busData) (wordResponse s op pl)
      (!(wordForm op).stopAfter)) := by
  rw [exec_cwOp_instr, completeWord_done he hc (hf.imp_left wordForm_startBefore.mpr) hr]
  rfl

/-! ### The fetch -/

/-- The oldest word goes into flight (R112). -/
theorem engFetch_of_txq {ws : List Word} (he : s.core.en = true) (hc : s.core.cur = none) (hq : s.core.txq = w :: ws) :
    engFetch s = s.setCore { s.core with cur := some w, txq := ws } := by
  simp [engFetch, he, hc, hq]

/-- A fetch that is not enabled is not taken (R112, log 5): each of its three conditions can fail. -/
theorem engFetch_idle (h : s.core.en = false ∨ s.core.cur ≠ none ∨ s.core.txq = []) : engFetch s = s := by
  obtain heq | ⟨w, ws, he, hc, hq, -⟩ := engFetch_eq s
  · exact heq
  · simp [he, hc, hq] at h

end Sys2Proof.Machine
end

section
/-! PROOFS. The statements of spec/41_command_words.md. -/

open Sys2Proof Sys2Proof.Machine

/-- Settles O8: the opcode that the word's decoding selects is the one that the complete step runs. -/
theorem engineRunsTheSameMeaning : Obligations.EngineRunsTheSameMeaning := by
  unfold Obligations.EngineRunsTheSameMeaning
  intro s w i he hc hd
  obtain ⟨op, ho, rfl⟩ := decode_cw_eq_ok hd
  rw [engComplete_word he hc ho, execWord_eq_exec]

/-- Settles O10: the completion by START's form, which needs no bus. -/
theorem startResult : Obligations.StartResult := by
  unfold Obligations.StartResult
  exact fun s pl h he hc hr => ⟨wordResponse s .start pl, loByte_wordResponse ..,
    isNackFlag_wordResponse h .., exec_cwOp_instr_completed he hc (.inl rfl) hr⟩

/-- Settles O11: the completion by WAIT_ACK's form, whose response echoes the payload. -/
theorem waitAckResult : Obligations.WaitAckResult := by
  unfold Obligations.WaitAckResult
  exact fun s pl h he hc hb hr => ⟨wordResponse s .waitAck pl, loByte_wordResponse ..,
    isNackFlag_wordResponse h .., exec_cwOp_instr_completed he hc (.inr hb) hr⟩

/-- Settles O12: the completion by WAIT_ACK_STOP's form, which stops whatever the acknowledge bit. -/
theorem waitAckStopResult : Obligations.WaitAckStopResult := by
  unfold Obligations.WaitAckStopResult
  exact fun s pl h he hc hb hr => ⟨wordResponse s .waitAckStop pl, loByte_wordResponse ..,
    isNackFlag_wordResponse h .., exec_cwOp_instr_completed he hc (.inr hb) hr⟩

/-- Settles O13: the completion by SEND_ACK's form, in which the payload has no place. -/
theorem sendAckResult : Obligations.SendAckResult := by
  unfold Obligations.SendAckResult
  exact fun s pl h he hc hb hr => ⟨wordResponse s .sendAck pl, loByte_wordResponse ..,
    isNackFlag_wordResponse h .., exec_cwOp_instr_completed he hc (.inr hb) hr⟩

/-- Settles O14: the completion by SEND_NACK_STOP's form; the drawn `nack` bit is not looked at. -/
theorem sendNackStopResult : Obligations.SendNackStopResult := by
  unfold Obligations.SendNackStopResult
  exact fun s pl he hc hb hr => ⟨wordResponse s .sendNackStop pl, loByte_wordResponse s .sendNackStop pl,
    exec_cwOp_instr_completed he hc (.inr hb) hr⟩

/-- Settles O15: only START's form passes the first check of a completion without the bus. -/
theorem wordOutOfFrameFaults : Obligations.WordOutOfFrameFaults := by
  unfold Obligations.WordOutOfFrameFaults
  intro s op pl hne he hc hb
  rw [exec_cwOp_instr, completeWord_outOfFrame he hc (wordForm_startBefore_of_ne hne) hb]

/-- Settles O16: a word in frame meets the second check of a completion, the room in the RX FIFO. -/
theorem rxFifoFullFaults : Obligations.RxFifoFullFaults := by
  unfold Obligations.RxFifoFullFaults
  intro s op pl he hc hf hr
  rw [exec_cwOp_instr, completeWord_full he hc (hf.imp_left wordForm_startBefore.mpr) hr]

/-- Settles O17: a completion asks first for its word in flight on an enabled core. -/
theorem wordNotInFlightWaits : Obligations.WordNotInFlightWaits := by
  unfold Obligations.WordNotInFlightWaits
  intro s op pl h
  rw [exec_cwOp_instr, completeWord_notInFlight h]

/-- Settles O18: the fetch by its two cases. -/
theorem fetchTakesTheOldestWord : Obligations.FetchTakesTheOldestWord := by
  unfold Obligations.FetchTakesTheOldestWord
  exact fun s => ⟨fun w ws he hc hq => congrArg Host.Outcome.next (engFetch_of_txq he hc hq),
    fun h => congrArg Host.Outcome.next (engFetch_idle h)⟩

end

section
/-! SUPPORT. The encoder's checks of a transfer request (spec/42_command_encoder.md R130 to R133): what an opened handle
makes of a request outside its contract. -/

namespace Sys2Proof.Machine

variable {s : State} {q : Request} {n : BitVec 16}

/-- When one of two checks of the encoder fails, the request's plan is the error, for the reason of a check that fails
(R130, 60 R207). -/
theorem transferPlan_of_fails {b₁ b₂ : Bool} {why₁ why₂ : Reason} {pick : Bool} {cw : List Word} {addr : Int}
    {sh : Shape} (h : (!b₁ && !b₂) = false) :
    ∃ why, (why == why₁ && b₁ || why == why₂ && b₂) = true ∧
      runRequest q (.next (transferPlan s.cfg (failingReason b₁ b₂ why₁ why₂ pick) cw addr sh)) s =
        runRequest q (.next ⟨[], raiseScript s.cfg (.contractViolation why) false⟩) s := by
  cases b₁ <;> cases b₂
  case false.false => cases h
  case false.true => exact ⟨why₂, by simp, rfl⟩
  case true.false => exact ⟨why₁, by simp, rfl⟩
  case true.true => exact ⟨if pick then why₁ else why₂, by cases pick <;> simp, rfl⟩

/-- The checks see the `cache_size` of an opened handle (R132, 70 R236). -/
theorem openedCacheSize_of_opened (ho : s.handle.opened = true) (hc : s.handle.cacheSize = some n) (q : Request) :
    openedCacheSize q s = .next n := by
  simp [openedCacheSize, ho, hc]

/-- On an opened handle a transfer request outside its contract has no words, and its script is the error (60 R207). -/
theorem exec_of_outOfContract (ho : s.handle.opened = true) (hc : s.handle.cacheSize = some n)
    (ht : isTransfer q = true) (hn : inContract n q = false) :
    ∃ why, reasonHolds n q why = true ∧
      exec q.instr s = runRequest q (.next ⟨[], raiseScript s.cfg (.contractViolation why) false⟩) s := by
  have hopen := openedCacheSize_of_opened ho hc
  cases q <;> simp only [isTransfer, Bool.false_eq_true] at ht
  case read a len =>
    simp only [Request.instr, exec, execRead, planRead, hopen, andThen_next]
    exact transferPlan_of_fails (by simpa only [inContract, Bool.not_not] using hn)
  case write a data =>
    simp only [Request.instr, exec, execWrite, planWrite, hopen, andThen_next]
    exact transferPlan_of_fails (by simpa only [inContract, Bool.not_not] using hn)
  case writeAndRead a data len =>
    simp only [Request.instr, exec, execWriteAndRead, planWriteAndRead, hopen, andThen_next]
    exact transferPlan_of_fails (by simpa only [inContract, Bool.not_not] using hn)

/-- A ContractViolation found before the lock is taken is all that its request does (60 R207). -/
theorem runRequest_contractViolation (hq : quiet s) (q : Request) (why : Reason) :
    runRequest q (.next ⟨[], raiseScript s.cfg (.contractViolation why) false⟩) s =
      .next (s.answered s.core s.handle (s.env.draws + 1) [] (.error (.contractViolation why))) := by
  have hl : s.drawn.log = { s.log with accesses := s.log.accesses ++ [] } := by simp
  calc runRequest q (.next ⟨[], raiseScript s.cfg (.contractViolation why) false⟩) s
      = runAlone s.env.client 5 (s.drawn.putJob
          (newJob s.env.client q ⟨[], [.answer (.error (.contractViolation why))]⟩)) := runRequest_quiet hq _ _
    _ = .next (deliver s.env.client (.error (.contractViolation why)) s.drawn) := runAlone_answer _
    _ = _ := congrArg _ (deliver_eq_answered hq _ rfl rfl rfl rfl hl)

end Sys2Proof.Machine
end

section
/-! SUPPORT. Successive steps of one requester's request (spec/00_scope.md R3), under a schedule or alone, and the parts of
`_transfer` as such steps (43_transfer_engine.md R145 to R156). -/

namespace Sys2Proof.Machine

/-- The state after steps of ENG and of a request: CORE and the model's inputs as given, these accesses recorded. -/
def State.ranTo (s : State) (k : CoreState) (e : Env) (es : List RegEvent) : State :=
  { s with core := k, env := e, log := { s.log with accesses := s.log.accesses ++ es } }

section RanTo

variable (s : State) (k : CoreState) (e : Env) (es : List RegEvent)

@[simp] theorem State.ranTo_ident : (s.ranTo k e es).ident = s.ident := rfl
@[simp] theorem State.ranTo_cfg : (s.ranTo k e es).cfg = s.cfg := (rfl)
@[simp] theorem State.ranTo_core : (s.ranTo k e es).core = k := rfl
@[simp] theorem State.ranTo_handle : (s.ranTo k e es).handle = s.handle := rfl
@[simp] theorem State.ranTo_jobs : (s.ranTo k e es).jobs = s.jobs := rfl
@[simp] theorem State.ranTo_env : (s.ranTo k e es).env = e := rfl
@[simp] theorem State.ranTo_log : (s.ranTo k e es).log = { s.log with accesses := s.log.accesses ++ es } := rfl
@[simp] theorem State.ranTo_hasJob (r : Nat) : (s.ranTo k e es).hasJob r = s.hasJob r := rfl

@[simp] theorem State.ranTo_putJob (j : Job) : (s.putJob j).ranTo k e es = (s.ranTo k e es).putJob j := rfl

@[simp] theorem State.ranTo_ranTo (k' : CoreState) (e' : Env) (es' : List RegEvent) :
    (s.ranTo k e es).ranTo k' e' es' = s.ranTo k' e' (es ++ es') := by
  simp [State.ranTo]

theorem State.ranTo_self : s.ranTo s.core s.env [] = s := by
  simp [State.ranTo]

theorem afterRead_eq_ranTo (who : Actor) (x : Reg) (v : RegVal) :
    afterRead who x v k s = s.ranTo k { s.env with draws := s.env.draws + 1 } [.read who x v] := rfl

theorem afterWrite_eq_ranTo (who : Actor) (x : Reg) (v : RegVal) :
    afterWrite who x v k s = s.ranTo k s.env [.write who x v] := rfl

end RanTo

/-! ### Successive steps -/

/-- So many steps of requester `r`'s request, with TIME's verdict `p` at each. -/
def frontSteps (r : Nat) (p : Bool) : Nat → State → Res State
  | 0, s => .next s
  | n + 1, s => andThen (feStep r p s) (frontSteps r p n)

variable {c : Config} {s t : State} {r : Nat} {p : Bool} {q : Request} {cw : List Word} {val : RegVal}
  {resp : List Byte} {rest : List Act} {m n : Nat}

@[simp] theorem frontSteps_zero : frontSteps r p 0 s = .next s := rfl

theorem frontSteps_add (h : frontSteps r p m s = .next t) : frontSteps r p (m + n) s = frontSteps r p n t := by
  induction m generalizing s with
  | zero => cases h; rw [Nat.zero_add]
  | succ m ih =>
    obtain ⟨u, hu, h⟩ := andThen_eq_next.mp h
    rw [Nat.succ_add, frontSteps, hu, andThen_next, ih h]

/-- The first of them is the head of the script. -/
theorem frontSteps_cons (a : Act) :
    frontSteps r p (n + 1) (s.putJob ⟨r, q, cw, val, resp, a :: rest⟩) =
      andThen (runAct a ⟨r, q, cw, val, resp, rest⟩ p (s.putJob ⟨r, q, cw, val, resp, a :: rest⟩))
        (frontSteps r p n) :=
  congrArg (andThen · _) (feStep_putJob s ⟨r, q, cw, val, resp, a :: rest⟩ a rest p rfl)

/-- A requester with no request takes no step. -/
theorem frontSteps_of_not_hasJob (h : s.hasJob r = false) : frontSteps r p n s = .next s := by
  have hf : feStep r p s = .next s := by
    have : findJob r s.jobs = none := by simpa [State.hasJob] using h
    simp [feStep, this]
  induction n with
  | zero => rfl
  | succ n ih => rw [frontSteps, hf, andThen_next, ih]

/-- A request that runs alone takes successive steps, with the verdict "passed" (log 4). -/
theorem runAlone_eq_frontSteps : runAlone r n s = frontSteps r true n s := by
  induction n generalizing s with
  | zero => rfl
  | succ n ih =>
    cases h : s.hasJob r with
    | false => rw [runAlone_done h, frontSteps_of_not_hasJob h]
    | true => 
      rw [runAlone, if_pos h]
      exact congrArg (andThen _) (funext fun _ => ih)

/-- A schedule that gives the request so many steps in a row makes them, if they leave it unanswered. -/
theorem drive_replicate_fe (ms : List Move) (h : frontSteps r p n s = .next t) (ht : t.hasJob r = true) :
    drive r (List.replicate n (.fe r p) ++ ms) s = drive r ms t := by
  induction n generalizing s with
  | zero => cases h; rfl
  | succ n ih =>
    have hs : s.hasJob r = true := by
      by_contra hn
      rw [frontSteps_of_not_hasJob (by simpa using hn)] at h
      cases h
      exact hn ht
    obtain ⟨u, hu, h⟩ := andThen_eq_next.mp h
    rw [List.replicate_succ, List.cons_append, drive, if_pos hs, move, hu, andThen_next, ih h]

/-! ### The parts of `_transfer` -/

/-- Steps 1 to 3 of `_transfer`, from the lock to the two tests for residue (43 R145 to R148). -/
abbrev checksScript (c : Config) : List Act :=
  [.acquire, .checkLength, .regRead c.offTxCount .w8, .checkEmpty .send, .regRead c.offRxCount .w8,
    .checkEmpty .receive]

theorem transferScript_eq (c : Config) (cw : List Word) (addr : BitVec 7) (sh : Shape) :
    transferScript c cw addr sh = checksScript c ++ (loadScript c cw ++ (pollScript c ++
      (readBackScript c cw.length ++ [.release, .decodeResponse addr sh]))) := by
  simp [transferScript]

/-- The state of a transfer that has passed its checks: the lock is taken, both counts have been read. -/
def State.checked (s : State) (r : Nat) : State :=
  (s.setLock (some r)).ranTo s.core { s.env with draws := s.env.draws + 2 }
    [.read (.fe r) .txCount (.b8 0#8), .read (.fe r) .rxCount (.b8 0#8)]

/-- The checks of a transfer that fits, with the lock free and both FIFOs empty. -/
theorem frontSteps_checksScript (h : c.WF) (hc : s.cfg = c) (hl : s.handle.lock = none) {size : BitVec 16}
    (hs : s.handle.cacheSize = some size) (hne : cw ≠ []) (hfit : cw.length ≤ size.toNat) (htx : s.core.txq = [])
    (hrx : s.core.rxq = []) :
    frontSteps r p 6 (s.putJob ⟨r, q, cw, val, resp, checksScript c ++ rest⟩) =
      .next ((s.checked r).putJob ⟨r, q, cw, .b8 0#8, resp, rest⟩) := by
  have htxc := regRead_txCount (s := s.setLock (some r)) (.fe r) h hc
  have hrxc := regRead_rxCount (s := afterRead (.fe r) .txCount (.b8 0#8) s.core (s.setLock (some r))) (.fe r) h hc
  simp [frontSteps_cons, runAct, acquireLock, hl, hs, hne, Nat.not_lt.mpr hfit, htxc, hrxc, htx, hrx, regValNat]
  simp [State.checked, State.ranTo, State.setCore, State.drawn, State.logAccess]

/-- The load: an enabled core with room queues every word (43 R149, 20 R45). -/
theorem frontSteps_loadScript (h : c.WF) (hc : s.cfg = c) (he : s.core.en = true) (ws : List Word)
    (hroom : s.core.txq.length + ws.length ≤ c.fifoDepth) :
    frontSteps r p ws.length (s.putJob ⟨r, q, cw, val, resp, loadScript c ws ++ rest⟩) =
      .next ((s.ranTo { s.core with txq := s.core.txq ++ ws } s.env
        (ws.map fun w => .write (.fe r) .txBuf (.b16 w))).putJob ⟨r, q, cw, val, resp, rest⟩) := by
  induction ws generalizing s with
  | nil =>
    rw [List.append_nil]
    exact congrArg (fun u => Host.Outcome.next (State.putJob u _)) s.ranTo_self.symm
  | cons w ws ih =>
    have hlen : s.core.txq.length + (ws.length + 1) ≤ c.fifoDepth := hroom
    have hpush := corePushTx_room c w he (by omega)
    have hw := regWrite_txBuf (.fe r) h hc w
    rw [hpush, andThen_next, afterWrite_eq_ranTo] at hw
    have hrest := ih (s := s.ranTo { s.core with txq := s.core.txq ++ [w] } s.env [.write (.fe r) .txBuf (.b16 w)])
      hc he (by simp; omega)
    rw [loadScript] at hrest
    simp [loadScript, frontSteps_cons, runAct, hw, hrest]

/-- A poll that finds a response for every word goes on (43 R150, R151). -/
theorem frontSteps_pollScript (h : c.WF) (hc : s.cfg = c) (hr : s.core.rxq.length = cw.length)
    (hfit : cw.length ≤ c.fifoDepth) :
    frontSteps r p 2 (s.putJob ⟨r, q, cw, val, resp, pollScript c ++ rest⟩) =
      .next ((s.ranTo s.core { s.env with draws := s.env.draws + 1 }
        [.read (.fe r) .rxCount (.b8 (BitVec.ofNat 8 cw.length))]).putJob
          ⟨r, q, cw, .b8 (BitVec.ofNat 8 cw.length), resp, rest⟩) := by
  have hread := regRead_rxCount (.fe r) h hc
  have hcount := toNat_ofNat_of_le_fifoDepth h hfit
  rw [hr, afterRead_eq_ranTo] at hread
  simp [pollScript, frontSteps_cons, runAct, hread, regValNat, hcount]

/-- The read-back of every response: the RX FIFO is emptied, the responses are flattened in order (43 R155). -/
theorem frontSteps_readBackScript (h : c.WF) (hc : s.cfg = c) {rws : List Word} (hr : s.core.rxq = rws) :
    ∃ val' draws, frontSteps r p (2 * rws.length)
        (s.putJob ⟨r, q, cw, val, resp, readBackScript c rws.length ++ rest⟩) =
      .next ((s.ranTo { s.core with rxq := [] } { s.env with draws := draws }
        (rws.map fun w => .read (.fe r) .rxBuf (.b16 w))).putJob
          ⟨r, q, cw, val', resp ++ rws.flatMap flatten, rest⟩) := by
  induction rws generalizing s val resp with
  | nil =>
    refine ⟨val, s.env.draws, ?_⟩
    have hcore : { s.core with rxq := [] } = s.core := by rw [← hr]
    rw [hcore, List.flatMap_nil, List.append_nil]
    exact congrArg (fun u => Host.Outcome.next (State.putJob u _)) s.ranTo_self.symm
  | cons w rws ih =>
    have hread := regRead_rxBuf_cons (.fe r) h hc hr
    rw [afterRead_eq_ranTo] at hread
    obtain ⟨val', draws, hrest⟩ := ih (resp := resp ++ flatten w) (val := .b16 w)
      (s := s.ranTo { s.core with rxq := rws } { s.env with draws := s.env.draws + 1 }
        [.read (.fe r) .rxBuf (.b16 w)]) hc rfl
    refine ⟨val', draws, ?_⟩
    rw [List.length_cons, Nat.mul_succ]
    simp [readBackScript, frontSteps_cons, runAct, hread, regValWord, hrest]

/-- The end of `_transfer`: the lock is given back and the decoder's answer handed over (43 R156, 44 R170). -/
theorem frontSteps_transferEnd (hl : s.handle.lock = some r) (addr : BitVec 7) (sh : Shape) :
    frontSteps r p 2 (s.putJob ⟨r, q, cw, val, resp, [.release, .decodeResponse addr sh]⟩) =
      .next (deliver r (decodedAnswer s.cfg.isNack addr sh resp cw.length) (s.setLock none)) := by
  simp [frontSteps_cons, runAct, releaseLock, hl, deliver_putJob_mk]

end Sys2Proof.Machine
end

section
/-! SUPPORT. Command words with BUS's answers: what ENG makes of them, and the decoder of the responses
(spec/41_command_words.md R110 to R118, 44_response_decoder.md R170 to R174). -/

namespace Sys2Proof.Machine

/-- A command word and BUS's answers at its completion (41 R111). -/
structure Exchange where
  op      : CwOp
  payload : Byte
  ack     : Bool
  data    : Byte

namespace Exchange

def word (c : Config) (x : Exchange) : Word := commandWord c x.op x.payload

/-- BUS's answers. -/
def bus (x : Exchange) : Bool × Byte := (x.ack, x.data)

/-- The bus events of the word (41 R114 to R118). -/
def events (owned : Bool) (x : Exchange) : List BusEvent :=
  wordEvents (wordForm x.op) owned x.payload x.ack x.data

/-- Whether the bus stays owned after the word (30 R74). -/
def keepsBus (x : Exchange) : Bool := !(wordForm x.op).stopAfter

/-- Whether the word's response reports a NACK, SEND_NACK_STOP aside: a byte received is ACKed (41 R114 to R117). -/
def nacked (x : Exchange) : Bool := !(wordForm x.op).receive && x.ack

/-- The data byte of the word's response. -/
def reply (x : Exchange) : Byte := wordData (wordForm x.op) x.payload x.data

/-- This response word answers the exchange; the flags of the response to SEND_NACK_STOP are left open (41 R118). -/
def AnsweredBy (mask : Byte) (x : Exchange) (rw : Word) : Prop :=
  loByte rw = x.reply ∧ (x.keepsBus = true → isNackFlag mask (hiByte rw) = x.nacked)

end Exchange

section Engine

variable {s t : State} {r : Nat} {ms : List Move}

/-- The response to a word that keeps the bus reports the acknowledge bit sampled, or that the byte was ACKed. -/
theorem answeredBy_wordResponse (h : s.cfg.WF) (x : Exchange) (hack : s.env.busAck = x.ack)
    (hdata : s.env.busData = x.data) : x.AnsweredBy s.cfg.isNack (wordResponse s x.op x.payload) := by
  refine ⟨by rw [loByte_wordResponse, hdata, Exchange.reply], fun hk => ?_⟩
  rw [isNackFlag_wordResponse h, Exchange.nacked, ← hack]
  cases hop : x.op
  case sendNackStop => simp [Exchange.keepsBus, hop, wordForm] at hk
  all_goals simp [wordNack, wordForm]

/-- CORE after the word has been answered by this response (41 R113). -/
def CoreState.exchanged (k : CoreState) (x : Exchange) (ws : List Word) (rw : Word) : CoreState :=
  { k with
    txq := ws, rxq := k.rxq ++ [rw], busOwned := x.keepsBus, trace := k.trace ++ x.events k.busOwned }

/-- ENG completes the word in flight, in frame and with room for its response (41 R113). -/
theorem engComplete_exchange (x : Exchange) (h : s.cfg.WF) (he : s.core.en = true)
    (hc : s.core.cur = some (x.word s.cfg)) (hf : x.op = .start ∨ s.core.busOwned = true)
    (hr : s.core.rxq.length ≠ s.cfg.fifoDepth) (hack : s.env.busAck = x.ack) (hdata : s.env.busData = x.data) :
    engComplete s = .next (s.completed (x.events s.core.busOwned) (wordResponse s x.op x.payload) x.keepsBus) := by
  have hop : opOfByte s.cfg (hiByte (x.word s.cfg)) = some x.op := by
    rw [Exchange.word, hiByte_commandWord, opOfByte_opByte h]
  rw [engComplete_word he hc hop, execWord_eq_exec, Exchange.word, loByte_commandWord,
    exec_cwOp_instr_completed he hc hf hr, hack, hdata]
  rfl

/-- The state in which ENG completes the exchange's word, fetched from a TX FIFO that is left with these words. -/
def State.inFlight (s : State) (x : Exchange) (ws : List Word) : State :=
  (s.setCore { s.core with cur := some (x.word s.cfg), txq := ws }).setBus x.ack x.data

/-- A move of the schedule, while the request is unanswered. -/
theorem drive_cons {m : Move} (hj : s.hasJob r = true) (hm : move m s = .next t) : 
    drive r (m :: ms) s = drive r ms t := by
  rw [drive, if_pos hj, hm, andThen_next]

/-- ENG fetches and completes the oldest word. -/
theorem drive_exchange (x : Exchange) (h : s.cfg.WF) (hj : s.hasJob r = true) {ws : List Word}
    (he : s.core.en = true) (hc : s.core.cur = none) (hq : s.core.txq = x.word s.cfg :: ws)
    (hf : x.op = .start ∨ s.core.busOwned = true) (hr : s.core.rxq.length ≠ s.cfg.fifoDepth) :
    ∃ e rw, e.agenda = s.env.agenda ∧ x.AnsweredBy s.cfg.isNack rw ∧
      drive r (.fetch :: .complete x.ack x.data :: ms) s =
        drive r ms (s.ranTo (s.core.exchanged x ws rw) e []) := by
  have hfetch : move .fetch s = .next (s.setCore { s.core with cur := some (x.word s.cfg), txq := ws }) :=
    congrArg _ (engFetch_of_txq he hc hq)
  have hcomplete : move (.complete x.ack x.data) (s.setCore { s.core with cur := some (x.word s.cfg), txq := ws }) = _ :=
    engComplete_exchange (s := s.inFlight x ws) x h he rfl hf hr rfl rfl
  refine ⟨{ (s.inFlight x ws).env with draws := s.env.draws + 1 }, wordResponse (s.inFlight x ws) x.op x.payload, rfl,
    answeredBy_wordResponse (s := s.inFlight x ws) h x rfl rfl, ?_⟩
  rw [drive_cons hj hfetch, drive_cons (by exact hj) hcomplete]
  simp [State.completed, State.inFlight, State.ranTo, CoreState.exchanged, hc]

/-- The bus events of successive words (41 R110), from a bus that is owned or not. -/
def eventsOf : Bool → List Exchange → List BusEvent
  | _, [] => []
  | owned, x :: xs => x.events owned ++ eventsOf x.keepsBus xs

/-- Every word stands in frame (41 R121), and the last one releases the bus. -/
def InFrame : Bool → List Exchange → Prop
  | owned, [] => owned = false
  | owned, x :: xs => (x.op = .start ∨ owned = true) ∧ InFrame x.keepsBus xs

/-- ENG works off words in frame with room for their responses: each has its response, and the bus is released. -/
theorem drive_exchanges (xs : List Exchange) (h : s.cfg.WF) (hj : s.hasJob r = true) (he : s.core.en = true)
    (hc : s.core.cur = none) (hq : s.core.txq = xs.map (Exchange.word s.cfg)) (hf : InFrame s.core.busOwned xs)
    (hr : s.core.rxq.length + xs.length ≤ s.cfg.fifoDepth) :
    ∃ e rws, e.agenda = s.env.agenda ∧ List.Forall₂ (Exchange.AnsweredBy s.cfg.isNack) xs rws ∧
      drive r (engineMoves (xs.map Exchange.bus)) s = drive r [] (s.ranTo { s.core with
        txq := [], rxq := s.core.rxq ++ rws, busOwned := false,
        trace := s.core.trace ++ eventsOf s.core.busOwned xs } e []) := by
  induction xs generalizing s with
  | nil =>
    refine ⟨s.env, [], rfl, .nil, congrArg (drive r []) ?_⟩
    have hcore : { s.core with txq := [], busOwned := false } = s.core := by
      rw [← show s.core.busOwned = false from hf, ← show s.core.txq = [] from hq]
    simp [eventsOf, hcore, State.ranTo_self]
  | cons x xs ih =>
    obtain ⟨hfx, hfs⟩ := hf
    rw [List.length_cons] at hr
    obtain ⟨e, rw₁, hag, hans, hdrive⟩ :=
      drive_exchange (ms := engineMoves (xs.map Exchange.bus)) x h hj he hc hq hfx (by omega)
    obtain ⟨e', rws, hag', hans', hdrive'⟩ := ih
      (s := s.ranTo (s.core.exchanged x (xs.map (Exchange.word s.cfg)) rw₁) e []) h hj he hc rfl hfs
      (by simp [CoreState.exchanged]; omega)
    refine ⟨e', rw₁ :: rws, hag'.trans hag, .cons hans hans', hdrive.trans (hdrive'.trans ?_)⟩
    simp [CoreState.exchanged, eventsOf]

end Engine

/-! ### Transactions -/

/-- On an owned bus every word is in frame. -/
theorem inFrame_of_owned {xs ys : List Exchange} (hx : ∀ x ∈ xs, x.keepsBus = true) (hy : InFrame true ys) :
    InFrame true (xs ++ ys) := by
  induction xs with
  | nil => exact hy
  | cons x xs ih =>
    obtain ⟨hkx, hks⟩ := List.forall_mem_cons.mp hx
    exact ⟨.inr rfl, hkx ▸ ih hks⟩

theorem eventsOf_append {xs ys : List Exchange} (hx : ∀ x ∈ xs, x.keepsBus = true) :
    eventsOf true (xs ++ ys) = xs.flatMap (Exchange.events true) ++ eventsOf true ys := by
  induction xs with
  | nil => rfl
  | cons x xs ih =>
    obtain ⟨hkx, hks⟩ := List.forall_mem_cons.mp hx
    rw [List.cons_append, eventsOf, hkx, ih hks, List.flatMap_cons, List.append_assoc]

/-- The words of one transfer with BUS's answers: START, words that keep the bus, one that releases it (42 R131 to
R133). -/
structure Transaction where
  first : Exchange
  body : List Exchange
  last : Exchange
  first_start : first.op = .start
  body_keeps : ∀ x ∈ body, x.keepsBus = true
  last_releases : last.keepsBus = false

namespace Transaction

variable (T : Transaction)

def all : List Exchange := T.first :: (T.body ++ [T.last])

/-- Whether a byte sent before the last word was NACKed. -/
def nacked : Bool := T.first.nacked || T.body.any Exchange.nacked

theorem first_keepsBus : T.first.keepsBus = true := by
  simp [Exchange.keepsBus, T.first_start, wordForm]

theorem inFrame_all : InFrame false T.all :=
  ⟨.inl T.first_start, T.first_keepsBus ▸ inFrame_of_owned T.body_keeps ⟨.inr rfl, T.last_releases⟩⟩

theorem eventsOf_all : eventsOf false T.all =
    T.first.events false ++ T.body.flatMap (Exchange.events true) ++ T.last.events true := by
  rw [all, eventsOf, T.first_keepsBus, eventsOf_append T.body_keeps]
  simp [eventsOf]

end Transaction

/-! ### The decoder on the responses -/

/-- The pairs of the flattened responses are their bytes (43 R155, 44 R170). -/
theorem pairsOf_flatMap_flatten (rws : List Word) :
    pairsOf (rws.flatMap flatten) = rws.map fun w => (loByte w, hiByte w) := by
  induction rws with
  | nil => rfl
  | cons w rws ih => rw [List.map_cons, ← ih]; rfl

variable {mask : Byte} {rws : List Word}

/-- The data bytes of the responses are the replies of the exchanges. -/
theorem dataBytes_of_answered {xs : List Exchange} (h : List.Forall₂ (Exchange.AnsweredBy mask) xs rws) :
    dataBytes (rws.flatMap flatten) xs.length = xs.map Exchange.reply := by
  have hlo : rws.map loByte = xs.map Exchange.reply := by
    induction h with
    | nil => rfl
    | cons hx _ ih => rw [List.map_cons, List.map_cons, hx.1, ih]
  rw [dataBytes, pairsOf_flatMap_flatten, h.length_eq, List.take_of_length_le (by simp), List.map_map, ← hlo]
  rfl

/-- The flags of responses to words that keep the bus report their NACKs. -/
theorem any_isNackFlag_of_answered {xs : List Exchange} (h : List.Forall₂ (Exchange.AnsweredBy mask) xs rws)
    (hk : ∀ x ∈ xs, x.keepsBus = true) :
    (rws.any fun w => isNackFlag mask (hiByte w)) = xs.any Exchange.nacked := by
  induction h with
  | nil => rfl
  | cons hx _ ih =>
    obtain ⟨hkx, hks⟩ := List.forall_mem_cons.mp hk
    rw [List.any_cons, List.any_cons, hx.2 hkx, ih hks]

/-- The scan of a transaction's responses leaves the last one out (44 R171). -/
theorem scanFindsNack_of_answered (T : Transaction) (h : List.Forall₂ (Exchange.AnsweredBy mask) T.all rws) :
    scanFindsNack mask (rws.flatMap flatten) T.all.length = T.nacked := by
  have htake : T.all.take (T.all.length - 1) = T.first :: T.body := by simp [Transaction.all]
  have hinit := List.forall₂_take (T.all.length - 1) h
  rw [htake] at hinit
  have hany := any_isNackFlag_of_answered hinit (List.forall_mem_cons.mpr ⟨T.first_keepsBus, T.body_keeps⟩)
  rw [List.any_cons] at hany
  rw [scanFindsNack, pairsOf_flatMap_flatten, ← List.map_take, List.any_map, Transaction.nacked, ← hany]
  rfl

/-- What the decoder answers when no NACK was met (44 R172 to R174). -/
def Transaction.result (T : Transaction) : Shape → Answer
  | .write => .done
  | .read => .bytes ((T.all.map Exchange.reply).drop 1)
  | .writeAndRead L => .bytes ((T.all.map Exchange.reply).drop (L + 2))

/-- The decoder's answer to a transaction (44 R170). -/
theorem decodedAnswer_of_answered (T : Transaction) (h : List.Forall₂ (Exchange.AnsweredBy mask) T.all rws)
    (addr : BitVec 7) (sh : Shape) :
    decodedAnswer mask addr sh (rws.flatMap flatten) T.all.length =
      if T.nacked then .error (.nack addr) else T.result sh := by
  have hdata := dataBytes_of_answered h
  rw [decodedAnswer, scanFindsNack_of_answered T h]
  cases sh <;> simp only [extraction, extractRead, extractWrRd, hdata, Transaction.result]

end Sys2Proof.Machine
end

section
/-! SUPPORT. A transfer from an idle controller by its schedule: its words loaded in a row, then all completed by ENG, then
read back alone (spec/43_transfer_engine.md R145 to R158). -/

namespace Sys2Proof.Machine

/-- The accesses of a transfer up to the end of its load, from empty FIFOs (43 R147 to R149). -/
def loadAccesses (r : Nat) (cw : List Word) : List RegEvent :=
  [.read (.fe r) .txCount (.b8 0#8), .read (.fe r) .rxCount (.b8 0#8)] ++ cw.map fun w => .write (.fe r) .txBuf (.b16 w)

/-- The accesses of a transfer whose first poll finds all its responses (43 R150, R155). -/
def readBackAccesses (r : Nat) (rws : List Word) : List RegEvent :=
  .read (.fe r) .rxCount (.b8 (BitVec.ofNat 8 rws.length)) :: rws.map fun w => .read (.fe r) .rxBuf (.b16 w)

/-- The state of a transfer that has loaded its words, from empty FIFOs. -/
def State.loaded (s : State) (r : Nat) (cw : List Word) : State :=
  (s.setLock (some r)).ranTo { s.core with txq := cw } { s.env with draws := s.env.draws + 2 } (loadAccesses r cw)

variable (r : Nat) (cw rws : List Word)

theorem configWritten_transfer : configWritten (loadAccesses r cw ++ readBackAccesses r rws) = false := by
  simp [configWritten, loadAccesses, readBackAccesses]

theorem txWrites_reads : txWrites (rws.map fun w => .read (.fe r) .rxBuf (.b16 w)) = [] := by
  induction rws with
  | nil => rfl
  | cons w rws ih => exact ih

theorem txWrites_transfer : txWrites (loadAccesses r cw ++ readBackAccesses r rws) = cw.map .b16 := by
  rw [loadAccesses, List.append_assoc]
  change txWrites (cw.map _ ++ _) = _
  induction cw with
  | nil => exact txWrites_reads r rws
  | cons w cw ih => exact congrArg _ ih

variable {r cw rws} {s : State} {q : Request} {val : RegVal} {resp : List Byte} {addr : BitVec 7} {sh : Shape}
  {ms : List Move}

/-- The script of a transfer that has loaded its words (43 R150 to R156). -/
abbrev afterLoad (c : Config) (W : Nat) (addr : BitVec 7) (sh : Shape) : List Act :=
  pollScript c ++ (readBackScript c W ++ [.release, .decodeResponse addr sh])

/-- The moves of the load, on an idle controller with the lock free. -/
theorem drive_loadMoves (h : s.cfg.WF) (hidle : coreIdle s.core) (hl : s.handle.lock = none)
    (hsize : s.handle.cacheSize = some (BitVec.ofNat 16 s.cfg.fifoDepth)) (hne : cw ≠ [])
    (hfit : cw.length ≤ s.cfg.fifoDepth) :
    drive r (loadMoves r cw.length ++ ms) (s.putJob ⟨r, q, cw, val, resp, transferScript s.cfg cw addr sh⟩) =
      drive r ms ((s.loaded r cw).putJob ⟨r, q, cw, .b8 0#8, resp, afterLoad s.cfg cw.length addr sh⟩) := by
  obtain ⟨he, htx, hrx, -, -⟩ := hidle
  refine drive_replicate_fe ms ?_ (State.hasJob_putJob _ _)
  have hchecks := frontSteps_checksScript (r := r) (p := false) (q := q) (val := val) (resp := resp)
    (rest := loadScript s.cfg cw ++ afterLoad s.cfg cw.length addr sh) h rfl hl hsize hne
    (by rwa [toNat_ofNat_fifoDepth h]) htx hrx
  have hload := frontSteps_loadScript (s := s.checked r) (r := r) (p := false) (q := q) (cw := cw) (val := .b8 0#8)
    (resp := resp) (rest := afterLoad s.cfg cw.length addr sh) h rfl he cw (by simpa [State.checked, htx] using hfit)
  rw [transferScript_eq, frontSteps_add hchecks, hload]
  simp [State.checked, State.loaded, loadAccesses, htx]

/-- The rest of the transfer, alone, when every word has its response. -/
theorem runAlone_afterLoad (h : s.cfg.WF) (hl : s.handle.lock = some r) (hr : s.core.rxq = rws)
    {W : Nat} (hlen : rws.length = W) (hcw : cw.length = W) (hfit : W ≤ s.cfg.fifoDepth) :
    ∃ draws, runAlone r (scriptSteps (afterLoad s.cfg W addr sh) + 4)
        (s.putJob ⟨r, q, cw, val, [], afterLoad s.cfg W addr sh⟩) =
      .next (deliver r (decodedAnswer s.cfg.isNack addr sh (rws.flatMap flatten) W)
        ((s.ranTo { s.core with rxq := [] } { s.env with draws := draws } (readBackAccesses r rws)).setLock none)) := by
  subst hlen
  have hsteps : scriptSteps (afterLoad s.cfg rws.length addr sh) + 4 = 2 + (2 * rws.length + (2 + 4)) := by
    simp [afterLoad, pollScript]; omega
  have hpoll := frontSteps_pollScript (r := r) (p := true) (q := q) (val := val) (resp := [])
    (rest := readBackScript s.cfg rws.length ++ [.release, .decodeResponse addr sh]) h rfl (by rw [hr, hcw])
    (hcw ▸ hfit)
  rw [hcw] at hpoll
  obtain ⟨val', draws, hback⟩ := frontSteps_readBackScript (r := r) (p := true) (q := q) (cw := cw) (resp := [])
    (val := .b8 (BitVec.ofNat 8 rws.length)) (rest := [.release, .decodeResponse addr sh])
    (s := s.ranTo s.core { s.env with draws := s.env.draws + 1 }
      [.read (.fe r) .rxCount (.b8 (BitVec.ofNat 8 rws.length))]) h rfl hr
  refine ⟨draws, ?_⟩
  rw [hsteps, runAlone_eq_frontSteps, frontSteps_add hpoll, frontSteps_add hback,
    frontSteps_add (frontSteps_transferEnd (by exact hl) addr sh), frontSteps_of_not_hasJob (hasJob_deliver ..), hcw]
  simp [readBackAccesses]

/-- The record of a transfer that has loaded its words. -/
abbrev loadedJob (c : Config) (r : Nat) (q : Request) (cw : List Word) (addr : BitVec 7) (sh : Shape) : Job :=
  ⟨r, q, cw, .b8 0#8, [], afterLoad c cw.length addr sh⟩

/-- CORE after a transaction from an idle controller (43 R158). -/
abbrev Transaction.coreAfter (T : Transaction) (k : CoreState) : CoreState :=
  { k with trace := k.trace ++ eventsOf false T.all }

/-- The answer to a transaction (44 R170 to R174). -/
def Transaction.answer (T : Transaction) (addr : BitVec 7) (sh : Shape) : Answer :=
  if T.nacked then .error (.nack addr) else T.result sh

/-- The state of a transfer whose words ENG has all completed. -/
def State.responded (s : State) (r : Nat) (cw : List Word) (T : Transaction) (rws : List Word) (e : Env) : State :=
  (s.loaded r cw).ranTo { T.coreAfter s.core with rxq := rws } e []

/-- ENG completes the words a transfer has loaded. -/
theorem drive_loaded (T : Transaction) (h : s.cfg.WF) (hidle : coreIdle s.core) (hfit : T.all.length ≤ s.cfg.fifoDepth)
    (hcw : cw = T.all.map (Exchange.word s.cfg)) (j : Job) (hj : j.rid = r) :
    ∃ e rws, e.agenda = s.env.agenda ∧ List.Forall₂ (Exchange.AnsweredBy s.cfg.isNack) T.all rws ∧
      drive r (engineMoves (T.all.map Exchange.bus)) ((s.loaded r cw).putJob j) =
        drive r [] ((s.responded r cw T rws e).putJob j) := by
  obtain ⟨he, htx, hrx, hcur, hb⟩ := hidle
  subst hj
  obtain ⟨e, rws, hage, hans, hdrive⟩ := drive_exchanges (s := (s.loaded j.rid cw).putJob j) T.all h
    (State.hasJob_putJob _ j) he hcur hcw (by exact hb ▸ T.inFrame_all) (by simpa [State.loaded, hrx] using hfit)
  refine ⟨e, rws, hage, hans, hdrive.trans (congrArg (drive j.rid []) ?_)⟩
  simp [State.loaded, State.responded, htx, hrx, hb]

/-- The whole of `_transfer`, with no deadline passing: the lock is free again (43 R158). -/
theorem drive_transaction (T : Transaction) (h : s.cfg.WF) (hidle : coreIdle s.core) (hl : s.handle.lock = none)
    (hsize : s.handle.cacheSize = some (BitVec.ofNat 16 s.cfg.fifoDepth)) (hfit : T.all.length ≤ s.cfg.fifoDepth)
    (hcw : cw = T.all.map (Exchange.word s.cfg)) :
    ∃ e es, e.agenda = s.env.agenda ∧ configWritten es = false ∧ txWrites es = cw.map .b16 ∧
      drive r (loadMoves r T.all.length ++ engineMoves (T.all.map Exchange.bus))
          (s.putJob (newJob r q ⟨cw, transferScript s.cfg cw addr sh⟩)) =
        .next (deliver r (T.answer addr sh) (s.ranTo (T.coreAfter s.core) e es)) := by
  have hlen : cw.length = T.all.length := by rw [hcw, List.length_map]
  have hne : cw ≠ [] := by simp [hcw, Transaction.all]
  obtain ⟨e, rws, hage, hans, hengine⟩ := drive_loaded T h hidle hfit hcw (loadedJob s.cfg r q cw addr sh) rfl
  obtain ⟨draws, hend⟩ := runAlone_afterLoad (s := s.responded r cw T rws e) (q := q) (val := .b8 0#8) (addr := addr)
    (sh := sh) h rfl rfl (hans.length_eq.symm.trans hlen.symm) rfl (hlen ▸ hfit)
  refine ⟨{ e with draws := draws }, loadAccesses r cw ++ readBackAccesses r rws, hage, configWritten_transfer ..,
    txWrites_transfer .., ?_⟩
  have hanswer := decodedAnswer_of_answered T hans addr sh
  calc drive r (loadMoves r T.all.length ++ engineMoves (T.all.map Exchange.bus))
          (s.putJob (newJob r q ⟨cw, transferScript s.cfg cw addr sh⟩))
      = drive r (engineMoves (T.all.map Exchange.bus)) ((s.loaded r cw).putJob (loadedJob s.cfg r q cw addr sh)) :=
        hlen ▸ drive_loadMoves h hidle hl hsize hne (hlen ▸ hfit)
    _ = runAlone r (scriptSteps (afterLoad s.cfg cw.length addr sh) + 4)
          ((s.responded r cw T rws e).putJob (loadedJob s.cfg r q cw addr sh)) := by
      rw [hengine, drive, aloneFuel_putJob]
    _ = .next (deliver r (T.answer addr sh) (((s.responded r cw T rws e).ranTo
          { (s.responded r cw T rws e).core with rxq := [] } { e with draws := draws }
          (readBackAccesses r rws)).setLock none)) := by
      rw [Transaction.answer, ← hanswer, ← hlen]; exact hend
    _ = _ := by
      obtain ⟨-, -, hrx, -, -⟩ := hidle
      have hhandle : { s.handle with lock := none } = s.handle := by rw [← hl]
      simp [State.responded, State.loaded, State.ranTo, State.setLock, hrx, hhandle, Transaction.coreAfter]

/-- A request runs among the moves of the agenda from its submission on (log 6). -/
theorem runRequest_next (hj : s.hasJob s.env.client = false) (plan : Plan) :
    runRequest q (.next plan) s =
      drive s.env.client s.env.agenda ((s.drawn.setAgenda []).putJob (newJob s.env.client q plan)) := by
  rw [runRequest, if_neg (by simp [hj])]
  rfl

/-- The same from the submission of the request on, the transaction given by its words and BUS's answers, what it comes
to by its events and its answer. -/
theorem runRequest_transaction (T : Transaction) (h : s.cfg.WF) (hidle : coreIdle s.core) (hl : s.handle.lock = none)
    (hj : s.hasJob s.env.client = false) (hsize : s.handle.cacheSize = some (BitVec.ofNat 16 s.cfg.fifoDepth))
    (hcw : T.all.map (Exchange.word s.cfg) = cw) (hfit : cw.length ≤ s.cfg.fifoDepth) {bus : List (Bool × Byte)}
    (hbus : T.all.map Exchange.bus = bus)
    (hag : s.env.agenda = loadMoves s.env.client bus.length ++ engineMoves bus)
    {events : List BusEvent} (hev : eventsOf false T.all = events) {a : Answer} (hans : T.answer addr sh = a) :
    ∃ t es, runRequest q (.next ⟨cw, transferScript s.cfg cw addr sh⟩) s = .next t ∧
      t.core = { s.core with trace := s.core.trace ++ events } ∧
      t.handle = s.handle ∧ t.jobs = s.jobs ∧ t.cfg = s.cfg ∧ t.env.agenda = [] ∧
      t.log.accesses = s.log.accesses ++ es ∧ configWritten es = false ∧ txWrites es = cw.map .b16 ∧
      t.log.answers = s.log.answers ++ [(s.env.client, a)] := by
  subst hcw hbus hev hans
  rw [List.length_map] at hfit hag
  obtain ⟨e, es, hage, hconf, htx, hrun⟩ := drive_transaction (s := s.drawn.setAgenda []) (r := s.env.client) (q := q)
    (addr := addr) (sh := sh) T h hidle hl hsize hfit rfl
  rw [runRequest_next hj, hag]
  exact ⟨_, es, hrun, rfl, rfl, dropJob_eq_self hj, rfl, hage, rfl, hconf, htx, rfl⟩

end Sys2Proof.Machine
end

section
/-! SUPPORT. The transactions of `write`, `read` and `write_and_read` (spec/42_command_encoder.md R131 to R133). -/

namespace Sys2Proof.Machine

/-- The word with this opcode and payload, and this answer of BUS. -/
def Exchange.of (op : CwOp) (pl : Byte) (y : Bool × Byte) : Exchange := ⟨op, pl, y.1, y.2⟩

namespace Exchange

variable (c : Config) (op : CwOp) (pl : Byte) (y : Bool × Byte) (owned : Bool)

@[simp] theorem of_word : (of op pl y).word c = commandWord c op pl := rfl
@[simp] theorem of_bus : (of op pl y).bus = y := rfl
@[simp] theorem of_events : (of op pl y).events owned = wordEvents (wordForm op) owned pl y.1 y.2 := rfl
@[simp] theorem of_nacked : (of op pl y).nacked = (!(wordForm op).receive && y.1) := rfl
@[simp] theorem of_reply : (of op pl y).reply = wordData (wordForm op) pl y.2 := rfl

end Exchange

/-- Bytes sent with WAIT_ACK, each with BUS's answer. -/
def sent (ps : List (Byte × Bool × Byte)) : List Exchange := ps.map fun p => .of .waitAck p.1 p.2

/-- Bytes received with SEND_ACK. -/
def received (ys : List (Bool × Byte)) : List Exchange := ys.map (.of .sendAck dummyData)

/-- Payloads and BUS's answers of the same number are the parts of pairs. -/
theorem exists_pairs {data : List Byte} {ys : List (Bool × Byte)} (h : data.length = ys.length) :
    ∃ ps : List (Byte × Bool × Byte), data = ps.map Prod.fst ∧ ys = ps.map Prod.snd :=
  ⟨data.zip ys, (List.map_fst_zip h.le).symm, (List.map_snd_zip h.ge).symm⟩

variable (c : Config) (ps : List (Byte × Bool × Byte)) (ys : List (Bool × Byte))

/-! ### Bytes sent -/

theorem keepsBus_of_mem_sent : ∀ x ∈ sent ps, x.keepsBus = true :=
  List.forall_mem_map.mpr fun _ _ => rfl

@[simp] theorem map_word_sent : (sent ps).map (Exchange.word c) = (ps.map Prod.fst).map (commandWord c .waitAck) := by
  simp [sent, Function.comp_def]

@[simp] theorem map_bus_sent : (sent ps).map Exchange.bus = ps.map Prod.snd := by
  simp [sent, Function.comp_def]

@[simp] theorem map_reply_sent : (sent ps).map Exchange.reply = ps.map Prod.fst := by
  simp [sent, wordData, wordForm, Function.comp_def]

@[simp] theorem any_nacked_sent : (sent ps).any Exchange.nacked = ps.any fun p => p.2.1 := by
  simp [sent, wordForm, Function.comp_def]

@[simp] theorem events_sent : (sent ps).flatMap (Exchange.events true) =
    List.zipWith BusEvent.tx (ps.map Prod.fst) (ps.map fun p => p.2.1) := by
  rw [List.zipWith_map, List.zipWith_self, List.map_eq_flatMap]
  simp [sent, wordEvents, wordForm, List.flatMap_map]

/-! ### Bytes received -/

theorem keepsBus_of_mem_received : ∀ x ∈ received ys, x.keepsBus = true :=
  List.forall_mem_map.mpr fun _ _ => rfl

@[simp] theorem map_word_received : (received ys).map (Exchange.word c) =
    List.replicate ys.length (commandWord c .sendAck dummyData) := by
  simp [received, Function.comp_def]

@[simp] theorem map_bus_received : (received ys).map Exchange.bus = ys := by
  simp [received, Function.comp_def]

@[simp] theorem map_reply_received : (received ys).map Exchange.reply = ys.map Prod.snd := by
  simp [received, wordData, wordForm, Function.comp_def]

@[simp] theorem any_nacked_received : (received ys).any Exchange.nacked = false := by
  simp [received, wordForm]

@[simp] theorem events_received : (received ys).flatMap (Exchange.events true) =
    ys.map fun y => BusEvent.rx y.2 false := by
  rw [List.map_eq_flatMap]
  simp [received, wordEvents, wordForm, List.flatMap_map]

/-! ### The three requests -/

/-- The last data word of a `write` stops (R131). -/
theorem writeTail_concat (init : List Byte) (b : Byte) :
    writeTail c (init ++ [b]) = init.map (commandWord c .waitAck) ++ [commandWord c .waitAckStop b] := by
  induction init with
  | nil => rfl
  | cons a init ih =>
    rw [List.map_cons, List.cons_append, List.cons_append, ← ih]
    cases init <;> rfl

/-- The last byte received is NACKed by the master (R132). -/
theorem receiveEvents_concat (bs : List Byte) (b : Byte) :
    receiveEvents (bs ++ [b]) = (bs.map fun d => BusEvent.rx d false) ++ [.rx b true] := by
  induction bs with
  | nil => rfl
  | cons a bs ih =>
    rw [List.map_cons, List.cons_append, List.cons_append, ← ih]
    cases bs <;> rfl

namespace Transaction

/-- `write`: `y₀` answers the address byte, `p` is the last byte with its answer. -/
def ofWrite (a : BitVec 7) (y₀ : Bool × Byte) (init : List (Byte × Bool × Byte)) (p : Byte × Bool × Byte) :
    Transaction where
  first := .of .start (writeAddrByte a) y₀
  body := sent init
  last := .of .waitAckStop p.1 p.2
  first_start := rfl
  body_keeps := keepsBus_of_mem_sent init
  last_releases := rfl

/-- `read`: `y₀` answers the address byte, `y` is the last byte received. -/
def ofRead (a : BitVec 7) (y₀ : Bool × Byte) (init : List (Bool × Byte)) (y : Bool × Byte) : Transaction where
  first := .of .start (readAddrByte a) y₀
  body := received init
  last := .of .sendNackStop dummyData y
  first_start := rfl
  body_keeps := keepsBus_of_mem_received init
  last_releases := rfl

/-- `write_and_read`: `y₀` and `y₁` answer the two address bytes. -/
def ofWriteAndRead (a : BitVec 7) (y₀ : Bool × Byte) (ps : List (Byte × Bool × Byte)) (y₁ : Bool × Byte)
    (init : List (Bool × Byte)) (y : Bool × Byte) : Transaction where
  first := .of .start (writeAddrByte a) y₀
  body := sent ps ++ .of .start (readAddrByte a) y₁ :: received init
  last := .of .sendNackStop dummyData y
  first_start := rfl
  body_keeps := List.forall_mem_append.mpr
    ⟨keepsBus_of_mem_sent ps, List.forall_mem_cons.mpr ⟨rfl, keepsBus_of_mem_received init⟩⟩
  last_releases := rfl

section Facts

variable (a : BitVec 7) (y₀ y₁ y : Bool × Byte) (p : Byte × Bool × Byte) (init ps : List (Byte × Bool × Byte))
  (got : List (Bool × Byte))

theorem ofWrite_words : (ofWrite a y₀ init p).all.map (Exchange.word c) =
    writeWords c a ((init ++ [p]).map Prod.fst) := by
  simp [all, ofWrite, writeWords, writeTail_concat]

theorem ofWrite_bus : (ofWrite a y₀ init p).all.map Exchange.bus = y₀ :: (init ++ [p]).map Prod.snd := by
  simp [all, ofWrite]

theorem ofWrite_events : eventsOf false (ofWrite a y₀ init p).all =
    .start :: List.zipWith BusEvent.tx (writeAddrByte a :: (init ++ [p]).map Prod.fst)
      ((y₀ :: (init ++ [p]).map Prod.snd).map Prod.fst) ++ [.stop] := by
  rw [eventsOf_all]
  simp [ofWrite, wordEvents, wordForm, List.zipWith_append]

theorem ofWrite_answer : (ofWrite a y₀ init p).answer a .write =
    if ((y₀ :: (init ++ [p]).map Prod.snd).take ((init ++ [p]).map Prod.fst).length).any Prod.fst
    then .error (.nack a) else .done := by
  simp [answer, nacked, result, ofWrite, wordForm]

theorem ofRead_words : (ofRead a y₀ got y).all.map (Exchange.word c) = readWords c a (got ++ [y]).length := by
  simp [all, ofRead, readWords, readTail]

theorem ofRead_bus : (ofRead a y₀ got y).all.map Exchange.bus = y₀ :: (got ++ [y]) := by
  simp [all, ofRead]

theorem ofRead_events : eventsOf false (ofRead a y₀ got y).all =
    [.start, .tx (readAddrByte a) y₀.1] ++ receiveEvents ((got ++ [y]).map Prod.snd) ++ [.stop] := by
  rw [eventsOf_all]
  simp [ofRead, wordEvents, wordForm, receiveEvents_concat]

theorem ofRead_answer : (ofRead a y₀ got y).answer a .read =
    if y₀.1 then .error (.nack a) else .bytes ((got ++ [y]).map Prod.snd) := by
  simp [answer, nacked, result, all, ofRead, wordForm, wordData]

theorem ofWriteAndRead_words : (ofWriteAndRead a y₀ ps y₁ got y).all.map (Exchange.word c) =
    writeAndReadWords c a (ps.map Prod.fst) (got ++ [y]).length := by
  simp [all, ofWriteAndRead, writeAndReadWords, readWords, readTail]

theorem ofWriteAndRead_bus : (ofWriteAndRead a y₀ ps y₁ got y).all.map Exchange.bus =
    (y₀ :: ps.map Prod.snd) ++ y₁ :: (got ++ [y]) := by
  simp [all, ofWriteAndRead]

theorem ofWriteAndRead_events : eventsOf false (ofWriteAndRead a y₀ ps y₁ got y).all =
    .start :: List.zipWith BusEvent.tx (writeAddrByte a :: ps.map Prod.fst) ((y₀ :: ps.map Prod.snd).map Prod.fst) ++
      [.restart, .tx (readAddrByte a) y₁.1] ++ receiveEvents ((got ++ [y]).map Prod.snd) ++ [.stop] := by
  rw [eventsOf_all]
  simp [ofWriteAndRead, wordEvents, wordForm, receiveEvents_concat]

theorem ofWriteAndRead_answer : (ofWriteAndRead a y₀ ps y₁ got y).answer a (.writeAndRead (ps.map Prod.fst).length) =
    if (y₀ :: ps.map Prod.snd).any Prod.fst || y₁.1 then .error (.nack a)
    else .bytes ((got ++ [y]).map Prod.snd) := by
  have hnacked : (ofWriteAndRead a y₀ ps y₁ got y).nacked = ((y₀ :: ps.map Prod.snd).any Prod.fst || y₁.1) := by
    simp [nacked, ofWriteAndRead, wordForm, Bool.or_assoc, Function.comp_def]
  have hreplies : (ofWriteAndRead a y₀ ps y₁ got y).all.map Exchange.reply =
      (writeAddrByte a :: ps.map Prod.fst ++ [readAddrByte a]) ++ (got ++ [y]).map Prod.snd := by
    simp [all, ofWriteAndRead, wordForm, wordData]
  rw [answer, hnacked, result, hreplies, List.drop_left' (by simp)]

end Facts

end Transaction

/-! ### The requests as runs of `_transfer` -/

section Requests

variable {s : State} {n : BitVec 16}

theorem exec_write_of_inContract (ho : s.handle.opened = true) (hc : s.handle.cacheSize = some n) {addr : Int}
    {data : List Byte} (h : inContract n (.write addr data) = true) :
    exec (.write addr data) s = runRequest (.write addr data)
      (.next ⟨writeWords s.cfg (addr7 addr) data,
        transferScript s.cfg (writeWords s.cfg (addr7 addr) data) (addr7 addr) .write⟩) s := by
  obtain ⟨ha, hd⟩ : addrInRange addr = true ∧ data.isEmpty = false := by simpa [inContract] using h
  simp [exec, execWrite, planWrite, openedCacheSize_of_opened ho hc, ha, hd, failingReason, transferPlan]

theorem exec_read_of_inContract (ho : s.handle.opened = true) (hc : s.handle.cacheSize = some n) {addr len : Int}
    (h : inContract n (.read addr len) = true) :
    exec (.read addr len) s = runRequest (.read addr len)
      (.next ⟨readWords s.cfg (addr7 addr) len.toNat,
        transferScript s.cfg (readWords s.cfg (addr7 addr) len.toNat) (addr7 addr) .read⟩) s := by
  obtain ⟨ha, hlen⟩ : addrInRange addr = true ∧ lengthInRange len n = true := by simpa [inContract] using h
  simp [exec, execRead, planRead, openedCacheSize_of_opened ho hc, ha, hlen, failingReason, transferPlan]

theorem exec_writeAndRead_of_inContract (ho : s.handle.opened = true) (hc : s.handle.cacheSize = some n)
    {addr len : Int} {data : List Byte} (h : inContract n (.writeAndRead addr data len) = true) :
    exec (.writeAndRead addr data len) s = runRequest (.writeAndRead addr data len)
      (.next ⟨writeAndReadWords s.cfg (addr7 addr) data len.toNat,
        transferScript s.cfg (writeAndReadWords s.cfg (addr7 addr) data len.toNat) (addr7 addr)
          (.writeAndRead data.length)⟩) s := by
  obtain ⟨ha, hlen⟩ : addrInRange addr = true ∧ lengthInRange len n = true := by simpa [inContract] using h
  simp [exec, execWriteAndRead, planWriteAndRead, openedCacheSize_of_opened ho hc, ha, hlen, failingReason, transferPlan]

end Requests

end Sys2Proof.Machine
end

section
/-! PROOFS. The statements of spec/42_command_encoder.md. -/

open Sys2Proof Sys2Proof.Machine

/-- Settles O41: a failing check of the encoder names the reason, and the error is all that the request does. -/
theorem contractViolationTouchesNothing : Obligations.ContractViolationTouchesNothing := by
  unfold Obligations.ContractViolationTouchesNothing
  intro s q n hq ho hc ht hn
  obtain ⟨why, hholds, hexec⟩ := exec_of_outOfContract ho hc ht hn
  exact ⟨why, hholds, hexec.trans (runRequest_contractViolation hq q why)⟩

/-- Settles O37: the transaction of START, the bytes but the last with WAIT_ACK, the last with WAIT_ACK_STOP. -/
theorem writeResult : Obligations.WriteResult := by
  unfold Obligations.WriteResult
  intro s addr data bus h hidle hl hj hacc hbus hag
  obtain ⟨ho, hsize, hin, hfit⟩ := hacc
  obtain ⟨y₀, ys, rfl⟩ := List.exists_of_length_succ bus hbus
  obtain ⟨ps, rfl, rfl⟩ := exists_pairs (Nat.succ.inj hbus).symm
  obtain rfl | ⟨init, p, rfl⟩ := ps.eq_nil_or_concat'
  · simp [inContract] at hin
  · rw [← hbus] at hag
    rw [exec_write_of_inContract ho hsize hin]
    exact runRequest_transaction (.ofWrite (addr7 addr) y₀ init p) h hidle hl hj hsize (Transaction.ofWrite_words ..)
      hfit (Transaction.ofWrite_bus ..) hag (Transaction.ofWrite_events ..) (Transaction.ofWrite_answer ..)

/-- Settles O38: the transaction of START, the bytes but the last with SEND_ACK, the last with SEND_NACK_STOP. -/
theorem readResult : Obligations.ReadResult := by
  unfold Obligations.ReadResult
  intro s addr n a₀ d₀ got h hidle hl hj hacc hn hag
  obtain ⟨ho, hsize, hin, hfit⟩ := hacc
  subst hn
  obtain rfl | ⟨init, y, rfl⟩ := got.eq_nil_or_concat'
  · simp [inContract, lengthInRange] at hin
  · rw [exec_read_of_inContract ho hsize hin]
    exact runRequest_transaction (.ofRead (addr7 addr) (a₀, d₀) init y) h hidle hl hj hsize
      (Transaction.ofRead_words ..) hfit (Transaction.ofRead_bus ..) hag
      (Transaction.ofRead_events ..) (Transaction.ofRead_answer ..)

/-- Settles O39: the transaction of START, the bytes with WAIT_ACK, START again, then as in a read. -/
theorem writeAndReadResult : Obligations.WriteAndReadResult := by
  unfold Obligations.WriteAndReadResult
  intro s addr n data out a₁ d₁ got h hidle hl hj hacc hout hn hag
  obtain ⟨ho, hsize, hin, hfit⟩ := hacc
  subst hn
  obtain ⟨y₀, ys, rfl⟩ := List.exists_of_length_succ out hout
  obtain ⟨ps, rfl, rfl⟩ := exists_pairs (Nat.succ.inj hout).symm
  obtain rfl | ⟨init, y, rfl⟩ := got.eq_nil_or_concat'
  · simp [inContract, lengthInRange] at hin
  · rw [exec_writeAndRead_of_inContract ho hsize hin]
    exact runRequest_transaction (.ofWriteAndRead (addr7 addr) y₀ ps (a₁, d₁) init y) h hidle hl hj hsize
      (Transaction.ofWriteAndRead_words ..) hfit (Transaction.ofWriteAndRead_bus ..) (by simpa [Nat.add_assoc] using hag)
      (Transaction.ofWriteAndRead_events ..) (Transaction.ofWriteAndRead_answer ..)

end

section
/-! SUPPORT. A transfer with no other agent moving: what each of its tests goes on to or goes over to
(spec/43_transfer_engine.md R146 to R153, 60_exceptions.md R200, R208). -/

namespace Sys2Proof.Machine

variable {c : Config} {s t u : State} {r n : Nat} {p : Bool} {q : Request} {cw : List Word} {val v : RegVal}
  {resp : List Byte} {rest : List Act} {k : CoreState} {es : List RegEvent} {a : Answer}

/-! ### From the submission to the answer -/

theorem frontSteps_trans {m : Nat} {x : Res State} (h : frontSteps r p m s = .next t) (h' : frontSteps r p n t = x) :
    frontSteps r p (m + n) s = x :=
  (frontSteps_add h).trans h'

/-- A request that its own steps answer, no other agent moving; `scriptSteps` bounds the steps. -/
theorem runRequest_quiet_answered (hq : quiet s) {plan : Plan} (hn : n ≤ scriptSteps plan.todo + 4)
    (h : frontSteps s.env.client true n (s.drawn.putJob (newJob s.env.client q plan)) =
      .next (deliver s.env.client a u)) :
    runRequest q (.next plan) s = .next (deliver s.env.client a u) := by
  obtain ⟨m, hm⟩ := Nat.exists_eq_add_of_le hn
  rw [runRequest_quiet hq, runAlone_eq_frontSteps, hm, frontSteps_add h, frontSteps_of_not_hasJob (hasJob_deliver ..)]

@[simp] theorem scriptSteps_transferScript (c : Config) (cw : List Word) (addr : BitVec 7) (sh : Shape) :
    scriptSteps (transferScript c cw addr sh) = 3 * cw.length + 10 := by
  simp [transferScript, pollScript]
  omega

/-- The answer of a transfer that has taken the free lock and given it back. -/
theorem deliver_unlocked_eq_answered (hq : quiet s) (hl : s.handle.lock = none) (l : Option Nat) (k : CoreState)
    (draws : Nat) (es : List RegEvent) (a : Answer) :
    deliver s.env.client a
        (((s.drawn.setLock l).ranTo k { s.drawn.env with draws := draws } es).setLock none) =
      s.answered k s.handle draws es a := by
  have hhandle : { s.handle with lock := none } = s.handle := by rw [← hl]
  rw [← hhandle]
  exact deliver_eq_answered hq a rfl rfl rfl rfl rfl

/-! ### The error scripts -/

/-- The end of every error script of a transfer: the lock is given back and the answer handed over. -/
theorem frontSteps_release_answer (hl : s.handle.lock = some r) (a : Answer) :
    frontSteps r p 2 (s.putJob ⟨r, q, cw, val, resp, [.release, .answer a]⟩) =
      .next (deliver r a (s.setLock none)) := by
  simp [frontSteps_cons, runAct, releaseLock, hl, deliver_putJob_mk]

/-- An error with a recovery: `enable()`, the release of the lock, the error (60 R200, R208). -/
theorem frontSteps_raiseScript_of_recovers (h : c.WF) (hc : s.cfg = c) (hl : s.handle.lock = some r) {e : Error}
    (he : e.recovers = true) :
    frontSteps r true 4 (s.putJob ⟨r, q, cw, val, resp, raiseScript c e true⟩) =
      .next (deliver r (.error e)
        ((s.ranTo (recovered s.core) s.env (enableAccesses (.fe r) c)).setLock none)) := by
  have hscript : raiseScript c e true = enableScript c ++ [.release, .answer (.error e)] := by
    simp [raiseScript, he]
  rw [hscript, ← runAlone_eq_frontSteps, runAlone_enableScript h hc, runAlone_eq_frontSteps,
    frontSteps_release_answer (by exact hl)]
  rfl

/-! ### The tests -/

/-- The lock is free and the words fit: the lock is taken (43 R145, R146). -/
theorem frontSteps_lock_of_fits (hl : s.handle.lock = none) {size : BitVec 16} (hs : s.handle.cacheSize = some size)
    (hne : cw ≠ []) (hfit : cw.length ≤ size.toNat) :
    frontSteps r p 2 (s.putJob ⟨r, q, cw, val, resp, .acquire :: .checkLength :: rest⟩) =
      .next ((s.setLock (some r)).putJob ⟨r, q, cw, val, resp, rest⟩) := by
  simp [frontSteps_cons, runAct, acquireLock, hl, hs, hne, Nat.not_lt.mpr hfit]

/-- The lock is free and the words do not fit: what is left is the error (43 R146). -/
theorem frontSteps_lock_of_tooLong (hl : s.handle.lock = none) {size : BitVec 16}
    (hs : s.handle.cacheSize = some size) (hlong : size.toNat < cw.length) :
    frontSteps r p 2 (s.putJob ⟨r, q, cw, val, resp, .acquire :: .checkLength :: rest⟩) =
      .next ((s.setLock (some r)).putJob
        ⟨r, q, cw, val, resp, [.release, .answer (.error (.contractViolation .transferTooLong))]⟩) := by
  have hne : cw ≠ [] := by rintro rfl; exact Nat.not_lt_zero _ hlong
  have hscript : raiseScript s.cfg (.contractViolation .transferTooLong) true =
      [.release, .answer (.error (.contractViolation .transferTooLong))] := rfl
  simp [frontSteps_cons, runAct, acquireLock, hl, hs, hne, hlong, hscript]

/-- A count is read and tested: 0 goes on, anything else goes over to BusBusy (43 R147, R148). -/
theorem frontSteps_countTest {off : Nat} {w : Width} (side : Side) (hread : regRead (.fe r) off w s = .next (v, t))
    (hc : t.cfg = c) :
    frontSteps r p 2 (s.putJob ⟨r, q, cw, val, resp, .regRead off w :: .checkEmpty side :: rest⟩) =
      .next (t.putJob
        ⟨r, q, cw, v, resp, if regValNat v = 0 then rest else raiseScript c (.busBusy side) true⟩) := by
  subst hc
  by_cases hv : regValNat v = 0 <;> simp [frontSteps_cons, runAct, hread, hv]

/-- A poll that finds another count than `W` goes over to Timeout when the deadline has passed (43 R151, R153). -/
theorem frontSteps_pollScript_timeout (h : c.WF) (hc : s.cfg = c) (hr : s.core.rxq = []) (hne : cw ≠ []) :
    frontSteps r true 2 (s.putJob ⟨r, q, cw, val, resp, pollScript c ++ rest⟩) =
      .next ((s.ranTo s.core { s.env with draws := s.env.draws + 1 } [.read (.fe r) .rxCount (.b8 0#8)]).putJob
        ⟨r, q, cw, .b8 0#8, resp, raiseScript c .timeout true⟩) := by
  have hread := regRead_rxCount (.fe r) h hc
  have hlen : ¬ 0 = cw.length := fun h0 => hne (List.eq_nil_of_length_eq_zero h0.symm)
  rw [hr, afterRead_eq_ranTo] at hread
  simp [pollScript, frontSteps_cons, runAct, hread, regValNat, hlen, hc]

/-! ### The load -/

/-- A disabled core discards every word of the load (43 R149, 20 R45). -/
theorem frontSteps_loadScript_disabled (h : c.WF) (hc : s.cfg = c) (he : s.core.en = false) (ws : List Word) :
    frontSteps r p ws.length (s.putJob ⟨r, q, cw, val, resp, loadScript c ws ++ rest⟩) =
      .next ((s.ranTo s.core s.env (ws.map fun w => .write (.fe r) .txBuf (.b16 w))).putJob
        ⟨r, q, cw, val, resp, rest⟩) := by
  induction ws generalizing s with
  | nil => exact congrArg (fun u => Host.Outcome.next (State.putJob u _)) s.ranTo_self.symm
  | cons w ws ih =>
    have hw := regWrite_txBuf (.fe r) h hc w
    rw [corePushTx_disabled c w he, andThen_next, afterWrite_eq_ranTo] at hw
    have hrest := ih (s := s.ranTo s.core s.env [.write (.fe r) .txBuf (.b16 w)]) hc he
    rw [loadScript] at hrest
    simp [loadScript, frontSteps_cons, runAct, hw, hrest]

/-- The load from an empty TX FIFO, on an enabled or a disabled core: the RX FIFO stays, and a recovery leaves what it
would have left before. -/
theorem frontSteps_loadScript_recovered (h : c.WF) (hc : s.cfg = c) (htx : s.core.txq = [])
    (hfit : cw.length ≤ c.fifoDepth) :
    ∃ k, k.rxq = s.core.rxq ∧ recovered k = recovered s.core ∧
      frontSteps r p cw.length (s.putJob ⟨r, q, cw, val, resp, loadScript c cw ++ rest⟩) =
        .next ((s.ranTo k s.env (cw.map fun w => .write (.fe r) .txBuf (.b16 w))).putJob
          ⟨r, q, cw, val, resp, rest⟩) := by
  cases he : s.core.en with
  | false => exact ⟨s.core, rfl, rfl, frontSteps_loadScript_disabled h hc he cw⟩
  | true =>
    exact ⟨{ s.core with txq := s.core.txq ++ cw }, rfl, rfl,
      frontSteps_loadScript h hc he cw (by simpa [htx] using hfit)⟩

/-! ### The requests -/

/-- The answer of `get_cache_size()` (43 R160). -/
theorem frontSteps_answerCacheSize {size : BitVec 16} (hs : s.handle.cacheSize = some size) :
    frontSteps r p 1 (s.putJob ⟨r, q, cw, val, resp, .answerCacheSize :: rest⟩) =
      .next (deliver r (.size size.toNat) s) := by
  rw [frontSteps_cons (n := 0)]
  simp [runAct, hs, deliver_putJob_mk]

/-- `get_cache_size()` with no other agent moving (43 R160). -/
theorem exec_getCacheSize_quiet {size : BitVec 16} (hq : quiet s) (ho : s.handle.opened = true)
    (hs : s.handle.cacheSize = some size) :
    exec .getCacheSize s = .next (s.answered s.core s.handle (s.env.draws + 1) [] (.size size.toNat)) := by
  have hl : s.drawn.log = { s.log with accesses := s.log.accesses ++ [] } := by simp
  have hplan : planGetCacheSize s = .next ⟨[], [.answerCacheSize]⟩ := by
    simp [planGetCacheSize, openedCacheSize_of_opened ho hs]
  calc exec .getCacheSize s
      = runRequest .getCacheSize (.next ⟨[], [.answerCacheSize]⟩) s := by rw [← hplan]; rfl
    _ = .next (deliver s.env.client (.size size.toNat) s.drawn) :=
      runRequest_quiet_answered hq (Nat.le_add_left 1 _) (frontSteps_answerCacheSize hs)
    _ = _ := congrArg _ (deliver_eq_answered hq _ rfl rfl rfl rfl hl)

/-- The move of a request whose script begins with the poll's test: the record by the count last read and TIME's verdict
(43 R150, R151, R153). -/
theorem move_poll {j : Job} (hj : findJob r s.jobs = some j) (ht : j.todo = .poll :: rest) :
    (regValNat j.val = j.cw.length →
      move (.fe r p) s = .next { s with jobs := { j with todo := rest } :: dropJob r s.jobs }) ∧
    (regValNat j.val ≠ j.cw.length → p = false →
      move (.fe r p) s = .next { s with
        jobs := { j with todo := .regRead s.cfg.offRxCount .w8 :: .poll :: rest } :: dropJob r s.jobs }) ∧
    (regValNat j.val ≠ j.cw.length → p = true →
      move (.fe r p) s = .next { s with
        jobs := { j with todo := [.regWrite s.cfg.offConfig (.b8 s.cfg.cfgReset),
          .regWrite s.cfg.offConfig (.b8 s.cfg.cfgEnable), .release, .answer (.error .timeout)] } ::
            dropJob r s.jobs }) := by
  have hmove : move (.fe r p) s = runAct .poll { j with todo := rest } p s := by simp [move, feStep, hj, ht]
  obtain rfl := findJob_rid hj
  rw [hmove]
  refine ⟨fun hv => ?_, fun hv hp => ?_, fun hv hp => ?_⟩
  · rw [runAct, if_pos hv]
    rfl
  · rw [runAct, if_neg hv, hp, if_neg Bool.false_ne_true]
    rfl
  · rw [runAct, if_neg hv, if_pos hp]
    rfl

/-- Too many words: the lock is taken and given back, and nothing else is done (43 R146). -/
theorem runRequest_tooLong (hq : quiet s) (hl : s.handle.lock = none) {size : BitVec 16}
    (hs : s.handle.cacheSize = some size) (hlong : size.toNat < cw.length) (addr : BitVec 7) (sh : Shape) :
    runRequest q (.next ⟨cw, transferScript s.cfg cw addr sh⟩) s =
      .next (s.answered s.core s.handle (s.env.draws + 1) [] (.error (.contractViolation .transferTooLong))) := by
  have hlock := frontSteps_lock_of_tooLong (s := s.drawn) (r := s.env.client) (p := true) (q := q) (val := .b8 0#8)
    (resp := []) (rest := (transferScript s.cfg cw addr sh).drop 2) hl hs hlong
  have hend := frontSteps_release_answer (s := s.drawn.setLock (some s.env.client)) (p := true) (q := q) (cw := cw)
    (val := .b8 0#8) (resp := []) rfl (.error (.contractViolation .transferTooLong))
  rw [← State.ranTo_self (s.drawn.setLock (some s.env.client))] at hlock hend
  rw [← deliver_unlocked_eq_answered hq hl (some s.env.client)]
  exact runRequest_quiet_answered hq (n := 2 + 2) (by simp) (frontSteps_trans hlock hend)

/-- A transfer that goes over to an error with a recovery: what its steps have made of CORE is recovered, and their
accesses are followed by those of `enable()`. -/
theorem runRequest_recovers (h : s.cfg.WF) (hq : quiet s) (hl : s.handle.lock = none) {e : Error}
    (he : e.recovers = true) {plan : Plan} (hn : n ≤ scriptSteps plan.todo) {draws : Nat}
    (hrun : frontSteps s.env.client true n (s.drawn.putJob (newJob s.env.client q plan)) =
      .next (((s.drawn.setLock (some s.env.client)).ranTo k { s.drawn.env with draws := draws } es).putJob
        ⟨s.env.client, q, cw, val, resp, raiseScript s.cfg e true⟩)) :
    runRequest q (.next plan) s = .next (s.answered (recovered k) s.handle draws
      (es ++ enableAccesses (.fe s.env.client) s.cfg) (.error e)) := by
  have hraise := frontSteps_raiseScript_of_recovers (q := q) (cw := cw) (val := val) (resp := resp)
    (s := (s.drawn.setLock (some s.env.client)).ranTo k { s.drawn.env with draws := draws } es) h rfl rfl he
  rw [← deliver_unlocked_eq_answered hq hl (some s.env.client)]
  refine runRequest_quiet_answered hq (n := n + 4) (by omega) ((frontSteps_trans hrun hraise).trans ?_)
  simp

/-- The state of a transfer that has taken the lock and read TX_COUNT. -/
abbrev State.countedTx (s : State) (count : BitVec 8) : State :=
  (s.drawn.setLock (some s.env.client)).ranTo s.core { s.drawn.env with draws := s.env.draws + 2 }
    [.read (.fe s.env.client) .txCount (.b8 count)]

/-- A transfer that fits takes the free lock and tests TX_COUNT (43 R145 to R147). -/
theorem frontSteps_txTest (h : s.cfg.WF) (hl : s.handle.lock = none) {size : BitVec 16}
    (hs : s.handle.cacheSize = some size) (hne : cw ≠ []) (hfit : cw.length ≤ size.toNat) (addr : BitVec 7)
    (sh : Shape) :
    frontSteps s.env.client true (2 + 2)
        (s.drawn.putJob (newJob s.env.client q ⟨cw, transferScript s.cfg cw addr sh⟩)) =
      .next ((s.countedTx (BitVec.ofNat 8 s.core.txq.length)).putJob
        ⟨s.env.client, q, cw, .b8 (BitVec.ofNat 8 s.core.txq.length), [],
          if (BitVec.ofNat 8 s.core.txq.length).toNat = 0 then (transferScript s.cfg cw addr sh).drop 4
          else raiseScript s.cfg (.busBusy .send) true⟩) :=
  frontSteps_trans (frontSteps_lock_of_fits (s := s.drawn) hl hs hne hfit)
    (frontSteps_countTest .send (regRead_txCount (s := s.drawn.setLock (some s.env.client)) _ h rfl) rfl)

/-- TX_COUNT reads non-zero (43 R147). -/
theorem runRequest_busBusySend (h : s.cfg.WF) (hq : quiet s) (hl : s.handle.lock = none) {size : BitVec 16}
    (hs : s.handle.cacheSize = some size) (hne : cw ≠ []) (hfit : cw.length ≤ size.toNat)
    (htx : (BitVec.ofNat 8 s.core.txq.length).toNat ≠ 0) (addr : BitVec 7) (sh : Shape) :
    runRequest q (.next ⟨cw, transferScript s.cfg cw addr sh⟩) s = .next (s.answered (recovered s.core) s.handle
      (s.env.draws + 2) (.read (.fe s.env.client) .txCount (.b8 (BitVec.ofNat 8 s.core.txq.length)) ::
        enableAccesses (.fe s.env.client) s.cfg) (.error (.busBusy .send))) := by
  have htest := frontSteps_txTest (q := q) h hl hs hne hfit addr sh
  rw [if_neg htx] at htest
  exact runRequest_recovers h hq hl rfl (by simp) htest

/-- TX_COUNT reads 0 and RX_COUNT non-zero (43 R148). -/
theorem runRequest_busBusyReceive (h : s.cfg.WF) (hq : quiet s) (hl : s.handle.lock = none) {size : BitVec 16}
    (hs : s.handle.cacheSize = some size) (hne : cw ≠ []) (hfit : cw.length ≤ size.toNat) (htx : s.core.txq = [])
    (hrx : (BitVec.ofNat 8 s.core.rxq.length).toNat ≠ 0) (addr : BitVec 7) (sh : Shape) :
    runRequest q (.next ⟨cw, transferScript s.cfg cw addr sh⟩) s = .next (s.answered (recovered s.core) s.handle
      (s.env.draws + 3) ([.read (.fe s.env.client) .txCount (.b8 0#8),
        .read (.fe s.env.client) .rxCount (.b8 (BitVec.ofNat 8 s.core.rxq.length))] ++
        enableAccesses (.fe s.env.client) s.cfg) (.error (.busBusy .receive))) := by
  have htest := frontSteps_txTest (q := q) h hl hs hne hfit addr sh
  have hread := regRead_rxCount (s := s.countedTx 0#8) (.fe s.env.client) h rfl
  rw [afterRead_eq_ranTo, State.ranTo_ranTo] at hread
  have hraise := frontSteps_countTest (p := true) (q := q) (cw := cw) (val := .b8 0#8) (resp := [])
    (rest := (transferScript s.cfg cw addr sh).drop 6) .receive hread rfl
  rw [htx, if_pos (by rfl)] at htest
  rw [if_neg (by exact hrx)] at hraise
  exact runRequest_recovers (n := 2 + 2 + 2) h hq hl rfl (by simp) (frontSteps_trans htest hraise)

/-- Both counts read 0 and no word is completed: the load, one poll, Timeout (43 R149 to R153). -/
theorem runRequest_timeout (h : s.cfg.WF) (hq : quiet s) (hl : s.handle.lock = none)
    (hs : s.handle.cacheSize = some (BitVec.ofNat 16 s.cfg.fifoDepth)) (hne : cw ≠ [])
    (hfit : cw.length ≤ s.cfg.fifoDepth) (htx : s.core.txq = []) (hrx : s.core.rxq = []) (addr : BitVec 7)
    (sh : Shape) :
    runRequest q (.next ⟨cw, transferScript s.cfg cw addr sh⟩) s = .next (s.answered (recovered s.core) s.handle
      (s.env.draws + 4) (loadAccesses s.env.client cw ++ [.read (.fe s.env.client) .rxCount (.b8 0#8)] ++
        enableAccesses (.fe s.env.client) s.cfg) (.error .timeout)) := by
  have hchecks := frontSteps_checksScript (s := s.drawn) (r := s.env.client) (p := true) (q := q) (val := .b8 0#8)
    (resp := []) (rest := loadScript s.cfg cw ++ afterLoad s.cfg cw.length addr sh) h rfl hl hs hne
    (by rwa [toNat_ofNat_fifoDepth h]) htx hrx
  obtain ⟨k, hkrx, hk, hload⟩ := frontSteps_loadScript_recovered (s := s.drawn.checked s.env.client)
    (r := s.env.client) (p := true) (q := q) (cw := cw) (val := .b8 0#8) (resp := [])
    (rest := afterLoad s.cfg cw.length addr sh) h rfl htx hfit
  have hloaded := frontSteps_trans hchecks hload
  have hpoll := frontSteps_pollScript_timeout (s := (s.drawn.setLock (some s.env.client)).ranTo k
      { s.drawn.env with draws := s.env.draws + 3 } (loadAccesses s.env.client cw))
    (r := s.env.client) (q := q) (val := .b8 0#8) (resp := [])
    (rest := readBackScript s.cfg cw.length ++ [.release, .decodeResponse addr sh]) h rfl (hkrx.trans hrx) hne
  rw [← transferScript_eq, State.checked, State.ranTo_ranTo] at hloaded
  rw [State.ranTo_ranTo] at hpoll
  rw [← show recovered k = recovered s.core from hk]
  exact runRequest_recovers (n := 6 + cw.length + 2) h hq hl rfl (by simp; omega) (frontSteps_trans hloaded hpoll)

end Sys2Proof.Machine
end

section
/-! SUPPORT. The lock's invariant, job by job: every step of a request keeps it, and while it holds an outstanding request
can move (spec/45_handle_arbiter.md R187 to R190). -/

namespace Sys2Proof.Machine

variable {c : Config} {s t u : State} {r : Nat} {p inside : Bool} {a : Act} {rest : List Act} {j k : Job}

/-- Whether requester `r` holds the lock. -/
abbrev State.holds (s : State) (r : Nat) : Bool := s.handle.lock == some r

/-! ### Jobs of distinct requesters -/

/-- Of distinct requesters the job dropped is the one found. -/
theorem perm_cons_dropJob {js : List Job} (hn : (js.map Job.rid).Nodup) (hj : j ∈ js) :
    js.Perm (j :: dropJob j.rid js) := by
  induction js with
  | nil => cases hj
  | cons k ks ih =>
    obtain ⟨hk, hks⟩ := List.nodup_cons.mp hn
    obtain rfl | hj := List.mem_cons.mp hj
    · have hdrop : dropJob j.rid ks = ks :=
        List.filter_eq_self.mpr fun i hi => bne_iff_ne.mpr fun e => hk (e ▸ List.mem_map_of_mem hi)
      rw [dropJob_cons_self, hdrop]
    · have hne : k.rid ≠ j.rid := fun e => hk (e ▸ List.mem_map_of_mem hj)
      have hdrop : dropJob j.rid (k :: ks) = k :: dropJob j.rid ks := List.filter_cons_of_pos (by simpa using hne)
      rw [hdrop]
      exact ((ih hks hj).cons k).trans (.swap j k _)

theorem findJob_of_mem {js : List Job} (hn : (js.map Job.rid).Nodup) (hj : j ∈ js) : findJob j.rid js = some j := by
  cases hf : findJob j.rid js with
  | none => exact absurd rfl (findJob_none.mp hf j hj)
  | some k => rw [List.inj_on_of_nodup_map hn (findJob_mem hf) hj (findJob_rid hf)]

/-- The invariant: every job stands inside the lock's region exactly if its requester holds the lock, and the holder, if
any, has a job. -/
theorem lockInv_iff : lockInv s ↔ (s.jobs.map Job.rid).Nodup ∧
    (∀ j ∈ s.jobs, lockScript s.cfg (s.holds j.rid) j.todo = true) ∧
    ∀ r, s.holds r = true → ∃ j ∈ s.jobs, j.rid = r := by
  constructor
  · rintro ⟨hn, hjobs, hholder⟩
    refine ⟨hn, fun j hj => ?_, fun r hr => ?_⟩
    · cases hh : s.holds j.rid with
      | true =>
        obtain ⟨k, hk, hkr, hin⟩ := hholder j.rid (by simpa using hh)
        exact List.inj_on_of_nodup_map hn hk hj hkr ▸ hin
      | false =>
        obtain hout | ⟨-, hl⟩ := hjobs j hj
        · exact hout
        · simp [hl] at hh
    · obtain ⟨k, hk, hkr, -⟩ := hholder r (by simpa using hr)
      exact ⟨k, hk, hkr⟩
  · rintro ⟨hn, hjobs, hholder⟩
    refine ⟨hn, fun j hj => ?_, fun r hr => ?_⟩
    · cases hh : s.holds j.rid with
      | true => exact .inr ⟨hh ▸ hjobs j hj, by simpa using hh⟩
      | false => exact .inl (hh ▸ hjobs j hj)
    · have hh : s.holds r = true := by simpa using hr
      obtain ⟨k, hk, rfl⟩ := hholder r hh
      exact ⟨k, hk, rfl, hh ▸ hjobs k hk⟩

/-! ### Scripts and the lock -/

theorem lockScript_of_takes (ha : lockRole c a = .takes) (h : lockScript c inside (a :: rest) = true) :
    inside = false ∧ lockScript c true rest = true := by
  simpa [lockScript, ha] using h

theorem lockScript_of_gives (ha : lockRole c a = .gives) (h : lockScript c inside (a :: rest) = true) :
    inside = true ∧ lockScript c false rest = true := by
  simpa [lockScript, ha] using h

theorem lockScript_of_needs (ha : lockRole c a = .needs) (h : lockScript c inside (a :: rest) = true) :
    inside = true ∧ lockScript c inside rest = true := by
  cases inside <;> simp_all [lockScript]

theorem lockScript_of_outside (ha : lockRole c a = .outside) (h : lockScript c inside (a :: rest) = true) :
    inside = false ∧ lockScript c inside rest = true := by
  cases inside <;> simp_all [lockScript]

theorem lockScript_of_ends (ha : lockRole c a = .ends) (h : lockScript c inside (a :: rest) = true) :
    inside = false := by
  simpa [lockScript, ha] using h

theorem lockScript_of_free (ha : lockRole c a = .free) (h : lockScript c inside (a :: rest) = true) :
    lockScript c inside rest = true := by
  simpa [lockScript, ha] using h

/-- An access stays on its side of the lock, whichever register it reaches. -/
theorem lockScript_of_access {off : Nat} (ha : lockRole c a = if transferOffset c off then .needs else .free)
    (h : lockScript c inside (a :: rest) = true) : lockScript c inside rest = true := by
  split at ha
  · exact (lockScript_of_needs ha h).2
  · exact lockScript_of_free ha h

theorem transferOffset_regOffset (h : c.WF) (x : Reg) : transferOffset c (regOffset c x) = transferReg x := by
  simp [transferOffset, regAt_regOffset h]

/-- An error's script leaves the lock's region it is raised in. -/
theorem lockScript_raiseScript (h : c.WF) (e : Error) (locked : Bool) :
    lockScript c locked (raiseScript c e locked) = true := by
  have hconf : transferOffset c c.offConfig = false := transferOffset_regOffset h .config
  cases e <;> cases locked <;> simp [raiseScript, Error.recovers, enableScript, lockScript, lockRole, hconf]

/-- Another round of the poll loop stays inside. -/
theorem lockScript_pollScript (h : c.WF) : lockScript c true (pollScript c ++ rest) = lockScript c true rest := by
  have hcount : transferOffset c c.offRxCount = true := transferOffset_regOffset h .rxCount
  simp [pollScript, lockScript, lockRole, hcount]

/-- `set_speed` stays outside. -/
theorem lockScript_setSpeedScript (h : c.WF) (f : Int) :
    lockScript c false (setSpeedScript c f ++ rest) = lockScript c false rest := by
  have hconf : transferOffset c c.offConfig = false := transferOffset_regOffset h .config
  have hfreq : transferOffset c c.offFreq = false := transferOffset_regOffset h .freq
  simp [setSpeedScript, disableScript, enableScript, lockScript, lockRole, hconf, hfreq]

/-! ### A step of a request -/

/-- What a step of requester `r`'s request does to the lock and to the jobs: nothing; or the request goes on, on its side
of the lock, and the others hold what they held; or it ends, outside. -/
inductive LockStep (s t : State) (r : Nat) : Prop
  | idle (h : t = s)
  | goesOn (k : Job) (hr : k.rid = r) (hj : t.jobs = k :: dropJob r s.jobs) (ho : ∀ r' ≠ r, t.holds r' = s.holds r')
    (hs : lockScript s.cfg (t.holds r) k.todo = true)
  | ends (hj : t.jobs = dropJob r s.jobs) (ho : ∀ r', t.holds r' = s.holds r') (hr : s.holds r = false)

/-- A job kept with a script on its side of the lock, by a step that leaves the lock. -/
theorem LockStep.of_putJob (hj : u.jobs = s.jobs) (hl : u.handle.lock = s.handle.lock) (hr : k.rid = r)
    (hs : lockScript s.cfg (s.holds r) k.todo = true) : LockStep s (u.putJob k) r :=
  .goesOn k hr (by rw [State.putJob_jobs, hr, hj]) (fun r' _ => by rw [State.holds, State.putJob_handle, hl])
    (by rw [State.holds, State.putJob_handle, hl]; exact hs)

theorem LockStep.of_deliver (a : Answer) (hr : s.holds r = false) : LockStep s (deliver r a s) r :=
  .ends rfl (fun _ => rfl) hr

theorem lockStep_acquireLock (hr : k.rid = r) (hs : lockScript s.cfg true k.todo = true) :
    LockStep s (acquireLock k s) r := by
  subst hr
  obtain h | ⟨hl, h⟩ := acquireLock_eq k s <;> rw [h]
  · exact .idle rfl
  · exact .goesOn k rfl rfl (fun r' hr => by simp [State.holds, hl, Ne.symm hr]) (by simpa [State.holds] using hs)

theorem lockStep_releaseLock (hr : k.rid = r) (hs : lockScript s.cfg false k.todo = true) :
    LockStep s (releaseLock k s) r := by
  subst hr
  obtain h | ⟨hl, h⟩ := releaseLock_eq k s <;> rw [h]
  · exact .idle rfl
  · exact .goesOn k rfl rfl (fun r' hr => by simp [State.holds, hl, Ne.symm hr]) (by simpa [State.holds] using hs)

/-- Every step of a request whose script stands on its side of the lock. -/
theorem runAct_lockStep (h : s.cfg.WF) (hk : k.todo = rest) (hs : lockScript s.cfg (s.holds k.rid) (a :: rest) = true)
    (e : runAct a k p s = .next t) : LockStep s t k.rid := by
  subst hk
  have goes (hs : lockScript s.cfg (s.holds k.rid) k.todo = true) : LockStep s (s.putJob k) k.rid :=
    .of_putJob rfl rfl rfl hs
  have raises (e : Error) (locked : Bool) (hl : s.holds k.rid = locked) :
      LockStep s (s.putJob { k with todo := raiseScript s.cfg e locked }) k.rid :=
    .of_putJob rfl rfl rfl (hl ▸ lockScript_raiseScript h e locked)
  cases a with
  | regWrite off v =>
    obtain ⟨u, hu, e⟩ := andThen_eq_next.mp e
    cases e
    obtain ⟨_, _, -, -, rfl⟩ := regWrite_next _ hu
    exact .of_putJob rfl rfl rfl (lockScript_of_access rfl hs)
  | regRead off w =>
    obtain ⟨⟨v, u⟩, hu, e⟩ := andThen_eq_next.mp e
    cases e
    obtain ⟨_, _, -, -, rfl⟩ := regRead_next _ hu
    exact .of_putJob rfl rfl rfl (lockScript_of_access rfl hs)
  | acquire => cases e; exact lockStep_acquireLock rfl (lockScript_of_takes rfl hs).2
  | release => cases e; exact lockStep_releaseLock rfl (lockScript_of_gives rfl hs).2
  | checkLength =>
    obtain ⟨hl, hs⟩ := lockScript_of_needs rfl hs
    simp only [runAct] at e
    split at e
    · cases e
    · split at e
      · cases e
      · split at e <;> cases e
        · exact raises _ true hl
        · exact goes hs
  | checkEmpty side =>
    obtain ⟨hl, hs⟩ := lockScript_of_needs rfl hs
    simp only [runAct] at e
    split at e <;> cases e
    · exact goes hs
    · exact raises _ true hl
  | poll =>
    obtain ⟨hl, hs⟩ := lockScript_of_needs rfl hs
    simp only [runAct] at e
    split at e
    · cases e
      exact goes hs
    · split at e <;> cases e
      · exact raises _ true hl
      · exact .of_putJob rfl rfl rfl (by rw [hl] at hs ⊢; exact (lockScript_pollScript h).trans hs)
  | collect => cases e; exact .of_putJob rfl rfl rfl (lockScript_of_needs rfl hs).2
  | checkSpeed f =>
    obtain ⟨hl, hs⟩ := lockScript_of_outside rfl hs
    simp only [runAct] at e
    split at e <;> cases e
    · exact goes hs
    · exact raises _ false hl
  | callSetSpeed =>
    obtain ⟨hl, hs⟩ := lockScript_of_outside rfl hs
    cases e
    exact .of_putJob rfl rfl rfl (by rw [hl] at hs ⊢; exact (lockScript_setSpeedScript h _).trans hs)
  | setCacheSize => cases e; exact .of_putJob rfl rfl rfl (lockScript_of_free rfl hs)
  | setRate f => cases e; exact .of_putJob rfl rfl rfl (lockScript_of_free rfl hs)
  | setOpened => cases e; exact .of_putJob rfl rfl rfl (lockScript_of_free rfl hs)
  | answer x => cases e; exact .of_deliver _ (lockScript_of_ends rfl hs)
  | answerSpeed => cases e; exact .of_deliver _ (lockScript_of_ends rfl hs)
  | answerCacheSize =>
    simp only [runAct] at e
    split at e <;> cases e
    exact .of_deliver _ (lockScript_of_ends rfl hs)
  | decodeResponse addr sh => cases e; exact .of_deliver _ (lockScript_of_ends rfl hs)

theorem LockStep.lockInv (h : LockStep s t r) (hc : t.cfg = s.cfg) (hi : Machine.lockInv s) : Machine.lockInv t := by
  rw [lockInv_iff] at hi ⊢
  obtain ⟨hn, hjobs, hholder⟩ := hi
  have hdrop : ((dropJob r s.jobs).map Job.rid).Nodup := hn.sublist (List.filter_sublist.map _)
  cases h with
  | idle h => exact h ▸ ⟨hn, hjobs, hholder⟩
  | goesOn k hr hj ho hs =>
    subst hr
    rw [hj, hc]
    refine ⟨List.nodup_cons.mpr ⟨fun hm => ?_, hdrop⟩, List.forall_mem_cons.mpr ⟨hs, fun i hi => ?_⟩, fun r' hr' => ?_⟩
    · obtain ⟨i, hi, he⟩ := List.mem_map.mp hm
      exact (mem_dropJob.mp hi).2 he
    · obtain ⟨hi, hne⟩ := mem_dropJob.mp hi
      rw [ho _ hne]
      exact hjobs i hi
    · by_cases hk : r' = k.rid
      · exact ⟨k, List.mem_cons_self, hk.symm⟩
      · obtain ⟨i, hi, rfl⟩ := hholder r' (ho r' hk ▸ hr')
        exact ⟨i, List.mem_cons_of_mem _ (mem_dropJob.mpr ⟨hi, hk⟩), rfl⟩
  | ends hj ho hr =>
    rw [hj, hc]
    refine ⟨hdrop, fun i hi => ?_, fun r' hr' => ?_⟩
    · rw [ho]
      exact hjobs i (mem_dropJob.mp hi).1
    · rw [ho] at hr'
      obtain ⟨i, hi, rfl⟩ := hholder r' hr'
      exact ⟨i, mem_dropJob.mpr ⟨hi, fun e => Bool.false_ne_true (hr.symm.trans (e ▸ hr'))⟩, rfl⟩

/-- A step of the front end keeps the lock's invariant. -/
theorem feStep_lockInv (h : s.cfg.WF) (hi : lockInv s) (e : feStep r p s = .next t) : lockInv t := by
  obtain rfl | ⟨j, a, rest, hj, ht, hrun⟩ := feStep_next e
  · exact hi
  · obtain ⟨-, hjobs, -⟩ := lockInv_iff.mp hi
    exact (runAct_lockStep h rfl (ht ▸ hjobs j (findJob_mem hj)) hrun).lockInv (feStep_effect e).cfg hi

/-! ### Some request can move -/

/-- A request on its side of a lock that is free or its own has a step to take. -/
theorem canMove_of_lockScript (hs : lockScript c (s.holds j.rid) j.todo = true)
    (hl : s.handle.lock = none ∨ s.handle.lock = some j.rid) : j.canMove s.handle.lock = true := by
  cases ht : j.todo with
  | nil => simp [ht, lockScript] at hs
  | cons a rest =>
    rw [ht] at hs
    cases a <;> simp only [Job.canMove, ht]
    case acquire =>
      have hout := (lockScript_of_takes rfl hs).1
      rcases hl with hl | hl
      · rw [hl, Option.isNone_none]
      · simp [hl] at hout
    case release => exact (lockScript_of_gives rfl hs).1

/-- While a request is outstanding some request can move: the holder of the lock, or any one when the lock is free. -/
theorem exists_canMove (hi : lockInv s) (hne : s.jobs ≠ []) : ∃ j ∈ s.jobs, j.canMove s.handle.lock = true := by
  obtain ⟨-, hjobs, hholder⟩ := lockInv_iff.mp hi
  rcases hl : s.handle.lock with _ | r <;> rw [← hl]
  · obtain ⟨j, hj⟩ := List.exists_mem_of_ne_nil _ hne
    exact ⟨j, hj, canMove_of_lockScript (hjobs j hj) (.inl hl)⟩
  · obtain ⟨j, hj, rfl⟩ := hholder r (by simp [State.holds, hl])
    exact ⟨j, hj, canMove_of_lockScript (hjobs j hj) (.inr hl)⟩

theorem lock_free_of_no_jobs (hi : lockInv s) (hj : s.jobs = []) : s.handle.lock = none := by
  obtain ⟨-, -, hholder⟩ := lockInv_iff.mp hi
  cases hl : s.handle.lock with
  | none => rfl
  | some r =>
    obtain ⟨j, hm, -⟩ := hholder r (by simp [State.holds, hl])
    simp [hj] at hm

/-! ### The steps that follow an exhausted agenda -/

/-- The steps that the outstanding requests can take, by `scriptBound`. -/
def jobsBound (js : List Job) : Nat := (js.map fun j => scriptBound j.todo).sum

@[simp] theorem jobsBound_cons (j : Job) (js : List Job) :
    jobsBound (j :: js) = scriptBound j.todo + jobsBound js := by
  simp [jobsBound]

theorem jobsBound_eq_of_mem {js : List Job} (hn : (js.map Job.rid).Nodup) (hj : j ∈ js) :
    jobsBound js = scriptBound j.todo + jobsBound (dropJob j.rid js) := by
  rw [← jobsBound_cons]
  exact ((perm_cons_dropJob hn hj).map _).sum_eq

/-- A request that can move has steps left. -/
theorem scriptBound_pos_of_canMove {l : Option Nat} (h : j.canMove l = true) : 0 < scriptBound j.todo := by
  cases ht : j.todo with
  | nil => simp [Job.canMove, ht] at h
  | cons a rest => exact Nat.zero_lt_of_lt (scriptBound_tail a rest)

/-- A step after an exhausted agenda, while a request is outstanding: it stops the run, or brings an answer nearer, and
the answers given and the requests left make up the requests there were. -/
theorem step_exhausted (h : s.cfg.WF) (hi : lockInv s) (ha : s.env.agenda = []) (hne : s.jobs ≠ []) :
    (∃ f, step s = .fault f) ∨ (∃ f, step s = .refused f) ∨
      ∃ t as, step s = .next t ∧ t.cfg = s.cfg ∧ t.env.agenda = [] ∧ lockInv t ∧
        t.log.answers = s.log.answers ++ as ∧ (as.map Prod.fst ++ t.jobs.map Job.rid).Perm (s.jobs.map Job.rid) ∧
        jobsBound t.jobs < jobsBound s.jobs := by
  rw [step_of_nil ha]
  obtain hnone | ⟨j, hj, hm, hstep⟩ := settle_eq s
  · obtain ⟨j, hj, hm⟩ := exists_canMove hi hne
    exact absurd hm (List.find?_eq_none.mp hnone.1 j hj)
  obtain ⟨hn, -, -⟩ := lockInv_iff.mp hi
  rw [hstep, jobsBound_eq_of_mem hn hj]
  have hperm : (j.rid :: (dropJob j.rid s.jobs).map Job.rid).Perm (s.jobs.map Job.rid) :=
    ((perm_cons_dropJob hn hj).map Job.rid).symm
  cases hrun : feStep j.rid true s with
  | fault f => exact .inl ⟨f, rfl⟩
  | refused f => exact .inr (.inl ⟨f, rfl⟩)
  | next t =>
    have hinv := feStep_lockInv h hi hrun
    obtain ⟨hag, hc, ⟨k, hk, hjobs, hlt, hans⟩ | ⟨x, hjobs, hans⟩⟩ :=
      feStep_canMove (findJob_of_mem hn hj) hm hrun
    · refine .inr (.inr ⟨t, [], rfl, hc, hag.trans ha, hinv, by rw [hans, List.append_nil], ?_, ?_⟩)
      · rw [hjobs, List.map_cons, hk]
        exact hperm
      · rw [hjobs, jobsBound_cons]
        omega
    · refine .inr (.inr ⟨t, [(j.rid, x)], rfl, hc, hag.trans ha, hinv, hans, ?_, ?_⟩)
      · rw [hjobs]
        exact hperm
      · have := scriptBound_pos_of_canMove hm
        rw [hjobs]
        omega

/-- In `n` steps the run stops, or every outstanding request has been answered once and the lock is free. -/
def SettlesIn (n : Nat) (s : State) : Prop :=
  (∃ f, runSteps n s = .fault f) ∨ (∃ f, runSteps n s = .refused f) ∨
    ∃ t as, runSteps n s = .next t ∧ t.jobs = [] ∧ t.handle.lock = none ∧
      t.log.answers = s.log.answers ++ as ∧ (as.map Prod.fst).Perm (s.jobs.map Job.rid)

theorem SettlesIn.of_step {n : Nat} {as : List (Nat × Answer)} (hstep : step s = .next t)
    (hans : t.log.answers = s.log.answers ++ as)
    (hperm : (as.map Prod.fst ++ t.jobs.map Job.rid).Perm (s.jobs.map Job.rid)) (h : SettlesIn n t) :
    SettlesIn (n + 1) s := by
  have hrun : runSteps (n + 1) s = runSteps n t := by rw [runSteps, hstep, andThen_next]
  rw [SettlesIn, hrun]
  obtain h | h | ⟨v, bs, hv, hjobs, hl, hb, hp⟩ := h
  · exact .inl h
  · exact .inr (.inl h)
  · refine .inr (.inr ⟨v, as ++ bs, hv, hjobs, hl, by rw [hb, hans, List.append_assoc], ?_⟩)
    rw [List.map_append]
    exact (hp.append_left _).trans hperm

/-- After an exhausted agenda every outstanding request is answered, by induction on the steps left (log 28). -/
theorem exists_settlesIn (h : s.cfg.WF) (hi : lockInv s) (ha : s.env.agenda = []) : ∃ n, SettlesIn n s := by
  induction hb : jobsBound s.jobs using Nat.strong_induction_on generalizing s with
  | _ b ih =>
    by_cases hne : s.jobs = []
    · exact ⟨0, .inr (.inr ⟨s, [], rfl, hne, lock_free_of_no_jobs hi hne, (List.append_nil _).symm, by simp [hne]⟩)⟩
    · have hone : runSteps 1 s = step s := by cases he : step s <;> simp [runSteps, he]
      obtain hf | hf | ⟨t, as, hstep, hc, hag, hinv, hans, hperm, hlt⟩ := step_exhausted h hi ha hne
      · exact ⟨1, .inl (hone ▸ hf)⟩
      · exact ⟨1, .inr (.inl (hone ▸ hf))⟩
      · obtain ⟨n, hn⟩ := ih _ (hb ▸ hlt) (hc ▸ h) hinv hag rfl
        exact ⟨n + 1, hn.of_step hstep hans hperm⟩

/-! ### Waiting for the lock -/

/-- A transfer submitted while the lock is held takes no step (45 R187, R188). -/
theorem runRequest_waits {q : Request} {cw : List Word} (hq : quiet s) (hl : s.handle.lock = some r) (addr : BitVec 7)
    (sh : Shape) :
    runRequest q (.next ⟨cw, transferScript s.cfg cw addr sh⟩) s = .next { s with
      jobs := newJob s.env.client q ⟨cw, transferScript s.cfg cw addr sh⟩ :: s.jobs
      env := { s.env with draws := s.env.draws + 1 } } := by
  have hstuck : feStep s.env.client true
      (s.drawn.putJob (newJob s.env.client q ⟨cw, transferScript s.cfg cw addr sh⟩)) = .next _ :=
    feStep_putJob s.drawn (newJob s.env.client q ⟨cw, transferScript s.cfg cw addr sh⟩) .acquire _ true
      (transferScript_eq ..)
  simp only [acquireLock, State.putJob_handle, State.drawn_handle, hl] at hstuck
  rw [runRequest_quiet hq, runAlone_stuck hstuck, State.putJob, State.drawn_jobs, dropJob_eq_self hq.2]
  rfl

end Sys2Proof.Machine
end

section
/-! SUPPORT. What a transfer needs of CORE while ENG moves between its steps (spec/41_command_words.md R112, R113,
43_transfer_engine.md R149 to R159). -/

namespace Sys2Proof.Machine

variable {c : Config} {s t : State} {k : CoreState} {q : Request} {cw ws : List Word} {w : Word} {n m : Nat}

/-! ### The words of a transfer -/

theorem pos_of_lengthInRange {len : Int} {size : BitVec 16} (h : lengthInRange len size = true) : 0 < len := by
  simp only [lengthInRange, Bool.and_eq_true, decide_eq_true_eq] at h
  exact h.1

/-- An answer of BUS, where no answer matters. -/
def someBusAnswer : Bool × Byte := (false, 0#8)

/-- The words of a request that keeps its contract stand in frame from a released bus, which they release (42 R131 to
R133); BUS's answers do not matter. -/
theorem exists_inFrame_requestWords (c : Config) {size : BitVec 16} (h : inContract size q = true) :
    ∃ xs, requestWords c q = xs.map (Exchange.word c) ∧ InFrame false xs := by
  have ofTransaction (T : Transaction) (hT : T.all.map (Exchange.word c) = requestWords c q) :
      ∃ xs, requestWords c q = xs.map (Exchange.word c) ∧ InFrame false xs :=
    ⟨T.all, hT.symm, T.inFrame_all⟩
  cases q <;> simp only [inContract, Bool.false_eq_true, Bool.and_eq_true] at h
  case read a len =>
    have hlen := pos_of_lengthInRange h.2
    refine ofTransaction (.ofRead (addr7 a) someBusAnswer (List.replicate (len.toNat - 1) someBusAnswer) someBusAnswer) ?_
    rw [Transaction.ofRead_words, requestWords, List.length_append, List.length_replicate, List.length_singleton]
    congr 1
    omega
  case write a data =>
    obtain rfl | ⟨init, b, rfl⟩ := data.eq_nil_or_concat'
    · simp at h
    · refine ofTransaction (.ofWrite (addr7 a) someBusAnswer (init.map (·, someBusAnswer)) (b, someBusAnswer)) ?_
      rw [Transaction.ofWrite_words, requestWords]
      simp [Function.comp_def]
  case writeAndRead a data len =>
    have hlen := pos_of_lengthInRange h.2
    refine ofTransaction (.ofWriteAndRead (addr7 a) someBusAnswer (data.map (·, someBusAnswer)) someBusAnswer
      (List.replicate (len.toNat - 1) someBusAnswer) someBusAnswer) ?_
    rw [Transaction.ofWriteAndRead_words, requestWords, List.length_append, List.length_replicate,
      List.length_singleton, show len.toNat - 1 + 1 = len.toNat by omega]
    simp [Function.comp_def]

/-! ### CORE at work -/

/-- CORE works on a transfer that has still to load `ws`: enabled; the words in flight, queued and to be loaded stand in
frame; with the responses not yet read back they are `n`, for which there is room; `m` responses have come. -/
structure CoreWorks (c : Config) (ws : List Word) (n m : Nat) (k : CoreState) : Prop where
  enabled : k.en = true
  room : n ≤ c.fifoDepth
  come : m ≤ k.rxq.length
  pending : ∃ xs, k.cur.toList ++ k.txq ++ ws = xs.map (Exchange.word c) ∧ InFrame k.busOwned xs ∧
    k.rxq.length + xs.length = n

theorem CoreWorks.length_eq (h : CoreWorks c ws n m k) :
    k.rxq.length + (k.cur.toList.length + k.txq.length + ws.length) = n := by
  obtain ⟨xs, hxs, -, hn⟩ := h.pending
  have hlen := congrArg List.length hxs
  simp only [List.length_append, List.length_map] at hlen
  omega

/-- Fewer responses have come, too. -/
theorem CoreWorks.mono {m' : Nat} (h : CoreWorks c ws n m k) (hm : m' ≤ m) : CoreWorks c ws n m' k :=
  ⟨h.enabled, h.room, hm.trans h.come, h.pending⟩

/-- With nothing to come CORE is idle (43 R158). -/
theorem coreWorks_zero : CoreWorks c [] 0 0 k ↔ coreIdle k := by
  constructor
  · intro h
    have hlen := h.length_eq
    obtain ⟨he, -, -, xs, hxs, hf, hn⟩ := h
    obtain rfl : xs = [] := List.eq_nil_of_length_eq_zero (by omega)
    obtain ⟨hct, -⟩ := List.append_eq_nil_iff.mp hxs
    obtain ⟨hcur, htx⟩ := List.append_eq_nil_iff.mp hct
    exact ⟨he, htx, List.eq_nil_of_length_eq_zero (by omega), by simpa using hcur, hf⟩
  · rintro ⟨he, htx, hrx, hcur, hb⟩
    exact ⟨he, Nat.zero_le _, Nat.zero_le _, [], by simp [hcur, htx], hb, by simp [hrx]⟩

/-- An idle CORE can begin with words in frame that fit. -/
theorem coreWorks_of_idle (h : coreIdle k) {xs : List Exchange} (hcw : cw = xs.map (Exchange.word c))
    (hf : InFrame false xs) (hfit : cw.length ≤ c.fifoDepth) : CoreWorks c cw cw.length 0 k := by
  obtain ⟨he, htx, hrx, hcur, hb⟩ := h
  exact ⟨he, hfit, Nat.zero_le _, xs, by simp [hcur, htx, hcw], hb ▸ hf, by simp [hrx, hcw]⟩

/-- While no word has been loaded the FIFOs are empty (43 R147, R148). -/
theorem CoreWorks.empty (h : CoreWorks c cw cw.length m k) : k.txq = [] ∧ k.rxq = [] := by
  have hlen := h.length_eq
  exact ⟨List.eq_nil_of_length_eq_zero (by omega), List.eq_nil_of_length_eq_zero (by omega)⟩

/-- A word is loaded into a TX FIFO with room for it (43 R149). -/
theorem CoreWorks.push (h : CoreWorks c (w :: ws) n m k) :
    corePushTx c w k = .next { k with txq := k.txq ++ [w] } ∧ CoreWorks c ws n m { k with txq := k.txq ++ [w] } := by
  have hlen := h.length_eq
  have hroom := h.room
  obtain ⟨xs, hxs, hf, hn⟩ := h.pending
  rw [List.length_cons] at hlen
  exact ⟨corePushTx_room c w h.enabled (by omega), h.enabled, hroom, h.come, xs, by simpa using hxs, hf, hn⟩

/-- With all responses come one is read back (43 R155). -/
theorem CoreWorks.pop (h : CoreWorks c [] (n + 1) (n + 1) k) :
    ∃ rw rws, k.rxq = rw :: rws ∧ CoreWorks c [] n n { k with rxq := rws } := by
  obtain ⟨he, hroom, hcome, xs, hxs, hf, hn⟩ := h
  cases hr : k.rxq with
  | nil => simp [hr] at hcome
  | cons rw rws =>
    rw [hr, List.length_cons] at hcome hn
    exact ⟨rw, rws, rfl, he, by omega, Nat.le_of_succ_le_succ hcome, xs, hxs, hf, by simp only; omega⟩

/-! ### ENG -/

/-- What a step of ENG leaves. -/
structure EngineStep (s t : State) : Prop where
  cfg : t.cfg = s.cfg
  handle : t.handle = s.handle
  jobs : t.jobs = s.jobs
  log : t.log = s.log
  freq : t.core.freq = s.core.freq
  divActive : t.core.divActive = s.core.divActive

theorem move_fetch_works (h : CoreWorks s.cfg ws n m s.core) :
    ∃ t, move .fetch s = .next t ∧ EngineStep s t ∧ CoreWorks s.cfg ws n m t.core := by
  refine ⟨engFetch s, rfl, ?_⟩
  obtain hidle | ⟨w, q, he, hcur, hq, hfetch⟩ := engFetch_eq s
  · rw [hidle]
    exact ⟨⟨rfl, rfl, rfl, rfl, rfl, rfl⟩, h⟩
  · obtain ⟨xs, hxs, hf, hn⟩ := h.pending
    rw [hfetch]
    exact ⟨⟨rfl, rfl, rfl, rfl, rfl, rfl⟩, he, h.room, h.come, xs, by simpa [hcur, hq] using hxs, hf, hn⟩

/-- ENG completes a word in flight without fault: it is in frame, and there is room for its response. -/
theorem move_complete_works (hwf : s.cfg.WF) (h : CoreWorks s.cfg ws n m s.core) (ack : Bool) (data : Byte) :
    ∃ t, move (.complete ack data) s = .next t ∧ EngineStep s t ∧ CoreWorks s.cfg ws n m t.core := by
  obtain ⟨he, hroom, hcome, xs, hxs, hf, hn⟩ := h
  cases hcur : s.core.cur with
  | none =>
    exact ⟨s.setBus ack data, engComplete_idle (.inr hcur), ⟨rfl, rfl, rfl, rfl, rfl, rfl⟩, he, hroom, hcome, xs, hxs,
      hf, hn⟩
  | some w =>
    cases xs with
    | nil => simp [hcur] at hxs
    | cons x xs =>
      rw [hcur, Option.toList_some, List.append_assoc, List.singleton_append, List.map_cons] at hxs
      obtain ⟨rfl, htail⟩ := List.cons_eq_cons.mp hxs
      obtain ⟨hfx, hfs⟩ := hf
      rw [List.length_cons] at hn
      have hdone := engComplete_exchange (s := s.setBus ack data) { x with ack := ack, data := data } hwf he hcur hfx
        (by simp only [State.setBus_core, State.setBus_cfg]; omega) rfl rfl
      refine ⟨_, hdone, ⟨rfl, rfl, rfl, rfl, rfl, rfl⟩, he, hroom, ?_, xs, htail, hfs, ?_⟩
      · simp only [State.completed, State.setBus_core, List.length_append]
        omega
      · simp only [State.completed, State.setBus_core, List.length_append, List.length_singleton]
        omega

/-- What a transfer needs of CORE: that it works, or, between the two writes of a recovery, that it is disabled and empty
(40 R91). -/
inductive CoreNeed where
  | works (ws : List Word) (n m : Nat)
  | drained

def CoreNeed.Met (c : Config) (k : CoreState) : CoreNeed → Prop
  | .works ws n m => CoreWorks c ws n m k
  | .drained => k.en = false ∧ k.txq = [] ∧ k.rxq = [] ∧ k.cur = none ∧ k.busOwned = false

/-- Whatever ENG does a transfer keeps what it needs, and there is no fault (60 R214). -/
theorem CoreNeed.Met.move {need : CoreNeed} (hwf : s.cfg.WF) (h : need.Met s.cfg s.core) {mv : Move}
    (hm : mv = .fetch ∨ ∃ ack data, mv = .complete ack data) :
    ∃ t, Machine.move mv s = .next t ∧ EngineStep s t ∧ need.Met s.cfg t.core := by
  obtain rfl | ⟨ack, data, rfl⟩ := hm <;> cases need
  case inl.works => exact move_fetch_works h
  case inr.works => exact move_complete_works hwf h ack data
  case inl.drained =>
    exact ⟨s, congrArg _ (engFetch_idle (.inl h.1)), ⟨rfl, rfl, rfl, rfl, rfl, rfl⟩, h⟩
  case inr.drained =>
    exact ⟨s.setBus ack data, engComplete_idle (.inl h.1), ⟨rfl, rfl, rfl, rfl, rfl, rfl⟩, h⟩

end Sys2Proof.Machine
end

section
/-! SUPPORT. A transfer from an idle controller under any schedule of ENG's and its own steps: where its script stands and
what it needs of CORE there, and that every step brings it on or ends it (spec/43_transfer_engine.md R145 to R159). -/

namespace Sys2Proof.Machine

/-! ### The phases of `_transfer` -/

/-- The step that ends a transfer: the decoder's answer or Timeout. -/
def EndsTransfer (addr : BitVec 7) (sh : Shape) (fin : Act) : Prop :=
  fin = .decodeResponse addr sh ∨ fin = .answer (.error .timeout)

/-- Where the transfer of `cw` by requester `r` stands, when it began with CORE idle: its script, the value last read, the
lock, and what it needs of CORE. -/
inductive Phase (c : Config) (r : Nat) (cw : List Word) (addr : BitVec 7) (sh : Shape) :
    List Act → RegVal → Option Nat → CoreNeed → Prop
  /-- The lock and the checks, none of which raises (R145 to R148). -/
  | checking (i : Nat) (hi : i < 6) :
    Phase c r cw addr sh ((checksScript c).drop i ++ (loadScript c cw ++ afterLoad c cw.length addr sh)) (.b8 0#8)
      (if i = 0 then none else some r) (.works cw cw.length 0)
  /-- The load, then the read of a poll (R149, R150). -/
  | loading (ws : List Word) (v : RegVal) :
    Phase c r cw addr sh (loadScript c ws ++ afterLoad c cw.length addr sh) v (some r) (.works ws cw.length 0)
  /-- The test of a poll: as many responses as read have come, or more (R150 to R153). -/
  | polling (v : RegVal) :
    Phase c r cw addr sh (.poll :: (readBackScript c cw.length ++ [.release, .decodeResponse addr sh])) v (some r)
      (.works [] cw.length (regValNat v))
  /-- All responses have come and `n` are to be read back, or the transfer is at its release (R155, R156). -/
  | reading (n : Nat) (v : RegVal) (fin : Act) (hf : EndsTransfer addr sh fin) :
    Phase c r cw addr sh (readBackScript c n ++ [.release, fin]) v (some r) (.works [] n n)
  | collecting (n : Nat) (v : RegVal) (fin : Act) (hf : EndsTransfer addr sh fin) :
    Phase c r cw addr sh (.collect :: (readBackScript c n ++ [.release, fin])) v (some r) (.works [] n n)
  | ending (v : RegVal) (fin : Act) (hf : EndsTransfer addr sh fin) :
    Phase c r cw addr sh [fin] v none (.works [] 0 0)
  /-- The recovery after the deadline (R153, R159). -/
  | recovering (ws : List Word) (n m : Nat) (v : RegVal) :
    Phase c r cw addr sh (raiseScript c .timeout true) v (some r) (.works ws n m)
  | enabling (v : RegVal) :
    Phase c r cw addr sh [.regWrite c.offConfig (.b8 c.cfgEnable), .release, .answer (.error .timeout)] v (some r)
      .drained

variable {c : Config} {r : Nat} {cw : List Word} {addr : BitVec 7} {sh : Shape} {todo : List Act} {v : RegVal}
  {l : Option Nat} {need : CoreNeed} {s u u' : State} {j k : Job} {p : Bool} {a : Act} {rest : List Act}

/-- In every phase the transfer has a step to take. -/
theorem Phase.canMove (h : Phase c r cw addr sh j.todo v l need) (hr : j.rid = r) : j.canMove l = true := by
  subst hr
  generalize ht : j.todo = todo at h
  cases h with
  | checking i hi => interval_cases i <;> simp [Job.canMove, ht]
  | loading ws => cases ws <;> simp [Job.canMove, ht, loadScript, afterLoad, pollScript]
  | polling => simp [Job.canMove, ht]
  | reading n => cases n <;> simp [Job.canMove, ht, readBackScript]
  | collecting => simp [Job.canMove, ht]
  | ending v fin hf => rcases hf with rfl | rfl <;> simp [Job.canMove, ht]
  | recovering => simp [Job.canMove, ht, raiseScript, Error.recovers, enableScript]
  | enabling => simp [Job.canMove, ht]

/-! ### A transfer among the other requests -/

/-- `t` is `s` but for CORE's FIFOs, its engine and its trace, the lock, the jobs, the model's inputs and histories. -/
structure Beside (s t : State) : Prop where
  cfg : t.cfg = s.cfg
  freq : t.core.freq = s.core.freq
  divActive : t.core.divActive = s.core.divActive
  handle : t.handle = { s.handle with lock := t.handle.lock }

theorem Beside.trans (h : Beside s u) (h' : Beside u u') : Beside s u' :=
  ⟨h'.cfg.trans h.cfg, h'.freq.trans h.freq, h'.divActive.trans h.divActive, by rw [h'.handle, h.handle]⟩

/-- In `u` the transfer that the client of `s` has begun stands with the record `j` in some phase. -/
structure Transferring (s : State) (cw : List Word) (addr : BitVec 7) (sh : Shape) (u : State) (j : Job)
    (need : CoreNeed) : Prop where
  beside : Beside s u
  jobs : u.jobs = j :: s.jobs
  rid : j.rid = s.env.client
  words : j.cw = cw
  answers : u.log.answers = s.log.answers
  phase : Phase s.cfg s.env.client cw addr sh j.todo j.val u.handle.lock need
  core : need.Met s.cfg u.core

/-- In `t` the transfer that the client of `s` has begun has ended. -/
structure Transferred (s t : State) : Prop where
  beside : Beside s t
  lock : t.handle.lock = none
  jobs : t.jobs = s.jobs
  idle : coreIdle t.core
  answers : ∃ a, t.log.answers = s.log.answers ++ [(s.env.client, a)] ∧
    ∀ e, a = .error e → e = .timeout ∨ ∃ b, e = .nack b

/-- The outcome of a step of the transfer: no stop, and the transfer goes on or has ended. -/
def ComesOn (s : State) (cw : List Word) (addr : BitVec 7) (sh : Shape) (x : Res State) : Prop :=
  ∃ t, x = .next t ∧ ((∃ k need, Transferring s cw addr sh t k need) ∨ Transferred s t)

/-- What a transfer begins with. -/
structure TransferStart (s : State) (cw : List Word) : Prop where
  wf : s.cfg.WF
  alone : s.hasJob s.env.client = false
  size : s.handle.cacheSize = some (BitVec.ofNat 16 s.cfg.fifoDepth)
  nonempty : cw ≠ []
  fits : cw.length ≤ s.cfg.fifoDepth

section Steps

variable (st : TransferStart s cw) (tr : Transferring s cw addr sh u j need)

include tr

theorem Transferring.feStep_eq (ht : j.todo = a :: rest) :
    feStep s.env.client p u = runAct a { j with todo := rest } p u := by
  have hfind : findJob s.env.client u.jobs = some j := by
    rw [tr.jobs, ← tr.rid]
    exact findJob_cons_self ..
  simp [feStep, hfind, ht]

include st

/-- The next record is kept. -/
theorem Transferring.putJob (need' : CoreNeed) (hb : Beside u u') (hj : u'.jobs = u.jobs)
    (ha : u'.log.answers = u.log.answers) (hr : k.rid = j.rid) (hw : k.cw = j.cw) (hl : u'.handle.lock = l)
    (hp : Phase s.cfg s.env.client cw addr sh k.todo k.val l need') (hc : need'.Met s.cfg u'.core) :
    ComesOn s cw addr sh (.next (u'.putJob k)) := by
  have hjobs : (u'.putJob k).jobs = k :: s.jobs := by
    rw [State.putJob_jobs, hr, tr.rid, hj, tr.jobs, dropJob_cons_of_eq tr.rid, dropJob_eq_self st.alone]
  obtain ⟨hcfg, hfreq, hdiv, hhandle⟩ := tr.beside.trans hb
  exact ⟨_, rfl, .inl ⟨k, need', ⟨hcfg, hfreq, hdiv, hhandle⟩, hjobs, hr.trans tr.rid, hw.trans tr.words,
    ha.trans tr.answers, hl ▸ hp, hc⟩⟩

/-- The record is kept after a step that is a pure computation. -/
theorem Transferring.putJob_self (need' : CoreNeed) (hr : k.rid = j.rid) (hw : k.cw = j.cw)
    (hl : u.handle.lock = l) (hp : Phase s.cfg s.env.client cw addr sh k.todo k.val l need')
    (hc : need'.Met s.cfg u.core) : ComesOn s cw addr sh (.next (u.putJob k)) :=
  tr.putJob st need' ⟨rfl, rfl, rfl, rfl⟩ rfl rfl hr hw hl hp hc

/-- The record is kept after a register access. -/
theorem Transferring.putJob_access (need' : CoreNeed) {core : CoreState} {e : Env} {es : List RegEvent}
    (hf : core.freq = u.core.freq) (hd : core.divActive = u.core.divActive) (hr : k.rid = j.rid) (hw : k.cw = j.cw)
    (hl : u.handle.lock = l) (hp : Phase s.cfg s.env.client cw addr sh k.todo k.val l need')
    (hc : need'.Met s.cfg core) : ComesOn s cw addr sh (.next ((u.ranTo core e es).putJob k)) :=
  tr.putJob st (u' := u.ranTo core e es) need' ⟨rfl, hf, hd, rfl⟩ rfl rfl hr hw hl hp hc

/-- The answer is handed over with CORE idle and the lock free. -/
theorem Transferring.deliver (hl : u.handle.lock = none) (hi : coreIdle u.core) (x : Answer)
    (hx : ∀ e, x = .error e → e = .timeout ∨ ∃ b, e = .nack b) :
    ComesOn s cw addr sh (.next (Machine.deliver j.rid x u)) := by
  have hjobs : (Machine.deliver j.rid x u).jobs = s.jobs := by
    rw [deliver_jobs, tr.rid, tr.jobs, dropJob_cons_of_eq tr.rid, dropJob_eq_self st.alone]
  have hans : (Machine.deliver j.rid x u).log.answers = s.log.answers ++ [(s.env.client, x)] := by
    rw [deliver_log, tr.answers, tr.rid]
  exact ⟨_, rfl, .inr ⟨tr.beside.trans ⟨rfl, rfl, rfl, rfl⟩, hl, hjobs, hi, x, hans, hx⟩⟩

/-! ### The steps, phase by phase -/

omit st in
theorem Transferring.cfg_eq : u.cfg = s.cfg := tr.beside.cfg

/-- The checks pass: the lock is free, the words fit, both counts read 0 (R145 to R148). -/
theorem Transferring.step_checking {i : Nat} (hi : i < 6)
    (ht : j.todo = (checksScript s.cfg).drop i ++ (loadScript s.cfg cw ++ afterLoad s.cfg cw.length addr sh))
    (hv : j.val = .b8 0#8) (hl : u.handle.lock = if i = 0 then none else some s.env.client)
    (hc : CoreWorks s.cfg cw cw.length 0 u.core) : ComesOn s cw addr sh (feStep s.env.client p u) := by
  obtain ⟨htx, hrx⟩ := hc.empty
  have next : ∀ (v : RegVal), v = .b8 0#8 → Phase s.cfg s.env.client cw addr sh
      ((checksScript s.cfg).drop (i + 1) ++ (loadScript s.cfg cw ++ afterLoad s.cfg cw.length addr sh)) v
      (some s.env.client) (.works cw cw.length 0) := by
    rintro v rfl
    by_cases h6 : i + 1 < 6
    · exact .checking (i + 1) h6
    · obtain rfl : i = 5 := by omega
      exact .loading cw _
  have h0 : regValNat j.val = 0 := by rw [hv]; rfl
  interval_cases i <;> rw [tr.feStep_eq ht]
  · simp only [runAct, acquireLock, show u.handle.lock = none from hl]
    exact tr.putJob st (u' := u.setLock _) (.works cw cw.length 0) ⟨rfl, rfl, rfl, rfl⟩ rfl rfl rfl rfl
      (congrArg some tr.rid) (next _ hv) hc
  · have hsize : u.handle.cacheSize = some (BitVec.ofNat 16 s.cfg.fifoDepth) := by rw [tr.beside.handle]; exact st.size
    have hfit : ¬ (BitVec.ofNat 16 s.cfg.fifoDepth).toNat < j.cw.length := by
      rw [toNat_ofNat_fifoDepth st.wf, tr.words]
      exact Nat.not_lt.mpr st.fits
    simp only [runAct, hsize, tr.words ▸ st.nonempty, hfit, if_false]
    exact tr.putJob_self st (.works cw cw.length 0) rfl rfl hl (next _ hv) hc
  · rw [runAct, regRead_txCount _ st.wf tr.cfg_eq, htx]
    exact tr.putJob_access st (.works cw cw.length 0) rfl rfl rfl rfl hl (next _ rfl) hc
  · rw [runAct, if_pos (by exact h0)]
    exact tr.putJob_self st (.works cw cw.length 0) rfl rfl hl (next _ hv) hc
  · rw [runAct, regRead_rxCount _ st.wf tr.cfg_eq, hrx]
    exact tr.putJob_access st (.works cw cw.length 0) rfl rfl rfl rfl hl (next _ rfl) hc
  · rw [runAct, if_pos (by exact h0)]
    exact tr.putJob_self st (.works cw cw.length 0) rfl rfl hl (next _ hv) hc

/-- A word is queued, or the count of the responses is read (R149, R150). -/
theorem Transferring.step_loading {ws : List Word} (ht : j.todo = loadScript s.cfg ws ++ afterLoad s.cfg cw.length addr sh)
    (hl : u.handle.lock = some s.env.client) (hc : CoreWorks s.cfg ws cw.length 0 u.core) :
    ComesOn s cw addr sh (feStep s.env.client p u) := by
  cases ws with
  | nil =>
    have hlen := hc.length_eq
    have hcount := toNat_ofNat_of_le_fifoDepth st.wf (n := u.core.rxq.length) (by have := st.fits; omega)
    rw [tr.feStep_eq ht, runAct, regRead_rxCount _ st.wf tr.cfg_eq]
    exact tr.putJob_access st (.works [] cw.length _) rfl rfl rfl rfl hl (.polling _)
      ⟨hc.enabled, hc.room, hcount.le, hc.pending⟩
  | cons w ws =>
    obtain ⟨hpush, hc⟩ := hc.push
    rw [tr.feStep_eq ht, runAct, regWrite_txBuf _ st.wf tr.cfg_eq, hpush]
    exact tr.putJob_access st (.works ws cw.length 0) rfl rfl rfl rfl hl (.loading ws _) hc

/-- All responses have come, or another round begins, or the deadline has passed (R150 to R153). -/
theorem Transferring.step_polling
    (ht : j.todo = .poll :: (readBackScript s.cfg cw.length ++ [.release, .decodeResponse addr sh]))
    (hl : u.handle.lock = some s.env.client) (hc : CoreWorks s.cfg [] cw.length (regValNat j.val) u.core) :
    ComesOn s cw addr sh (feStep s.env.client p u) := by
  rw [tr.feStep_eq ht]
  simp only [runAct, tr.words, tr.cfg_eq]
  by_cases hv : regValNat j.val = cw.length
  · rw [if_pos hv]
    exact tr.putJob_self st (.works [] cw.length cw.length) rfl tr.words.symm hl (.reading _ _ _ (.inl rfl)) (hv ▸ hc)
  · rw [if_neg hv]
    cases p with
    | true => exact tr.putJob_self st (.works [] cw.length _) rfl tr.words.symm hl (.recovering _ _ _ _) hc
    | false => exact tr.putJob_self st (.works [] cw.length 0) rfl tr.words.symm hl (.loading [] _) (hc.mono (Nat.zero_le _))

/-- A response is read, or, when none is left, the lock is given back (R155, R156). -/
theorem Transferring.step_reading {n : Nat} {fin : Act} (hf : EndsTransfer addr sh fin)
    (ht : j.todo = readBackScript s.cfg n ++ [.release, fin]) (hl : u.handle.lock = some s.env.client)
    (hc : CoreWorks s.cfg [] n n u.core) : ComesOn s cw addr sh (feStep s.env.client p u) := by
  cases n with
  | zero =>
    rw [tr.feStep_eq ht]
    simp only [runAct, releaseLock, hl, tr.rid, if_true]
    exact tr.putJob st (u' := u.setLock none) (.works [] 0 0) ⟨rfl, rfl, rfl, rfl⟩ rfl rfl tr.rid.symm rfl rfl
      (.ending _ fin hf) hc
  | succ n =>
    obtain ⟨rw, rws, hrx, hc⟩ := hc.pop
    rw [tr.feStep_eq ht, runAct, regRead_rxBuf_cons _ st.wf tr.cfg_eq hrx]
    exact tr.putJob_access st (.works [] n n) rfl rfl rfl rfl hl (.collecting n _ fin hf) hc

/-- The answer (R156, 44 R170; R153). -/
theorem Transferring.step_ending {fin : Act} (hf : EndsTransfer addr sh fin) (ht : j.todo = [fin])
    (hl : u.handle.lock = none) (hc : CoreWorks s.cfg [] 0 0 u.core) :
    ComesOn s cw addr sh (feStep s.env.client p u) := by
  rw [tr.feStep_eq ht]
  obtain rfl | rfl := hf
  · refine tr.deliver st hl (coreWorks_zero.mp hc) _ fun e he => .inr ?_
    rw [decodedAnswer] at he
    split at he
    · cases he
      exact ⟨addr, rfl⟩
    · cases sh <;> cases he
  · refine tr.deliver st hl (coreWorks_zero.mp hc) _ fun e he => .inl ?_
    cases he
    rfl

/-- The first write of the recovery disables and empties CORE (40 R91). -/
theorem Transferring.step_recovering (ht : j.todo = raiseScript s.cfg .timeout true)
    (hl : u.handle.lock = some s.env.client) : ComesOn s cw addr sh (feStep s.env.client p u) := by
  rw [tr.feStep_eq ht, runAct, regWrite_reset _ st.wf tr.cfg_eq]
  exact tr.putJob_access st .drained rfl rfl rfl rfl hl (.enabling _) ⟨rfl, rfl, rfl, rfl, rfl⟩

/-- The second write enables it (40 R92): it is idle. -/
theorem Transferring.step_enabling
    (ht : j.todo = [.regWrite s.cfg.offConfig (.b8 s.cfg.cfgEnable), .release, .answer (.error .timeout)])
    (hl : u.handle.lock = some s.env.client) (hc : CoreNeed.drained.Met s.cfg u.core) :
    ComesOn s cw addr sh (feStep s.env.client p u) := by
  obtain ⟨-, hidle⟩ := hc
  rw [tr.feStep_eq ht, runAct, regWrite_enable _ st.wf tr.cfg_eq]
  exact tr.putJob_access st (.works [] 0 0) rfl rfl rfl rfl hl (.reading 0 _ _ (.inr rfl))
    (coreWorks_zero.mpr ⟨rfl, hidle⟩)

/-- Every step of the transfer, with either verdict of TIME. -/
theorem Transferring.feStep (p : Bool) : ComesOn s cw addr sh (Machine.feStep s.env.client p u) := by
  have hp := tr.phase
  have hc := tr.core
  generalize ht : j.todo = todo, hv : j.val = v, hl : u.handle.lock = l at hp
  cases hp with
  | checking i hi => exact tr.step_checking st hi ht hv hl hc
  | loading ws => exact tr.step_loading st ht hl hc
  | polling => exact tr.step_polling st ht hl (hv ▸ hc)
  | reading n v fin hf => exact tr.step_reading st hf ht hl hc
  | collecting n v fin hf =>
    rw [tr.feStep_eq ht]
    exact tr.putJob_self st (.works [] n n) rfl rfl hl (.reading n _ fin hf) hc
  | ending v fin hf => exact tr.step_ending st hf ht hl hc
  | recovering => exact tr.step_recovering st ht hl
  | enabling => exact tr.step_enabling st ht hl hc

/-- Every step of ENG, whatever BUS answers: the transfer stays in its phase. -/
theorem Transferring.engine {mv : Move} (hm : mv = .fetch ∨ ∃ ack data, mv = .complete ack data) :
    ∃ t, move mv u = .next t ∧ Transferring s cw addr sh t j need := by
  have hc : need.Met u.cfg u.core := tr.cfg_eq ▸ tr.core
  obtain ⟨t, hmove, ht, hc⟩ := hc.move (tr.cfg_eq ▸ st.wf) hm
  refine ⟨t, hmove, tr.beside.trans ⟨ht.cfg, ht.freq, ht.divActive, by rw [ht.handle]⟩, ht.jobs.trans tr.jobs, tr.rid,
    tr.words, by rw [ht.log, tr.answers], ht.handle ▸ tr.phase, tr.cfg_eq ▸ hc⟩

omit st in
theorem Transferring.findJob_eq : findJob j.rid u.jobs = some j := by
  rw [tr.jobs]
  exact findJob_cons_self ..

omit st in
theorem Transferring.hasJob : u.hasJob s.env.client = true := by
  rw [State.hasJob, ← tr.rid, tr.findJob_eq, Option.isSome_some]

end Steps

/-! ### To the end -/

theorem Transferred.not_hasJob (st : TransferStart s cw) (h : Transferred s u) : u.hasJob s.env.client = false :=
  (State.hasJob_congr u s _ h.jobs).trans st.alone

/-- What is left of the schedule stays to be made (log 6). -/
theorem Transferred.drive (st : TransferStart s cw) (h : Transferred s u) (ms : List Move) :
    ∃ t, Machine.drive s.env.client ms u = .next t ∧ Transferred s t := by
  have hnone := h.not_hasJob st
  cases ms with
  | nil => exact ⟨u, runAlone_done hnone _, h⟩
  | cons m ms =>
    obtain ⟨hb, hl, hj, hi, ha⟩ := h
    refine ⟨u.setAgenda (m :: ms), by rw [Machine.drive, if_neg (by simp [hnone])], ?_, hl, hj, hi, ha⟩
    exact hb.trans ⟨rfl, rfl, rfl, rfl⟩

/-- Alone the transfer ends, by induction on the steps left (R154). -/
theorem Transferring.runAlone (st : TransferStart s cw) {n : Nat} (tr : Transferring s cw addr sh u j need)
    (hn : scriptBound j.todo ≤ n) : ∃ t, Machine.runAlone s.env.client n u = .next t ∧ Transferred s t := by
  have hmove := tr.phase.canMove tr.rid
  induction n generalizing u j need with
  | zero => exact absurd (scriptBound_pos_of_canMove hmove) (by omega)
  | succ n ih =>
    obtain ⟨t, hstep, hnext⟩ := tr.feStep st true
    rw [Machine.runAlone, if_pos tr.hasJob, hstep, andThen_next]
    obtain ⟨k, need', tr'⟩ | hdone := hnext
    · have hcan := feStep_canMove tr.findJob_eq hmove (tr.rid ▸ hstep)
      obtain ⟨-, -, ⟨i, -, hjobs, hlt, -⟩ | ⟨x, hjobs, -⟩⟩ := hcan
      · obtain ⟨rfl, -⟩ := List.cons_eq_cons.mp (hjobs.symm.trans tr'.jobs)
        exact ih tr' (by omega) (tr'.phase.canMove tr'.rid)
      · have hnone : findJob j.rid t.jobs = none := hjobs ▸ findJob_dropJob ..
        rw [tr.rid, ← tr'.rid, tr'.findJob_eq] at hnone
        cases hnone
    · exact ⟨t, runAlone_done (hdone.not_hasJob st) n, hdone⟩

/-- Under any schedule of ENG's and its own steps, then alone, the transfer ends (R154, log 4, 6). -/
theorem Transferring.drive (st : TransferStart s cw) {ms : List Move} (tr : Transferring s cw addr sh u j need)
    (hms : ∀ m ∈ ms, m.ownOrEngine s.env.client = true) :
    ∃ t, Machine.drive s.env.client ms u = .next t ∧ Transferred s t := by
  induction ms generalizing u j need with
  | nil =>
    have hfuel : aloneFuel s.env.client u = scriptSteps j.todo + 4 := by rw [aloneFuel, ← tr.rid, tr.findJob_eq]
    rw [Machine.drive, hfuel]
    exact tr.runAlone st (scriptBound_le j.todo)
  | cons m ms ih =>
    obtain ⟨hm, hrest⟩ := List.forall_mem_cons.mp hms
    have engine (hm : m = .fetch ∨ ∃ ack data, m = .complete ack data) :
        ∃ t, Machine.drive s.env.client (m :: ms) u = .next t ∧ Transferred s t := by
      obtain ⟨t, hmove, tr'⟩ := tr.engine st hm
      rw [drive_cons tr.hasJob hmove]
      exact ih tr' hrest
    cases m with
    | fetch => exact engine (.inl rfl)
    | complete ack data => exact engine (.inr ⟨ack, data, rfl⟩)
    | fe r p =>
      obtain rfl : r = s.env.client := by simpa [Move.ownOrEngine] using hm
      obtain ⟨t, hstep, hnext⟩ := tr.feStep st p
      rw [drive_cons (m := .fe s.env.client p) tr.hasJob hstep]
      obtain ⟨k, need', tr'⟩ | hdone := hnext
      · exact ih tr' hrest
      · exact hdone.drive st ms
    | raw a => cases hm
    | submit r q => cases hm

/-- The lock is free again. -/
theorem Transferred.handle_eq (h : Transferred s u) (hl : s.handle.lock = none) : u.handle = s.handle := by
  rw [h.beside.handle, h.lock, ← hl]

/-- From its submission on, on an idle controller with the lock free. -/
theorem runRequest_transferred (st : TransferStart s cw) (hidle : coreIdle s.core) (hl : s.handle.lock = none)
    (hcw : ∃ xs, cw = xs.map (Exchange.word s.cfg) ∧ InFrame false xs) (addr : BitVec 7) (sh : Shape) {q : Request}
    (hag : ∀ m ∈ s.env.agenda, m.ownOrEngine s.env.client = true) :
    ∃ t, runRequest q (.next ⟨cw, transferScript s.cfg cw addr sh⟩) s = .next t ∧ Transferred s t := by
  obtain ⟨xs, hcw, hf⟩ := hcw
  have hjobs : dropJob s.env.client s.jobs = s.jobs := dropJob_eq_self st.alone
  have hphase : Phase s.cfg s.env.client cw addr sh (transferScript s.cfg cw addr sh) (.b8 0#8) none
      (.works cw cw.length 0) := transferScript_eq .. ▸ .checking 0 (by omega)
  have tr : Transferring s cw addr sh
      ((s.drawn.setAgenda []).putJob (newJob s.env.client q ⟨cw, transferScript s.cfg cw addr sh⟩))
      (newJob s.env.client q ⟨cw, transferScript s.cfg cw addr sh⟩) (.works cw cw.length 0) :=
    ⟨⟨rfl, rfl, rfl, rfl⟩, congrArg _ hjobs, rfl, rfl, rfl, hl ▸ hphase, coreWorks_of_idle hidle hcw hf st.fits⟩
  rw [runRequest_next st.alone]
  exact tr.drive st hag

end Sys2Proof.Machine
end

section
/-! PROOFS. The statements of spec/43_transfer_engine.md. -/

open Sys2Proof Sys2Proof.Machine

/-- Settles O35: the request's one step is its answer. -/
theorem getCacheSizeResult : Obligations.GetCacheSizeResult := by
  unfold Obligations.GetCacheSizeResult
  exact fun s n hq ho hs => exec_getCacheSize_quiet hq ho hs

/-- Settles O40: the transfer stands in some phase, ENG and its own steps keep it so or end it, and alone it ends. -/
theorem everyTransferEndsIdle : Obligations.EveryTransferEndsIdle := by
  unfold Obligations.EveryTransferEndsIdle
  intro s q h hidle hl hj hacc hag
  obtain ⟨ho, hs, hin, hfit⟩ := hacc
  obtain ⟨addr, sh, hexec⟩ := exec_of_inContract ho hs hin
  obtain ⟨t, hrun, hdone⟩ := runRequest_transferred ⟨h, hj, hs, requestWords_ne_nil hin, hfit⟩ hidle hl
    (exists_inFrame_requestWords s.cfg hin) addr sh (q := q) hag
  obtain ⟨a, hans, herr⟩ := hdone.answers
  exact ⟨t, a, hexec.trans hrun, hans, hdone.idle, hdone.beside.freq, hdone.beside.divActive,
    hdone.handle_eq hl, hdone.jobs, hdone.beside.cfg, herr⟩

/-- Settles O42: the length check, once the lock is taken, leaves the release and the error. -/
theorem transferTooLongRaises : Obligations.TransferTooLongRaises := by
  unfold Obligations.TransferTooLongRaises
  intro s q n hq ho hs hin hl hlong
  obtain ⟨addr, sh, hexec⟩ := exec_of_inContract ho hs hin
  exact hexec.trans (runRequest_tooLong hq hl hs hlong addr sh)

/-- Settles O43: the test of TX_COUNT goes over to the recovery and the error. -/
theorem busBusySendRaises : Obligations.BusBusySendRaises := by
  unfold Obligations.BusBusySendRaises
  intro s q h hq hacc hl hk htx
  obtain ⟨ho, hs, hin, hfit⟩ := hacc
  obtain ⟨hlen, -, -⟩ := hk
  obtain ⟨addr, sh, hexec⟩ := exec_of_inContract ho hs hin
  have hcount := toNat_ofNat_of_le_fifoDepth h hlen
  have h0 : s.core.txq.length ≠ 0 := mt List.eq_nil_of_length_eq_zero htx
  exact ⟨_, hcount, hexec.trans (runRequest_busBusySend h hq hl hs (requestWords_ne_nil hin)
    (by rwa [toNat_ofNat_fifoDepth h]) (by rwa [hcount]) addr sh)⟩

/-- Settles O44: the test of RX_COUNT, after that of an empty TX FIFO, goes over to the recovery and the error. -/
theorem busBusyReceiveRaises : Obligations.BusBusyReceiveRaises := by
  unfold Obligations.BusBusyReceiveRaises
  intro s q h hq hacc hl hk htx hrx
  obtain ⟨ho, hs, hin, hfit⟩ := hacc
  obtain ⟨-, hlen, -⟩ := hk
  obtain ⟨addr, sh, hexec⟩ := exec_of_inContract ho hs hin
  have hcount := toNat_ofNat_of_le_fifoDepth h hlen
  have h0 : s.core.rxq.length ≠ 0 := mt List.eq_nil_of_length_eq_zero hrx
  exact ⟨_, hcount, hexec.trans (runRequest_busBusyReceive h hq hl hs (requestWords_ne_nil hin)
    (by rwa [toNat_ofNat_fifoDepth h]) htx (by rwa [hcount]) addr sh)⟩

/-- Settles O45: the three outcomes of the poll's test; the load and one poll that goes over to Timeout. -/
theorem noResponseTimesOut : Obligations.NoResponseTimesOut := by
  unfold Obligations.NoResponseTimesOut
  refine ⟨fun s r passed j rest hj ht => ?_, fun s q h hq hacc hl htx hrx => ?_⟩
  · exact move_poll hj ht
  · obtain ⟨ho, hs, hin, hfit⟩ := hacc
    obtain ⟨addr, sh, hexec⟩ := exec_of_inContract ho hs hin
    rw [hexec, runRequest_timeout h hq hl hs (requestWords_ne_nil hin) hfit htx hrx addr sh]
    simp [loadAccesses, enableAccesses]

/-- Settles O46: `acquire` on a held lock is no step; while the lock's invariant holds some request can move, and each step
brings an answer nearer. -/
theorem transferWaitsForTheLock : Obligations.TransferWaitsForTheLock := by
  unfold Obligations.TransferWaitsForTheLock
  refine ⟨fun s q r hq hacc hl => ?_, fun s h hi ha => exists_settlesIn h hi ha⟩
  obtain ⟨ho, n, hs, hin⟩ := hacc
  obtain ⟨addr, sh, hexec⟩ := exec_of_inContract ho hs hin
  exact ⟨newJob s.env.client q ⟨_, transferScript s.cfg _ addr sh⟩, rfl, rfl, rfl, rfl,
    hexec.trans (runRequest_waits hq hl addr sh)⟩

end

section
/-! SUPPORT. The response decoder on any raw response bytes (spec/44_response_decoder.md R170 to R174): its pairs by
index, the scan as a statement about flag bytes, the extractions byte by byte. -/

namespace Sys2Proof.Machine

variable {mask : Byte} {addr : BitVec 7} {shape : Shape} {resp : List Byte} {W n i : Nat}

/-- Pair `k` is the bytes `2k` and `2k+1` (44 R170). -/
theorem getElem?_pairsOf_eq_some_iff {k : Nat} {p : Byte × Byte} :
    (pairsOf resp)[k]? = some p ↔ resp[2 * k]? = some p.1 ∧ resp[2 * k + 1]? = some p.2 := by
  induction resp using pairsOf.induct generalizing k with
  | case1 => simp [pairsOf]
  | case2 d => simp [pairsOf]
  | case3 d f rest ih =>
    cases k with
    | zero => simp [pairsOf, Prod.ext_iff]
    | succ k => simpa [pairsOf, Nat.mul_succ] using ih

/-- The scan reads the flag bytes of pairs `0` to `W - 2` and no other byte (44 R171). -/
theorem scanFindsNack_iff : scanFindsNack mask resp W = true ↔
    ∃ k, k + 1 < W ∧ ∃ f, resp[2 * k + 1]? = some f ∧ f &&& mask ≠ 0#8 := by
  simp only [scanFindsNack, List.any_eq_true, List.mem_iff_getElem?, List.getElem?_take,
    Option.ite_none_right_eq_some, isNackFlag, bne_iff_ne]
  constructor
  · rintro ⟨p, ⟨k, hk, hp⟩, hf⟩
    exact ⟨k, by omega, p.2, (getElem?_pairsOf_eq_some_iff.mp hp).2, hf⟩
  · rintro ⟨k, hk, f, hkf, hf⟩
    obtain ⟨hlt, -⟩ := List.getElem?_eq_some_iff.mp hkf
    have hd : resp[2 * k]? = some resp[2 * k] := List.getElem?_eq_getElem (by omega)
    exact ⟨(_, f), ⟨k, by omega, getElem?_pairsOf_eq_some_iff.mpr ⟨hd, hkf⟩⟩, hf⟩

/-- No extraction raises (44 R172 to R174). -/
theorem extraction_ne_error (e : Error) : extraction shape resp W ≠ .error e := by
  cases shape <;> simp [extraction]

/-- The decoder's only error is the scan's (44 R170). -/
theorem decodedAnswer_eq_nack_iff :
    decodedAnswer mask addr shape resp W = .error (.nack addr) ↔ scanFindsNack mask resp W = true := by
  unfold decodedAnswer
  split
  case isTrue hscan => exact iff_of_true rfl hscan
  case isFalse hscan => exact iff_of_false (extraction_ne_error _) hscan

/-- A scan that met no NACK leaves the extraction (44 R170). -/
theorem decodedAnswer_of_scan_clean (h : scanFindsNack mask resp W = false) :
    decodedAnswer mask addr shape resp W = extraction shape resp W := by
  simp [decodedAnswer, h]

/-- The data byte of pair `k` is the byte `2k` (44 R170). -/
theorem getElem?_dataBytes (h : resp.length = 2 * W) (hi : i < W) : (dataBytes resp W)[i]? = resp[2 * i]? := by
  have hd : resp[2 * i]? = some resp[2 * i] := List.getElem?_eq_getElem (by omega)
  have hf : resp[2 * i + 1]? = some resp[2 * i + 1] := List.getElem?_eq_getElem (by omega)
  have hp : (pairsOf resp)[i]? = some (resp[2 * i], resp[2 * i + 1]) := getElem?_pairsOf_eq_some_iff.mpr ⟨hd, hf⟩
  rw [dataBytes, List.getElem?_map, List.getElem?_take_of_lt hi, hp, hd]
  rfl

theorem length_pairsOf : (pairsOf resp).length = resp.length / 2 := by
  induction resp using pairsOf.induct with
  | case1 => rfl
  | case2 d => simp [pairsOf]
  | case3 d f rest ih =>
    rw [pairsOf, List.length_cons, List.length_cons, List.length_cons, ih]
    omega

theorem length_dataBytes (h : resp.length = 2 * W) : (dataBytes resp W).length = W := by
  rw [dataBytes, List.length_map, List.length_take, length_pairsOf]
  omega

/-- The data bytes after the first `n`: how many they are and which response bytes they are (44 R172, R173). -/
theorem drop_dataBytes (h : resp.length = 2 * W) : ((dataBytes resp W).drop n).length = W - n ∧
    ∀ i, i + n < W → ((dataBytes resp W).drop n)[i]? = resp[2 * (i + n)]? := by
  refine ⟨by rw [List.length_drop, length_dataBytes h], fun i hi => ?_⟩
  rw [List.getElem?_drop, Nat.add_comm n i, getElem?_dataBytes h hi]

end Sys2Proof.Machine
end

section
/-! PROOFS. The statements of spec/44_response_decoder.md. -/

open Sys2Proof Sys2Proof.Machine

/-- Settles O58: the decoder raises exactly when the scan finds a NACK, and the scan reads the flags of pairs 0
to W-2. -/
theorem scanCoversAllButTheLastPair : Obligations.ScanCoversAllButTheLastPair := by
  unfold Obligations.ScanCoversAllButTheLastPair
  intro mask addr shape resp W _
  exact decodedAnswer_eq_nack_iff.trans scanFindsNack_iff

/-- Settles O59: after a clean scan the answer is the extraction, which drops the data bytes of the first pairs. -/
theorem extractionsKeepTheDataBytes : Obligations.ExtractionsKeepTheDataBytes := by
  unfold Obligations.ExtractionsKeepTheDataBytes
  intro mask addr resp W L h hscan
  exact ⟨⟨_, decodedAnswer_of_scan_clean hscan, drop_dataBytes h⟩,
    ⟨_, decodedAnswer_of_scan_clean hscan, drop_dataBytes h⟩, decodedAnswer_of_scan_clean hscan⟩

end

section
/-! SUPPORT. The lock among all agents: only the front end and the beginning of a request touch the jobs and the lock
(spec/45_handle_arbiter.md R186 to R190), and the controllers of a platform are found under their own identities (R185,
R191). -/

namespace Sys2Proof.Machine

variable {c : Config} {s t : State} {r : Nat} {p : Bool} {a : Act} {rest : List Act} {j k : Job} {e : RegEvent}

/-! ### The other agents -/

/-- `t` has the parameters, the handle and the outstanding requests of `s`. -/
structure LeavesRequests (s t : State) : Prop where
  cfg : t.cfg = s.cfg
  handle : t.handle = s.handle
  jobs : t.jobs = s.jobs

theorem LeavesRequests.refl (s : State) : LeavesRequests s s := ⟨rfl, rfl, rfl⟩

theorem completeWord_leavesRequests {w : Word} {f : ByteForm} {pl : Byte} {n : Bool}
    (h : completeWord w f pl n s = .next t) : LeavesRequests s t := by
  obtain rfl | ⟨-, -, -, -, rfl⟩ := completeWord_next h
  · exact .refl t
  · exact ⟨rfl, rfl, rfl⟩

theorem engFetch_leavesRequests (s : State) : LeavesRequests s (engFetch s) := by
  obtain h | ⟨w, ws, -, -, -, h⟩ := engFetch_eq s <;> rw [h]
  · exact .refl s
  · exact ⟨rfl, rfl, rfl⟩

theorem rawAccess_leavesRequests {a : Access} (h : rawAccess a s = .next t) : LeavesRequests s t := by
  cases a with
  | read off w =>
    obtain ⟨⟨v, u⟩, hu, h⟩ := andThen_eq_next.mp h
    cases h
    obtain ⟨_, _, -, -, rfl⟩ := regRead_next _ hu
    exact ⟨rfl, rfl, rfl⟩
  | write off v =>
    obtain ⟨_, _, -, -, rfl⟩ := regWrite_next _ h
    exact ⟨rfl, rfl, rfl⟩
  | readIncrementing off w n => cases h
  | writeIncrementing off vs => cases h

theorem execConfigReset_leavesRequests (h : execConfigReset s = .next t) : LeavesRequests s t := by
  cases h
  exact ⟨rfl, rfl, rfl⟩

theorem execConfigEnable_leavesRequests (h : execConfigEnable s = .next t) : LeavesRequests s t := by
  cases h
  exact ⟨rfl, rfl, rfl⟩

/-- The lock's invariant speaks of the parameters, the lock and the requests alone. -/
theorem LeavesRequests.wf_and_lockInv (h : LeavesRequests s t) (hi : s.cfg.WF ∧ Machine.lockInv s) :
    t.cfg.WF ∧ Machine.lockInv t := by
  obtain ⟨hc, hh, hj⟩ := h
  unfold Machine.lockInv
  rwa [hc, hh, hj]

/-! ### The beginning of a request -/

/-- The load stays inside. -/
theorem lockScript_loadScript (h : c.WF) (cw : List Word) :
    lockScript c true (loadScript c cw ++ rest) = lockScript c true rest := by
  have hbuf : transferOffset c c.offTxBuf = true := transferOffset_regOffset h .txBuf
  induction cw with
  | nil => rfl
  | cons w cw ih => simpa [loadScript, lockScript, lockRole, hbuf] using ih

/-- The read-back stays inside. -/
theorem lockScript_readBackScript (h : c.WF) (W : Nat) :
    lockScript c true (readBackScript c W ++ rest) = lockScript c true rest := by
  have hbuf : transferOffset c c.offRxBuf = true := transferOffset_regOffset h .rxBuf
  induction W with
  | zero => rfl
  | succ W ih => simpa [readBackScript, lockScript, lockRole, hbuf] using ih

/-- `_transfer` is followed from outside: it takes the lock first and gives it back before it ends. -/
theorem lockScript_transferScript (h : c.WF) (cw : List Word) (addr : BitVec 7) (sh : Shape) :
    lockScript c false (transferScript c cw addr sh) = true := by
  have htx : transferOffset c c.offTxCount = true := transferOffset_regOffset h .txCount
  have hrx : transferOffset c c.offRxCount = true := transferOffset_regOffset h .rxCount
  simp [transferScript, lockScript, lockRole, htx, hrx, lockScript_loadScript h, lockScript_pollScript h,
    lockScript_readBackScript h]

theorem lockScript_transferPlan (h : c.WF) (bad : Option Reason) (cw : List Word) (addr : Int) (sh : Shape) :
    lockScript c false (transferPlan c bad cw addr sh).todo = true := by
  cases bad with
  | none => exact lockScript_transferScript h cw _ sh
  | some why => exact lockScript_raiseScript h _ false

/-- Every request begins outside the lock's region (45 R187, R188). -/
theorem lockScript_of_planOf (h : s.cfg.WF) {q : Request} {plan : Plan} (e : planOf q s = .next plan) :
    lockScript s.cfg false plan.todo = true := by
  have hconf : transferOffset s.cfg s.cfg.offConfig = false := transferOffset_regOffset h .config
  have hfreq : transferOffset s.cfg s.cfg.offFreq = false := transferOffset_regOffset h .freq
  have hsize : transferOffset s.cfg s.cfg.offBufSize = false := transferOffset_regOffset h .bufSize
  cases q with
  | openReq => cases e; simp [openScript, lockScript, lockRole, hsize]
  | enable => cases e; simp [enableScript, lockScript, lockRole, hconf]
  | disable => cases e; simp [disableScript, lockScript, lockRole, hconf]
  | setSpeed f => cases e; rw [lockScript_setSpeedScript h]; rfl
  | getSpeed => cases e; simp [getSpeedScript, lockScript, lockRole, hfreq]
  | read _ _ | write _ _ | writeAndRead _ _ _ =>
    obtain ⟨_, -, e⟩ := andThen_eq_next.mp e
    cases e
    exact lockScript_transferPlan h ..
  | getCacheSize =>
    obtain ⟨_, -, e⟩ := andThen_eq_next.mp e
    cases e
    rfl

/-- The holder of the lock has a request outstanding. -/
theorem not_holds_of_no_job (hi : lockInv s) (hr : s.hasJob r = false) : s.holds r = false := by
  obtain ⟨-, -, hholder⟩ := lockInv_iff.mp hi
  have hnone : findJob r s.jobs = none := by simpa [State.hasJob] using hr
  refine Bool.eq_false_iff.mpr fun hh => ?_
  obtain ⟨j, hj, hjr⟩ := hholder r hh
  exact findJob_none.mp hnone j hj hjr

/-- The beginning of a request keeps the lock's invariant: its requester has no other and does not hold the lock. -/
theorem launch_lockInv (h : s.cfg.WF) (hi : lockInv s) {q : Request} {plan : Plan} (hr : s.hasJob r = false)
    (e : planOf q s = .next plan) : lockInv (launch r q plan s) := by
  have hs : lockScript s.cfg (s.holds r) plan.todo = true := by
    rw [not_holds_of_no_job hi hr]
    exact lockScript_of_planOf h e
  have hstep : LockStep s (launch r q plan s) r := launch_eq r q plan s ▸ .of_putJob rfl rfl rfl hs
  exact hstep.lockInv rfl hi

/-- The lock's invariant is kept by every operation a step is made of, under parameters that meet 00 R6. -/
theorem kept_lockInv : Kept fun s => s.cfg.WF ∧ Machine.lockInv s where
  env _ _ h := h
  word _ _ _ _ _ _ h e := (completeWord_leavesRequests e).wf_and_lockInv h
  fetch s h := (engFetch_leavesRequests s).wf_and_lockInv h
  front _ _ _ _ h e := ⟨(feStep_effect e).cfg ▸ h.1, feStep_lockInv h.1 h.2 e⟩
  raw _ _ _ h e := (rawAccess_leavesRequests e).wf_and_lockInv h
  reset _ _ h e := (execConfigReset_leavesRequests e).wf_and_lockInv h
  enable _ _ h e := (execConfigEnable_leavesRequests e).wf_and_lockInv h
  launch _ _ _ _ h hr e := ⟨h.1, launch_lockInv h.1 h.2 hr e⟩

/-! ### Accesses under the lock -/

/-- The step of a request that makes an access of a FIFO port or a count is one that needs the lock (45 R190). -/
theorem lockRole_of_transferAccess (h : runAct a k p s = .next t) (hacc : t.log.accesses = s.log.accesses ++ [e])
    (hreg : transferReg (eventReg e) = true) : lockRole s.cfg a = .needs := by
  have silent {α : Prop} (hu : t.log.accesses = s.log.accesses) : α := by simp [hu] at hacc
  cases a with
  | checkLength | checkEmpty _ | poll | collect => rfl
  | regWrite off v =>
    obtain ⟨u, hu, h⟩ := andThen_eq_next.mp h
    cases h
    obtain ⟨x, _, hx, -, rfl⟩ := regWrite_next _ hu
    obtain rfl : RegEvent.write (.fe k.rid) x v = e := by simpa using hacc
    simpa [lockRole, transferOffset, hx, eventReg] using hreg
  | regRead off w =>
    obtain ⟨⟨v, u⟩, hu, h⟩ := andThen_eq_next.mp h
    cases h
    obtain ⟨x, _, hx, -, rfl⟩ := regRead_next _ hu
    obtain rfl : RegEvent.read (.fe k.rid) x v = e := by simpa using hacc
    simpa [lockRole, transferOffset, hx, eventReg] using hreg
  | acquire =>
    cases h
    obtain h | ⟨-, h⟩ := acquireLock_eq k s <;> exact silent (congrArg (·.log.accesses) h)
  | release =>
    cases h
    obtain h | ⟨-, h⟩ := releaseLock_eq k s <;> exact silent (congrArg (·.log.accesses) h)
  | checkSpeed f => simp only [runAct] at h; split at h <;> cases h <;> exact silent rfl
  | answerCacheSize => simp only [runAct] at h; split at h <;> cases h; exact silent rfl
  | setCacheSize | callSetSpeed | setRate _ | setOpened | answer _ | answerSpeed | decodeResponse _ _ =>
    cases h; exact silent rfl

/-! ### The lock's two operations -/

/-- A front-end move takes the head of the requester's script. -/
theorem move_fe_of_todo (hj : findJob r s.jobs = some j) (ht : j.todo = a :: rest) :
    move (.fe r p) s = runAct a { j with todo := rest } p s := by
  simp [move, feStep, hj, ht]

theorem acquireLock_of_free (j : Job) (hl : s.handle.lock = none) :
    acquireLock j s = (s.setLock (some j.rid)).putJob j := by
  simp [acquireLock, hl]

theorem acquireLock_of_held (j : Job) (hl : s.handle.lock ≠ none) : acquireLock j s = s := by
  obtain h | ⟨hfree, -⟩ := acquireLock_eq j s
  · exact h
  · exact absurd hfree hl

theorem releaseLock_of_holder (hl : s.handle.lock = some j.rid) : releaseLock j s = (s.setLock none).putJob j := by
  rw [releaseLock, if_pos hl]

/-! ### The platform -/

theorem controllerAt_ident (n : Nat) (q : Platform) : (controllerAt n q).ident = n := by
  unfold controllerAt
  split <;> rfl

theorem controllerAt_setController_self {n : Nat} (q : Platform) (ht : t.ident = n) :
    controllerAt n (setController n t q) = t := by
  subst ht
  simp [controllerAt, setController]

theorem controllerAt_setController_of_ne {n m : Nat} (q : Platform) (hne : m ≠ n) :
    controllerAt m (setController n t q) = controllerAt m q := by
  have hothers : (q.used.filter fun x => x.1 != n).find? (fun x => x.1 == m) = q.used.find? fun x => x.1 == m := by
    rw [List.find?_filter]
    congr 1
    funext x
    by_cases hx : x.1 = m <;> simp [hx, hne]
  simp [controllerAt, setController, hne.symm, hothers]

end Sys2Proof.Machine
end

section
/-! PROOFS. The statements of spec/45_handle_arbiter.md. -/

open Sys2Proof Sys2Proof.Machine

/-- Settles O47: the two operations of the lock by its state. -/
theorem lockIsTakenFreeAndGivenBack : Obligations.LockIsTakenFreeAndGivenBack := by
  unfold Obligations.LockIsTakenFreeAndGivenBack
  intro s r passed j rest hj
  obtain rfl := findJob_rid hj
  refine ⟨fun ht hl => ?_, fun ht hl => ?_, fun ht hl => ?_⟩ <;> rw [move_fe_of_todo hj ht]
  · exact congrArg Host.Outcome.next (acquireLock_of_free { j with todo := rest } hl)
  · exact congrArg Host.Outcome.next (acquireLock_of_held { j with todo := rest } hl)
  · exact congrArg Host.Outcome.next (releaseLock_of_holder (j := { j with todo := rest }) hl)

/-- Settles O48: the lock's invariant is kept by each operation a step is made of. -/
theorem stepKeepsLockInv : Obligations.StepKeepsLockInv := by
  unfold Obligations.StepKeepsLockInv
  exact fun s t h hi e => (kept_lockInv.step ⟨h, hi⟩ e).2

/-- Settles O49: such an access is a step that needs the lock, and a script with it at its head stands inside. -/
theorem transferAccessNeedsTheLock : Obligations.TransferAccessNeedsTheLock := by
  unfold Obligations.TransferAccessNeedsTheLock
  intro s t r passed e hi hmove hacc hreg
  obtain rfl | ⟨j, a, rest, hj, ht, hrun⟩ := feStep_next hmove
  · simp at hacc
  · obtain rfl := findJob_rid hj
    obtain ⟨-, hjobs, -⟩ := lockInv_iff.mp hi
    have hs := hjobs j (findJob_mem hj)
    rw [ht] at hs
    obtain ⟨hin, -⟩ := lockScript_of_needs (lockRole_of_transferAccess hrun hacc hreg) hs
    exact beq_iff_eq.mp hin

/-- Settles O56: a controller's step keeps its identity, under which its new state is found and no other. -/
theorem controllersShareNothing : Obligations.ControllersShareNothing := by
  unfold Obligations.ControllersShareNothing
  intro p p' k k' h
  obtain ⟨t, hstep, h⟩ := andThen_eq_next.mp h
  cases h
  have ht : t.ident = k := (step_extends hstep).ident.trans (controllerAt_ident k p)
  have hself : step (controllerAt k p) = .next (controllerAt k (setController k t p)) := by
    rw [controllerAt_setController_self p ht, hstep]
  exact ⟨hself, controllerAt_setController_of_ne p, controllerAt_ident k _, controllerAt_ident k' _⟩

end

section
/-! SUPPORT. `open()` with a configured rate out of range, running alone (spec/70_reset_and_hazards.md R235), and what a
handle that is not opened refuses (R236). -/

namespace Sys2Proof.Machine

variable {s : State} {q : Request}

/-- `open()` with a configured rate out of range, no other agent moving: BUF_SIZE is read and kept, then the range check of
`set_speed` fails (R235, 60 R201). -/
theorem exec_openReq_outOfRange (h : s.cfg.WF) (hq : quiet s) (hf : speedInRange s.cfg s.handle.rateHz = false) :
    exec .openReq s = .next (s.answered s.core
      { s.handle with cacheSize := some (BitVec.ofNat 16 s.cfg.fifoDepth) } (s.env.draws + 2)
      [.read (.fe s.env.client) .bufSize (.b16 (BitVec.ofNat 16 s.cfg.fifoDepth))]
      (.error (.contractViolation .speedOutOfRange))) := by
  calc exec .openReq s
      = runAlone s.env.client 12 (s.depthKept.putJob
          ⟨s.env.client, .openReq, [], .b16 (BitVec.ofNat 16 s.cfg.fifoDepth), [],
            setSpeedScript s.cfg s.handle.rateHz ++ [.setOpened, .answer .done]⟩) := exec_openReq_eq h hq
    _ = .next (deliver s.env.client (.error (.contractViolation .speedOutOfRange)) s.depthKept) :=
      runAlone_checkSpeed_outOfRange (s := s.depthKept) hf
    _ = _ := congrArg _ (deliver_eq_answered hq _ rfl rfl rfl rfl rfl)

/-- The execution of a request is the run of its plan. -/
theorem exec_instr_eq_runRequest (q : Request) (s : State) : exec q.instr s = runRequest q (planOf q s) s := by
  cases q <;> rfl

/-- A request whose plan is refused is refused. -/
theorem runRequest_of_refused {why : Refusal} (hj : s.hasJob s.env.client = false) (q : Request) :
    runRequest q (.refused why) s = .refused why := by
  simp [runRequest, hj]

/-- A handle that is not opened has no `cache_size` to show (R236). -/
theorem openedCacheSize_of_not_opened (ho : s.handle.opened = false) (q : Request) :
    openedCacheSize q s = .refused (.notOpened q) := by
  simp [openedCacheSize, ho]

/-- The plan of a transfer and of `get_cache_size` asks first for an opened handle (R236). -/
theorem planOf_of_not_opened (ho : s.handle.opened = false) (hq : isTransfer q = true ∨ q = .getCacheSize) :
    planOf q s = .refused (.notOpened q) := by
  have hsize := openedCacheSize_of_not_opened ho
  cases q <;> simp only [isTransfer, Bool.false_eq_true, reduceCtorEq, or_self] at hq
  case read addr n => rw [planOf, planRead, hsize, andThen_refused]
  case write addr data => rw [planOf, planWrite, hsize, andThen_refused]
  case writeAndRead addr data n => rw [planOf, planWriteAndRead, hsize, andThen_refused]
  case getCacheSize => rw [planOf, planGetCacheSize, hsize, andThen_refused]

end Sys2Proof.Machine
end

section
/-! PROOFS. The statements of spec/70_reset_and_hazards.md. -/

open Sys2Proof Sys2Proof.Machine

/-- Settles O34: `open()` reaches the range check of its `set_speed` with BUF_SIZE read and kept, and the check fails. -/
theorem openOutOfRangeRaises : Obligations.OpenOutOfRangeRaises := by
  unfold Obligations.OpenOutOfRangeRaises
  exact fun s h hq hf =>
    ⟨BitVec.ofNat 16 s.cfg.fifoDepth, toNat_ofNat_fifoDepth h, exec_openReq_outOfRange h hq (speedInRange_eq_false hf)⟩

/-- Settles O36: the request is refused with its plan, whatever the agenda. -/
theorem beforeOpenRefused : Obligations.BeforeOpenRefused := by
  unfold Obligations.BeforeOpenRefused
  intro s q ho hj hq
  rw [exec_instr_eq_runRequest, planOf_of_not_opened ho hq, runRequest_of_refused hj]

end
